-- ==== Sys2Proof/Word.lean ====
section
/-! DEFINITION. The word types of the block (spec/00_scope.md R7, R8; spec/10_state.md R22, R23, R30). -/

namespace Sys2Proof

/-- One byte of ring memory or of device register space (spec/20_memory.md R70). -/
abbrev Byte := BitVec 8
/-- A 16-bit index register, event id or immediate (spec/10_state.md R30, spec/30_encoding.md R101). -/
abbrev Word16 := BitVec 16
/-- A 32-bit request word, register or slot size (spec/10_state.md R21, R30). -/
abbrev Word32 := BitVec 32
/-- A 64-bit argument or result (spec/10_state.md R22, R23). -/
abbrev Word64 := BitVec 64
/-- Room for an address; how many of its bits exist is `ADDR_W` (spec/00_scope.md R7, `Config.addrW`). -/
abbrev Addr := BitVec 64
/-- A buffer handle, which is also the buffer's DMA address (spec/10_state.md R29). -/
abbrev Handle := BitVec 64
/-- The `unit` field of a request word (spec/30_encoding.md R101). -/
abbrev UnitId := BitVec 8

end Sys2Proof
end

