-- ==== Sys2Proof/Config.lean ====
section
/-! DEFINITION. What an implementation fixes (spec/00_scope.md R7; spec/10_state.md R27) and the free values
of the model. A configuration is plain data: it is held in State, fixed for the run and written by no operation, so
that a statement for every state is a statement for every configuration (notes/assumptions/8.md). -/

namespace Sys2Proof

/-- The role of a unit (spec/10_state.md R27, spec/30_encoding.md R106). -/
inductive Role where
  | admin
  | notify
  | tx
  | rx
deriving DecidableEq, Repr

/-- The TX descriptor (spec/30_encoding.md R121): byte offsets of its fields and its least size. -/
structure TxDescLayout where
  addrOff : Nat
  lenOff : Nat
  flagsOff : Nat
  vlanOff : Nat
  minBytes : Nat
deriving DecidableEq, Repr

/-- The TX completion (spec/30_encoding.md R122). -/
structure TxCompLayout where
  indexOff : Nat
  minBytes : Nat
deriving DecidableEq, Repr

/-- The RX descriptor (spec/30_encoding.md R123). -/
structure RxDescLayout where
  addrOff : Nat
  lenOff : Nat
  minBytes : Nat
deriving DecidableEq, Repr

/-- The RX completion (spec/30_encoding.md R124). -/
structure RxCompLayout where
  statusOff : Nat
  lenOff : Nat
  csumOff : Nat
  minBytes : Nat
deriving DecidableEq, Repr

/-- The event record (spec/30_encoding.md R125). -/
structure EventLayout where
  idOff : Nat
  codeOff : Nat
  minBytes : Nat
deriving DecidableEq, Repr

/-- The device status codes (spec/30_encoding.md R118). Only `success` and `init` matter to the block (R119). -/
structure RcTable where
  success : Byte
  eopcode : Byte
  eio : Byte
  eperm : Byte
  eqid : Byte
  eqtype : Byte
  enoent : Byte
  eintr : Byte
  init : Byte
  enomem : Byte
  efault : Byte
  ebusy : Byte
  eexist : Byte
  einval : Byte
  enospc : Byte
  erange : Byte
  badAddr : Byte
  devCmd : Byte
  enosupp : Byte
  error : Byte
deriving DecidableEq, Repr

/-- The block's parameters (spec/00_scope.md R7, spec/10_state.md R27). -/
structure Config where
  /-- `CAP_MIN`, `CAP_MAX`: legal capacities. -/
  capMin : Nat
  capMax : Nat
  /-- `IDX_W`, `ADDR_W`: widths of an index and of an address. The registers that hold them have room for 16 and for 64
  bits (spec/10_state.md R30, R27; notes/assumptions/9.md). -/
  idxW : Nat
  addrW : Nat
  /-- `DC_CMD_BYTES`, `DC_COMP_BYTES`: sizes of the two unions, of `CTX.cmd` and of `CTX.comp`. -/
  dcCmdBytes : Nat
  dcCompBytes : Nat
  /-- `PAGE_SIZE` (spec/20_memory.md R78). -/
  pageSize : Nat
  /-- `DC_BASE`, `DI_BASE` (spec/10_state.md R27). -/
  dcBase : Addr
  diBase : Addr
  /-- Offsets in the device-command region (spec/10_state.md R43). -/
  dcOffDoorbell : Nat
  dcOffDone : Nat
  dcOffCmd : Nat
  dcOffComp : Nat
  dcOffData : Nat
  dcDataBytes : Nat
  /-- `DB_INDEX_W`, `DB_RING_W`, `DB_QID_W`: doorbell field widths. -/
  dbIndexW : Nat
  dbRingW : Nat
  dbQidW : Nat
  /-- Doorbell field offsets (spec/30_encoding.md R110). -/
  dbIndexShift : Nat
  dbRingShift : Nat
  dbQidShift : Nat
  /-- `POLL_INTERVAL`: no rule depends on it, and nothing reads it (spec/60_exceptions.md R296; notes/assumptions/31.md). -/
  pollInterval : Nat
  ticksPerSecond : Nat
  retryBudget : Nat
  adminqTimeoutTicks : Nat
  initDoneColor : Bool
  rc : RcTable
  devInfoSignature : Word32
  ecLinkChange : Word16
  ecReset : Word16
  /-- `NQ_INIT_LAST_ID` (spec/44_notifyq.md R222). -/
  nqInitLastId : Word16
  rxCsumBadMask : Byte
  txDesc : TxDescLayout
  txComp : TxCompLayout
  rxDesc : RxDescLayout
  rxComp : RxCompLayout
  event : EventLayout
deriving DecidableEq, Repr

/-- The configuration of one unit (spec/10_state.md R27). -/
structure UnitConfig where
  role : Role
  qBase : Addr
  /-- The DMA address of the same location: never dereferenced by the block (R27). -/
  qBasePa : Addr
  cqBase : Addr
  cqBasePa : Addr
  /-- At most `DB_QID_W` and `DB_RING_W` bits (spec/10_state.md R27; notes/assumptions/15.md). -/
  qid : Word64
  ringSel : Word64
  dbAddr : Addr
deriving DecidableEq, Repr

/-- Sizes in bytes of the device-info region and of a doorbell mailbox (spec/10_state.md R44, R45). -/
abbrev diRegionBytes : Nat := 76
abbrev mailboxBytes : Nat := 8

/-- The status numerals of spec/30_encoding.md R118 (defaults). -/
def RcTable.default : RcTable :=
  { success := 0, eopcode := 2, eio := 3, eperm := 4, eqid := 5, eqtype := 6, enoent := 7, eintr := 8, init := 9,
    enomem := 10, efault := 11, ebusy := 12, eexist := 13, einval := 14, enospc := 15, erange := 16, badAddr := 17,
    devCmd := 18, enosupp := 19, error := 29 }

/-- The defaults of spec/00_scope.md R7, with the open parameters as the test configuration of
spec/95_test_vectors.md section 0 sets them. DESIGN CHOICE (notes/assumptions/8.md): only State.reset uses it. For
`POLL_INTERVAL` neither gives a number: 1 is the model's own, and nothing reads it (notes/assumptions/31.md). -/
def Config.default : Config :=
  { capMin := 4, capMax := 65536, idxW := 16, addrW := 64, dcCmdBytes := 64, dcCompBytes := 16, pageSize := 4096
    dcBase := 0xF0000800, diBase := 0xF0000000
    dcOffDoorbell := 0, dcOffDone := 4, dcOffCmd := 8, dcOffComp := 0x48, dcOffData := 0x58, dcDataBytes := 1912
    dbIndexW := 16, dbRingW := 3, dbQidW := 24
    dbIndexShift := 0, dbRingShift := 16, dbQidShift := 24
    pollInterval := 1, ticksPerSecond := 1, retryBudget := 5, adminqTimeoutTicks := 3
    initDoneColor := true
    rc := RcTable.default
    devInfoSignature := 0x44455649
    ecLinkChange := 1, ecReset := 2, nqInitLastId := 0, rxCsumBadMask := 0x2A
    txDesc := { addrOff := 0, lenOff := 8, flagsOff := 10, vlanOff := 12, minBytes := 16 }
    txComp := { indexOff := 2, minBytes := 4 }
    rxDesc := { addrOff := 0, lenOff := 8, minBytes := 16 }
    rxComp := { statusOff := 0, lenOff := 12, csumOff := 14, minBytes := 16 }
    event := { idOff := 0, codeOff := 8, minBytes := 16 } }

/-- One unit of the test configuration of spec/95_test_vectors.md section 0. -/
def UnitConfig.test (role : Role) (qid : Word64) (qBase dbAddr : Addr) : UnitConfig :=
  { role := role, qBase := qBase, qBasePa := qBase, cqBase := qBase + 0x1000, cqBasePa := qBase + 0x1000
    qid := qid, ringSel := 0, dbAddr := dbAddr }

/-- The four units of spec/95_test_vectors.md section 0. DESIGN CHOICE (notes/assumptions/8.md). -/
def UnitConfig.defaults : List UnitConfig :=
  [ UnitConfig.test .admin 0 0x100000 0xF0001000,
    UnitConfig.test .notify 1 0x110000 0xF0001008,
    UnitConfig.test .tx 2 0x120000 0xF0001010,
    UnitConfig.test .rx 3 0x130000 0xF0001018 ]

/-- FREE VALUE: the answer of the `n`-th free `BufAlloc(len)` (spec/93_implementation_defined.md U16; spec/10_state.md
R29): `fail` or any handle. Nothing constrains it (notes/assumptions/10.md). -/
opaque Config.bufAnswer : Nat → Nat → Option Handle

/-- FREE VALUES: what a read of `R0` and `R1` returns while `BUSY = 1` (spec/10_state.md R23, U6;
notes/assumptions/11.md). -/
opaque Config.busyR0 : Nat → Byte
opaque Config.busyR1 : Nat → Word64

end Sys2Proof
end

