-- ==== Sys2Proof/Machine/State.lean ====
section
/-! DEFINITION. The state of the block and of its surroundings (spec/10_state.md), as plain data, and the state after
reset (R60; spec/70_reset_and_hazards.md R310). INVENTORY.md '## State' lists every field with its rule. -/

namespace Sys2Proof.Machine

/-! ### Memory -/

/-- Ring memory or device register space (spec/10_state.md R46): address and byte, addresses strictly rising, no entry
equal to what an unlisted address reads as (Sys2Proof/Machine/Store.lean). -/
abbrev Memory := List Host.Cell

/-! ### The block's per-unit registers -/

/-- Queue registers (spec/10_state.md R30). -/
structure Queue where
  valid : Bool
  capacity : BitVec 17
  descSize : Word32
  sgDescSize : Word32
  head : Word16
  tail : Word16
deriving DecidableEq, Repr

/-- Completion-ring registers (spec/10_state.md R33). The capacity is the bound Queue's, the last flag is derived (R35). -/
structure CompRing where
  valid : Bool
  bound : Bool
  descSize : Word32
  tail : Word16
  doneColor : Bool
deriving DecidableEq, Repr

/-- One side-table entry (spec/10_state.md R36). -/
structure SideEntry where
  valid : Bool
  handle : Handle
deriving DecidableEq, Repr

/-- The side table of a unit (spec/10_state.md R36): slot and entry, slots strictly rising, no entry equal to what an
unlisted slot holds. The handle of an entry outlives its `valid` bit (notes/assumptions/7.md). -/
abbrev SideTable := List (Nat × SideEntry)

/-- One QCQ unit: its configuration (spec/10_state.md R27, never written) and its registers (R30, R33, R36, R37). -/
structure QcqUnit where
  conf : UnitConfig
  q : Queue
  cq : CompRing
  /-- `NQ[u].last_seen_id` (spec/10_state.md R37). -/
  lastSeenId : Word16
  side : SideTable
deriving DecidableEq, Repr

/-- `DC.state` (spec/10_state.md R40). -/
inductive DcState where
  | idle
  | posted
  | done
  | timedOut
deriving DecidableEq, Repr

/-! ### The device agent and the schedule -/

/-- What the device knows of one ring pair (spec/10_state.md R47; spec/46_device_contract.md R261 to R271). -/
structure DevRing where
  /-- The device was told of the ring (R261). -/
  told : Bool
  role : Role
  qid : Word64
  ringSel : Word64
  mailbox : Addr
  qBase : Addr
  qSize : Nat
  cqBase : Addr
  cqSize : Nat
  cap : Nat
  /-- The producer index of the last doorbell observed (R261, R262). -/
  pIndex : Word16
  /-- Descriptors read so far (R261): the consumer position is `fetched mod cap`. -/
  fetched : Nat
  /-- Completions written so far (R263, R265). -/
  produced : Nat
  /-- `Tx` only: descriptors covered by a completion so far (R270). -/
  reported : Nat
  /-- Completions of this ring that the block has consumed, as last noted (R266; notes/assumptions/40.md). -/
  consumed : Nat
  /-- `Notify` only: new events written so far, and the newest id (R271). -/
  events : Nat
  lastId : Word16
  /-- `Admin` only: the commands up to this number have had their creation of a queue, or are past it
  (notes/assumptions/19.md). -/
  created : Nat
deriving DecidableEq, Repr

/-- What a queue-creation command can tell the device of a unit's ring (spec/43_adminq.md R200; notes/assumptions/19.md). -/
inductive Offer where
  /-- No ring stands that it could tell of. -/
  | nothing
  /-- This ring: it was created by Q.INIT, CQ.INIT and CQ.BIND, and the device has not been told of it (R265). -/
  | new (r : DevRing)
  /-- The device has been told of the ring that stands. -/
  | taken
deriving DecidableEq, Repr

/-- The command that creates a queue: the `i`-th unanswered device command, or the command that the device is executing on
the admin ring of unit `v` (R265, spec/70_reset_and_hazards.md R312). -/
inductive Creator where
  | device (i : Nat)
  | admin (v : Nat)
deriving DecidableEq, Repr

/-- A device command that the device was triggered to execute and has not answered (spec/46_device_contract.md R267). -/
structure DcCommand where
  /-- The command, once the device has read it from `DC_CMD`. -/
  cmd : Option (List Byte)
  /-- The offsets of `DC_COMP` it has not written yet in answer. -/
  compLeft : List Nat
  /-- It has created a queue (notes/assumptions/19.md). -/
  created : Bool
deriving DecidableEq, Repr

/-- What takes the run outside the spec (spec/93_implementation_defined.md U10, U18). -/
inductive Breach where
  | lateAnswer
  | notifyOverflow
deriving DecidableEq, Repr

/-- The device's own state (spec/10_state.md R47). -/
structure Device where
  rings : List DevRing
  /-- What can be told of each unit's ring, as of the last request. -/
  offers : List Offer
  /-- Commands triggered and not yet answered by the done bit, oldest first (R267, R47 (c)). -/
  cmds : List DcCommand
  /-- The device has set the done bit since the last write of `DC_DOORBELL` (R268). -/
  answered : Bool
  /-- The run has left the spec. -/
  breach : Option Breach
deriving DecidableEq, Repr

/-- How many device commands are triggered and not answered (R47 (c)). -/
def Device.pending (d : Device) : Nat := d.cmds.length

/-- One device step (spec/46_device_contract.md R260). A step the contract does not allow is not taken
(Sys2Proof/Machine/Device.lean). -/
inductive DevAct where
  /-- Executing the queue-creation command `c`, the device takes in the ring of unit `u` (R265, spec/43_adminq.md R200). -/
  | learn (c : Creator) (u : Nat)
  /-- It reads its next posted descriptor (R261). -/
  | fetch (u : Nat)
  /-- It writes a byte of its next completion slot, not the last (R263, R264). -/
  | compByte (u : Nat) (k : Nat) (b : Byte)
  /-- It writes the slot's last byte, which holds the colour (R264, R265). -/
  | compColor (u : Nat) (low : BitVec 7)
  /-- It reads `DC_CMD`, all of it, for its `i`-th unanswered command (R267). -/
  | dcCmd (i : Nat)
  /-- It writes byte `k` of `DC_COMP` in answer to that command (R267, R268). -/
  | dcComp (i : Nat) (k : Nat) (b : Byte)
  /-- It writes a byte of `DC_DATA` for that command (R267, R268). -/
  | dcData (i : Nat) (k : Nat) (b : Byte)
  /-- It sets bit 0 of `DC_DONE`: that command is answered (R267). -/
  | dcDone (i : Nat)
deriving DecidableEq, Repr

/-- What may happen between two accesses of one operation (spec/10_state.md R24, R28; spec/46_device_contract.md R260). -/
inductive EnvAct where
  | device (a : DevAct)
  | fwRunning (b : Bool)
  /-- A write of `REQ` while `BUSY = 1`: ignored (spec/10_state.md R24). -/
  | requestWhileBusy (w : Word32)
  /-- Bits 31:1 of `DC_DONE` take any value (spec/10_state.md R43, U5; notes/assumptions/37.md). -/
  | doneHighBits (v : BitVec 31)
deriving DecidableEq, Repr

/-- What the surroundings do before one atomic access, or in one tick; `pick` chooses the byte accessed next in an
access that is not atomic (spec/20_memory.md R70, R71; notes/assumptions/4.md). -/
structure Slot where
  acts : List EnvAct
  pick : Nat
deriving DecidableEq, Repr

/-- What the block does on its ports (spec/00_scope.md R6), as the model records it. -/
inductive PortEvent where
  | memRead (addr : Nat) (bytes : List Byte)
  | memWrite (addr : Nat) (bytes : List Byte)
  | regRead (addr : Nat) (bytes : List Byte)
  | regWrite (addr : Nat) (bytes : List Byte)
  | wmb
  | rmb
  | tick
  | bufAlloc (len : Nat) (answer : Option Handle)
  | bufRetire (h : Handle)
  | bufDeliver (h : Handle) (len : Word16) (ok : Bool)
  | bufRelease (h : Handle)
  | bufCancel (h : Handle)
  | notifyLinkChange
  | notifyReset
  /-- The requester wrote ring memory itself (spec/20_memory.md R72, R87). -/
  | requesterWrite (addr : Nat) (bytes : List Byte)
deriving DecidableEq, Repr

/-- Everything outside the block's own registers (spec/10_state.md R61): the shared store, the inputs, the device, the
schedule and the record of the ports. -/
structure Sys where
  mem : Memory
  reg : Memory
  /-- The input `fw_running` (spec/10_state.md R28). -/
  fwRunning : Bool
  dev : Device
  /-- The MODEL's own: the moves of the surroundings inside operations, next first (notes/assumptions/3.md). -/
  sched : List Slot
  /-- The MODEL's own: answers the buffer manager has ready, next first (notes/assumptions/10.md). -/
  bufAnswers : List (Option Handle)
  /-- The MODEL's own: free draws taken so far (notes/assumptions/10.md). -/
  draws : Nat
  /-- Port events, newest first (notes/assumptions/25.md). -/
  trace : List PortEvent
deriving DecidableEq, Repr

/-- What the outside does between operations (spec/10_state.md R21; notes/assumptions/1.md). -/
inductive HostEvent where
  /-- The requester writes argument register `A<i>` (R22). -/
  | setArg (i : Fin 4) (v : Word64)
  /-- It writes `CTX.cmd` (R25). -/
  | setCmd (c : List Byte)
  /-- It writes `REQ` (R21, R24). -/
  | request (w : Word32)
  /-- It writes ring memory (spec/20_memory.md R72, R83). -/
  | memWrite (addr : Addr) (bytes : List Byte)
  /-- It writes a byte of `DC_DATA` (R43). -/
  | dcData (k : Nat) (b : Byte)
  /-- The input `fw_running` changes (R28). -/
  | fwRunning (b : Bool)
  /-- The device's device-info region holds `b` at offset `k` (R44): fixed before the block's first access, stable after it
  (spec/46_device_contract.md R274). -/
  | deviceInfo (k : Fin diRegionBytes) (b : Byte)
  /-- The device takes a step. -/
  | device (a : DevAct)
  /-- The device is told of the ring of unit `u` by means outside the block, as the programs P1 and P3 of
  spec/95_test_vectors.md need it (notes/assumptions/19.md). -/
  | ringTold (u : Nat)
  /-- The NIC is reset by means outside the block (spec/70_reset_and_hazards.md R310, U18; notes/assumptions/42.md). -/
  | deviceReset
  /-- The buffer manager gets an answer ready for a later `BufAlloc` (R29). -/
  | bufAnswer (a : Option Handle)
  /-- The external reset input (spec/70_reset_and_hazards.md R310, R311). -/
  | resetInput
deriving DecidableEq, Repr

/-! ### The requester's book (spec/20_memory.md R87) -/

/-- A descriptor slot that the requester posts by hand: its unit, first address and size. -/
structure HandSlot where
  unit : UnitId
  base : Nat
  size : Nat
deriving DecidableEq, Repr

/-- The MODEL's own check of what a requester owes that posts by hand (spec/20_memory.md R87,
spec/70_reset_and_hazards.md R320; notes/assumptions/30.md). -/
structure Duties where
  /-- Ring-memory addresses the requester has written and no Q.DBELL has announced since. -/
  written : List Nat
  /-- Slots that Q.ADVHEAD posted and no Q.DBELL has announced yet. -/
  posted : List HandSlot
  /-- Slots whose Q.DBELL was requested before all their bytes were written. -/
  broken : List HandSlot
deriving DecidableEq, Repr

/-! ### The whole state -/

/-- The machine (spec/10_state.md). -/
structure State where
  /-- The configuration: fixed, never written (spec/10_state.md R27, R61; notes/assumptions/8.md). -/
  cfg : Config
  /-- `REQ` (R21). -/
  req : Word32
  /-- `BUSY` (R21, R24). -/
  busy : Bool
  /-- Argument registers (R22). -/
  a0 : Word64
  a1 : Word64
  a2 : Word64
  a3 : Word64
  /-- Result registers (R23). -/
  r0 : Byte
  r1 : Word64
  /-- Context buffers, `DC_CMD_BYTES` and `DC_COMP_BYTES` bytes (R25). -/
  ctxCmd : List Byte
  ctxComp : List Byte
  /-- The `NUNITS` units (R27, R30, R33, R36, R37). -/
  units : List QcqUnit
  /-- `DC.state` (R40) and `DC.gate` (R41). -/
  dcState : DcState
  dcGate : Bool
  sys : Sys
  /-- The MODEL's own: what the outside does between operations, next first (notes/assumptions/1.md). -/
  inbox : List HostEvent
  /-- The MODEL's own: the requester's book. -/
  duties : Duties
deriving DecidableEq, Repr

/-- Reasons the machine stops. -/
inductive Fault where
  /-- Raised by NQ.POLL, TX.POLL, RX.POLL and QCQ.FLUSH when a loop outlives the bound that spec/44_notifyq.md R221,
  spec/45_txrx.md R253 and spec/60_exceptions.md R297 give it. Safe: it stops where the block would loop on; it cannot
  happen from a state that meets the ring invariants of spec/10_state.md R31 and R34 (notes/assumptions/16.md). -/
  | drainUnending
  /-- Raised by step when the device has answered an older command after a newer doorbell, which the block cannot tell from
  the answer to the newer (U18). Safe: the run has gone wrong and goes no further (notes/assumptions/20.md). -/
  | lateAnswer
  /-- Raised by step when the device had an event for a notify ring full of unconsumed events (U10). Safe: the run has gone
  wrong and goes no further (notes/assumptions/40.md). -/
  | notifyOverflow
deriving DecidableEq, Repr

/-- The fault that a breach ends in. -/
def Breach.fault : Breach → Fault
  | .lateAnswer => .lateAnswer
  | .notifyOverflow => .notifyOverflow

/-- Reasons the model gives an operation no meaning. -/
inductive Refusal where
  /-- Only in an arm of exec that is not modelled yet. -/
  | notModelled (mnemonic : String)
  /-- Raised by step when the configuration breaks the layout rules (spec/20_memory.md R78 (d), U12). Safe. -/
  | badConfig
  /-- Raised by an operation that is about to access a ring that does not fit into the address space
  (spec/20_memory.md R80, U12). Safe. -/
  | ringOutsideAddressSpace
deriving DecidableEq, Repr

/-! ### Reset -/

/-- A Queue after reset (spec/10_state.md R60). -/
def Queue.reset : Queue := { valid := false, capacity := 0, descSize := 0, sgDescSize := 0, head := 0, tail := 0 }

/-- A completion ring after reset (spec/10_state.md R60). -/
def CompRing.reset (cfg : Config) : CompRing :=
  { valid := false, bound := false, descSize := 0, tail := 0, doneColor := cfg.initDoneColor }

/-- A unit after reset: the side table has no valid entry (spec/10_state.md R60; handles: notes/assumptions/7.md). -/
def QcqUnit.initial (cfg : Config) (c : UnitConfig) : QcqUnit :=
  { conf := c, q := Queue.reset, cq := CompRing.reset cfg, lastSeenId := cfg.nqInitLastId, side := [] }

/-- The device has been told of no ring (notes/assumptions/26.md). -/
def DevRing.untold : DevRing :=
  { told := false, role := .admin, qid := 0, ringSel := 0, mailbox := 0, qBase := 0, qSize := 0, cqBase := 0,
    cqSize := 0, cap := 0, pIndex := 0, fetched := 0, produced := 0, reported := 0, consumed := 0, events := 0
    lastId := 0, created := 0 }

/-- A device that knows no ring and executes nothing (notes/assumptions/26.md). -/
def Device.initial (nunits : Nat) : Device :=
  { rings := List.replicate nunits DevRing.untold, offers := List.replicate nunits .nothing, cmds := []
    answered := false, breach := none }

/-- Nothing posted by hand. -/
def Duties.initial : Duties := { written := [], posted := [], broken := [] }

/-- The surroundings at power-on: nothing listed in memory (notes/assumptions/6.md), nothing scheduled. -/
def Sys.initial (nunits : Nat) : Sys :=
  { mem := [], reg := [], fwRunning := true, dev := Device.initial nunits
    sched := [], bufAnswers := [], draws := 0, trace := [] }

/-- The machine at power-on, for a configuration (spec/10_state.md R60; DESIGN CHOICE where R60 says 'unspecified':
notes/assumptions/5.md, 6.md, 7.md, 23.md, 26.md). -/
def State.powerOn (cfg : Config) (units : List UnitConfig) : State :=
  { cfg := cfg, req := 0, busy := false, a0 := 0, a1 := 0, a2 := 0, a3 := 0, r0 := 0, r1 := 0
    ctxCmd := List.replicate cfg.dcCmdBytes 0, ctxComp := List.replicate cfg.dcCompBytes 0
    units := units.map (QcqUnit.initial cfg)
    dcState := .idle, dcGate := false
    sys := Sys.initial units.length, inbox := [], duties := Duties.initial }

/-- The machine right after reset (spec/10_state.md R60), for the configuration of spec/95_test_vectors.md section 0
(notes/assumptions/8.md). -/
def State.reset : State := State.powerOn Config.default UnitConfig.defaults

end Sys2Proof.Machine
end

