-- ==== Sys2Proof/Machine/Bytes.lean ====
section
/-! DEFINITION. Little-endian bytes and the fields of slots (spec/00_scope.md R9, spec/20_memory.md R77). -/

namespace Sys2Proof.Machine

/-- The unsigned integer whose byte `k` is the `k`-th of `bs` (R77). -/
def leNat : List Byte → Nat
  | [] => 0
  | b :: bs => b.toNat + 256 * leNat bs

/-- The low `n` bytes of `v`, lowest first (R77). -/
def leBytes : Nat → Nat → List Byte
  | 0, _ => []
  | n + 1, v => BitVec.ofNat 8 v :: leBytes n (v / 256)

/-- The `w`-bit field in the `n` bytes from offset `off` of a slot (R9). Bytes past the slot read as 0. -/
def fieldAt (w : Nat) (bs : List Byte) (off n : Nat) : BitVec w :=
  BitVec.ofNat w (leNat ((bs.drop off).take n))

/-- `bs` with the bytes `f` at offset `off`; a byte past the slot is dropped. -/
def placeAt (bs : List Byte) (off : Nat) : List Byte → List Byte
  | [] => bs
  | b :: f => placeAt (bs.set off b) (off + 1) f

/-- The first `n` bytes of a buffer. A byte past its end is 0. -/
def firstBytes (n : Nat) (bs : List Byte) : List Byte := (List.range n).map (fun k => bs.getD k 0)

/-- The four bytes `4k .. 4k+3` of a command union (spec/30_encoding.md R112). -/
def cmdWord (c : List Byte) (k : Nat) : List Byte := (List.range 4).map (fun j => c.getD (4 * k + j) 0)

/-- Byte 0 of a union: the opcode of a command (spec/30_encoding.md R112), the status of a completion (R113). -/
def byte0 (c : List Byte) : Byte := c.getD 0 0

/-- `align_up(x, p)` (spec/00_scope.md R8). -/
def alignUp (x p : Nat) : Nat := (x + p - 1) / p * p

/-- Two ranges of addresses, base and size, do not overlap. -/
def rangesApart (a b : Nat × Nat) : Bool := decide (a.1 + a.2 ≤ b.1) || decide (b.1 + b.2 ≤ a.1)

/-- `is_pow2(x)` (spec/00_scope.md R8). -/
def isPow2 (x : Nat) : Bool := decide (1 ≤ x) && (x &&& (x - 1)) == 0

/-- `a mod n` for `n > 0`: the least residue that is not negative, also when `a` is negative (spec/00_scope.md R8). -/
def modNat (a : Int) (n : Nat) : Nat := (a % (n : Int)).toNat

/-- `s16(v)` (spec/00_scope.md R8). -/
def s16 (v : Word16) : Int := v.toInt

end Sys2Proof.Machine
end

