-- ==== Sys2Proof/Machine/Store.lean ====
section
/-! DEFINITION. Sparse stores in one canonical form, and the two that the machine has: memory (spec/20_memory.md R70,
R71) and the side table (spec/10_state.md R36). -/

namespace Sys2Proof.Machine

variable {β : Type}

/-- What `m` holds at key `a`; `d` is what an unlisted key holds. -/
def storeGet (d : β) : List (Nat × β) → Nat → β
  | [], _ => d
  | (k, v) :: m, a => if a = k then v else storeGet d m a

/-- `m` with `v` at key `a`. Writing what an unlisted key holds removes the entry. -/
def storeSet [DecidableEq β] (d : β) : List (Nat × β) → Nat → β → List (Nat × β)
  | [], a, v => if v = d then [] else [(a, v)]
  | (k, w) :: m, a, v =>
    if a < k then (if v = d then (k, w) :: m else (a, v) :: (k, w) :: m)
    else if a = k then (if v = d then m else (a, v) :: m)
    else (k, w) :: storeSet d m a v

/-- `m` with every held value changed by `f`, entries that become what an unlisted key holds removed. -/
def storeMap [DecidableEq β] (d : β) (f : Nat → β → β) (m : List (Nat × β)) : List (Nat × β) :=
  (m.map (fun c => (c.1, f c.1 c.2))).filter (fun c => c.2 ≠ d)

/-- The canonical form: keys strictly rising, no entry equal to what an unlisted key holds. -/
def storeWf [DecidableEq β] (d : β) (m : List (Nat × β)) : Bool :=
  decide (m.Pairwise (fun x y => x.1 < y.1)) && m.all (fun c => c.2 ≠ d)

/-- What an unlisted address reads as. DESIGN CHOICE (notes/assumptions/6.md): the spec leaves the contents of ring
memory and of the device registers after reset unspecified (spec/10_state.md R60, U7). -/
def Memory.unlisted : Byte := 0

/-- One byte of memory. -/
def Memory.get (m : Memory) (a : Nat) : Byte := storeGet Memory.unlisted m a

/-- Memory with one byte written. -/
def Memory.set (m : Memory) (a : Nat) (b : Byte) : Memory := storeSet Memory.unlisted m a b

/-- Memory is in its canonical form. -/
def Memory.wf (m : Memory) : Bool := storeWf Memory.unlisted m

/-- The `n` bytes from `a`, lowest address first (spec/20_memory.md R70, R77). -/
def Memory.read (m : Memory) (a : Nat) : Nat → List Byte
  | 0 => []
  | n + 1 => m.get a :: Memory.read m (a + 1) n

/-- Memory with the bytes `bs` written from `a` on (spec/20_memory.md R71, R77). -/
def Memory.write (m : Memory) (a : Nat) : List Byte → Memory
  | [] => m
  | b :: bs => Memory.write (m.set a b) (a + 1) bs

/-- What an unlisted side-table slot holds: not valid; its handle is unspecified until it is first written
(spec/10_state.md R60; DESIGN CHOICE, notes/assumptions/7.md). -/
def SideTable.unlisted : SideEntry := ⟨false, 0⟩

/-- `SIDE[u][i]`. -/
def SideTable.get (t : SideTable) (i : Nat) : SideEntry := storeGet SideTable.unlisted t i

/-- `SIDE[u][i] <- e`. -/
def SideTable.set (t : SideTable) (i : Nat) (e : SideEntry) : SideTable := storeSet SideTable.unlisted t i e

/-- `SIDE[u][i].valid <- 0`; the handle stays. -/
def SideTable.invalidate (t : SideTable) (i : Nat) : SideTable := t.set i { t.get i with valid := false }

/-- `for i in 0 .. C-1: SIDE[u][i].valid <- 0` (spec/40_queue.md R141). -/
def SideTable.invalidateBelow (t : SideTable) (C : Nat) : SideTable :=
  storeMap SideTable.unlisted (fun i e => if i < C then { e with valid := false } else e) t

/-- `for every i: SIDE[u][i].valid <- 0` (spec/70_reset_and_hazards.md R311). -/
def SideTable.invalidateAll (t : SideTable) : SideTable :=
  storeMap SideTable.unlisted (fun _ e => { e with valid := false }) t

/-- Some entry is valid (spec/41_completion_ring.md R168). -/
def SideTable.anyValid (t : SideTable) : Bool := t.any (fun c => c.2.valid)

/-- The side table is in its canonical form. -/
def SideTable.wf (t : SideTable) : Bool := storeWf SideTable.unlisted t

end Sys2Proof.Machine
end

