-- ==== Sys2Proof/Machine/Device.lean ====
section
/-! DEFINITION. The device agent (spec/46_device_contract.md): its steps, what the contract allows of them, and what it
observes of the block's register writes. A step the contract does not allow is not taken (U9). -/

namespace Sys2Proof.Machine

/-! ### Register-space addresses (spec/10_state.md R43, R44) -/

/-- Addresses of the device-command registers: `DC_BASE` + offset. -/
def dcDoorbellAddr (cfg : Config) : Nat := cfg.dcBase.toNat + cfg.dcOffDoorbell
def dcDoneAddr (cfg : Config) : Nat := cfg.dcBase.toNat + cfg.dcOffDone
def dcCmdAddr (cfg : Config) : Nat := cfg.dcBase.toNat + cfg.dcOffCmd
def dcCompAddr (cfg : Config) : Nat := cfg.dcBase.toNat + cfg.dcOffComp
def dcDataAddr (cfg : Config) : Nat := cfg.dcBase.toNat + cfg.dcOffData

/-- Bit 0 of `DC_DONE` (spec/30_encoding.md R111). -/
def Sys.doneBit (cfg : Config) (y : Sys) : Bool := (y.reg.get (dcDoneAddr cfg)).getLsbD 0

/-! ### One ring, as the device sees it -/

/-- The device may read its next descriptor: a doorbell has told it of a slot it has not read (R261;
notes/assumptions/39.md). -/
def DevRing.canFetch (r : DevRing) : Bool := r.told && r.fetched % r.cap != r.pIndex.toNat

/-- Address of the slot its next completion goes to: slots in order, none skipped (R263). -/
def DevRing.compSlot (r : DevRing) : Nat := r.cqBase.toNat + (r.produced % r.cap) * r.cqSize

/-- The colour of its next completion (R265). -/
def DevRing.color (cfg : Config) (r : DevRing) : Bool := Bool.xor cfg.initDoneColor (r.produced / r.cap % 2 == 1)

/-- Every slot of the notify ring holds an event the block has not consumed (R266; notes/assumptions/40.md). -/
def DevRing.full (r : DevRing) : Bool := r.role == .notify && decide (r.consumed + r.cap ≤ r.produced)

/-- The device may be writing a completion: one for each descriptor it has read (R269, R271), for `Tx` at most one for
each (R270), for `Notify` while a slot is free (R266). -/
def DevRing.mayProduce (r : DevRing) : Bool :=
  r.told &&
  match r.role with
  | .admin => decide (r.produced < r.fetched)
  | .rx => decide (r.produced < r.fetched)
  | .tx => decide (r.reported < r.fetched)
  | .notify => !r.full

/-- The device has an event for a ring that is full (U10). -/
def DevRing.overflows (r : DevRing) : Bool := r.told && r.full

/-- How many descriptors the TX completion index `ci` covers, past those already reported (R270). -/
def DevRing.txCovers (r : DevRing) (ci : Nat) : Nat := modNat ((ci : Int) - (r.reported : Int)) r.cap + 1

/-- `id` is new: 1 to 32767 past the newest id written (R271). -/
def DevRing.newId (r : DevRing) (id : Word16) : Bool := decide (0 < s16 (id - r.lastId))

/-- The id of an event record (spec/30_encoding.md R125). -/
def recordId (cfg : Config) (c : List Byte) : Word16 := fieldAt 16 c cfg.event.idOff 2

/-- What the content of a completion must satisfy: the TX index names a descriptor in flight (R270); the RX length is at
most the descriptor's (R271); the first new event has id 1 (R271; a record whose id is not new is a repeat:
notes/assumptions/18.md). `c` is the completion, `d` the descriptor it answers. -/
def DevRing.contentOk (cfg : Config) (r : DevRing) (c d : List Byte) : Bool :=
  match r.role with
  | .admin => true
  | .notify => !r.newId (recordId cfg c) || r.events != 0 || recordId cfg c == 1
  | .tx =>
    let ci := (fieldAt 16 c cfg.txComp.indexOff 2).toNat
    decide (ci < r.cap) && decide (r.reported + r.txCovers ci ≤ r.fetched)
  | .rx =>
    decide ((fieldAt 16 c cfg.rxComp.lenOff 2).toNat ≤ (fieldAt 16 d cfg.rxDesc.lenOff 2).toNat)

/-- The ring after the completion `c`. -/
def DevRing.advance (cfg : Config) (r : DevRing) (c : List Byte) : DevRing :=
  match r.role with
  | .tx =>
    { r with produced := r.produced + 1, reported := r.reported + r.txCovers (fieldAt 16 c cfg.txComp.indexOff 2).toNat }
  | .admin => { r with produced := r.produced + 1 }
  | .rx => { r with produced := r.produced + 1 }
  | .notify =>
    if r.newId (recordId cfg c) then
      { r with produced := r.produced + 1, events := r.events + 1, lastId := recordId cfg c }
    else { r with produced := r.produced + 1 }

/-! ### Steps -/

/-- The system with the device's view of ring `u` replaced. -/
def Sys.setRing (y : Sys) (u : Nat) (r : DevRing) : Sys :=
  { y with dev := { y.dev with rings := y.dev.rings.set u r } }

/-- The run leaves the spec. The first breach is the one that is kept. -/
def Device.breaks (d : Device) (b : Breach) : Device := { d with breach := some (d.breach.getD b) }
def Sys.breaks (y : Sys) (b : Breach) : Sys := { y with dev := y.dev.breaks b }

/-- The device takes in the ring of unit `u` that it has not been told of, with all counts at 0 (R265): once for each time
the ring is created. -/
def Sys.tell (y : Sys) (u : Nat) : Sys :=
  match y.dev.offers[u]? with
  | some (.new r) => { y with dev := { y.dev with rings := y.dev.rings.set u r, offers := y.dev.offers.set u .taken } }
  | some .nothing => y
  | some .taken => y
  | none => y

/-- The device after the NIC has been reset by means outside the block (spec/70_reset_and_hazards.md R310, U18): it knows no
ring and executes nothing. A ring of which it had been told is not on offer again before its unit has been down (R265);
`offers` and `breach` are the model's own and stay (DESIGN CHOICE, notes/assumptions/42.md). -/
def Device.nicReset (d : Device) : Device :=
  { d with rings := d.rings.map (fun _ => DevRing.untold), cmds := [], answered := false }

/-- The device is executing an admin command that has not created a queue (R269: they are executed in ring order). -/
def DevRing.mayCreate (r : DevRing) : Bool :=
  r.told && r.role == .admin && decide (r.produced < r.fetched) && decide (r.created ≤ r.produced)

/-- Executing a command that creates a queue, the device takes in the ring the command describes: each command creates at
most one, a device command after the device has read it (R265, R267, spec/43_adminq.md R200; notes/assumptions/19.md). -/
def Sys.devLearn (y : Sys) (c : Creator) (u : Nat) : Sys :=
  match c with
  | .device i =>
    match y.dev.cmds[i]? with
    | none => y
    | some d =>
      if d.cmd.isSome && !d.created then
        Sys.tell { y with dev := { y.dev with cmds := y.dev.cmds.set i { d with created := true } } } u
      else y
  | .admin v =>
    match y.dev.rings[v]? with
    | none => y
    | some r => if r.mayCreate then (y.setRing v { r with created := r.produced + 1 }).tell u else y

/-- The device reads its next posted descriptor, in ring order (R261). -/
def Sys.devFetch (y : Sys) (u : Nat) : Sys :=
  match y.dev.rings[u]? with
  | none => y
  | some r => if r.canFetch then y.setRing u { r with fetched := r.fetched + 1 } else y

/-- The device writes byte `k` of its next completion slot, before the colour byte (R264). -/
def Sys.devCompByte (y : Sys) (u k : Nat) (b : Byte) : Sys :=
  match y.dev.rings[u]? with
  | none => y
  | some r =>
    if r.overflows then y.breaks .notifyOverflow
    else if r.mayProduce && decide (k + 1 < r.cqSize) then { y with mem := y.mem.set (r.compSlot + k) b } else y

/-- The colour byte: bit 7 is the colour, the other bits are ignored by the block (spec/30_encoding.md R116). -/
def colorByte (color : Bool) (low : BitVec 7) : Byte := BitVec.ofBool color ++ low

/-- The device writes the last byte of the slot, which holds the colour (R264, R265), and goes on to the next slot. -/
def Sys.devCompColor (cfg : Config) (y : Sys) (u : Nat) (low : BitVec 7) : Sys :=
  match y.dev.rings[u]? with
  | none => y
  | some r =>
    let mem := y.mem.set (r.compSlot + (r.cqSize - 1)) (colorByte (r.color cfg) low)
    let c := mem.read r.compSlot r.cqSize
    let d := mem.read (r.qBase.toNat + (r.produced % r.cap) * r.qSize) r.qSize
    if r.overflows then y.breaks .notifyOverflow
    else if r.mayProduce && decide (1 ≤ r.cqSize) && r.contentOk cfg c d then
      { y with mem := mem }.setRing u (r.advance cfg c)
    else y

/-- The device reads `DC_CMD`, all of it, for its `i`-th unanswered command (R267). -/
def Sys.devDcCmd (cfg : Config) (y : Sys) (i : Nat) : Sys :=
  match y.dev.cmds[i]? with
  | none => y
  | some c =>
    let c1 : DcCommand := { c with cmd := some (y.reg.read (dcCmdAddr cfg) cfg.dcCmdBytes) }
    if c.cmd.isNone then { y with dev := { y.dev with cmds := y.dev.cmds.set i c1 } } else y

/-- The device may write `DC_COMP` and `DC_DATA` for the command `c`: it has read it (R267), the done bit is 0, and the
device has not set it since the last doorbell (R268). -/
def Sys.mayAnswer (cfg : Config) (y : Sys) (c : DcCommand) : Bool :=
  c.cmd.isSome && !y.dev.answered && !y.doneBit cfg

/-- The device writes byte `k` of `DC_COMP` in answer to its `i`-th command (R267). -/
def Sys.devDcComp (cfg : Config) (y : Sys) (i k : Nat) (b : Byte) : Sys :=
  match y.dev.cmds[i]? with
  | none => y
  | some c =>
    if y.mayAnswer cfg c && decide (k < cfg.dcCompBytes) then
      { y with
        reg := y.reg.set (dcCompAddr cfg + k) b
        dev := { y.dev with cmds := y.dev.cmds.set i { c with compLeft := c.compLeft.erase k } } }
    else y

/-- The device writes byte `k` of `DC_DATA` for its `i`-th command (R267). -/
def Sys.devDcData (cfg : Config) (y : Sys) (i k : Nat) (b : Byte) : Sys :=
  match y.dev.cmds[i]? with
  | none => y
  | some c =>
    if y.mayAnswer cfg c && decide (k < cfg.dcDataBytes) then { y with reg := y.reg.set (dcDataAddr cfg + k) b } else y

/-- The device with its `i`-th command answered. An answer to an older command after a newer doorbell leaves the spec
(U18). -/
def Device.answer (d : Device) (i : Nat) : Device :=
  let d1 : Device := { d with cmds := d.cmds.eraseIdx i, answered := true }
  if i + 1 < d.cmds.length then d1.breaks .lateAnswer else d1

/-- The device sets the done bit, which it never clears: once for each doorbell, after it has read the command and written
all of `DC_COMP` (R267); for a command the block has given up, at any later moment (R268). -/
def Sys.devDcDone (cfg : Config) (y : Sys) (i : Nat) : Sys :=
  match y.dev.cmds[i]? with
  | none => y
  | some c =>
    if c.cmd.isSome && c.compLeft.isEmpty then
      { y with reg := y.reg.set (dcDoneAddr cfg) (y.reg.get (dcDoneAddr cfg) ||| 1), dev := y.dev.answer i }
    else y

/-- One device step (R260). -/
def Sys.devAct (cfg : Config) (y : Sys) : DevAct → Sys
  | .learn c u => y.devLearn c u
  | .fetch u => y.devFetch u
  | .compByte u k b => y.devCompByte u k b
  | .compColor u low => y.devCompColor cfg u low
  | .dcCmd i => y.devDcCmd cfg i
  | .dcComp i k b => y.devDcComp cfg i k b
  | .dcData i k b => y.devDcData cfg i k b
  | .dcDone i => y.devDcDone cfg i

/-- `DC_DONE` with `v` in bits 31:1 and bit 0 as it is (spec/10_state.md R43, U5; DESIGN CHOICE, notes/assumptions/37.md). -/
def Sys.setDoneHighBits (cfg : Config) (y : Sys) (v : BitVec 31) : Sys :=
  { y with reg := y.reg.write (dcDoneAddr cfg) (leBytes 4 (v ++ BitVec.ofBool (y.doneBit cfg)).toNat) }

/-- One thing that happens between two accesses of an operation. A `REQ` write while the block is busy is ignored
(spec/10_state.md R24). -/
def Sys.envAct (cfg : Config) (y : Sys) : EnvAct → Sys
  | .device a => y.devAct cfg a
  | .fwRunning b => { y with fwRunning := b }
  | .requestWhileBusy _ => y
  | .doneHighBits v => y.setDoneHighBits cfg v

/-- The surroundings take their turn: the next slot of the schedule is used up and its moves are made. The answer is
the slot's `pick`. With nothing scheduled nobody moves (R272: the device may do nothing; notes/assumptions/3.md). -/
def Sys.turn (cfg : Config) (y : Sys) : Nat × Sys :=
  match y.sched with
  | [] => (0, y)
  | sl :: rest => (sl.pick, sl.acts.foldl (fun z a => z.envAct cfg a) { y with sched := rest })

/-! ### Observation of register writes -/

/-- The `w`-bit field of a doorbell value at bit `shift` (spec/30_encoding.md R110). -/
def doorbellField (v w shift : Nat) : Nat := v / 2 ^ shift % 2 ^ w

/-- The device observes a doorbell value on a mailbox (R261, R262): every ring it was told about with that mailbox, queue
id and ring selector learns the producer index; for any other the write means nothing (U4). A producer index behind the
device's consumer position, which R262 and U4 leave outside the contract, is taken as an advance round the ring (DESIGN
CHOICE, notes/assumptions/39.md). -/
def DevRing.observe (cfg : Config) (addr : Nat) (v : Nat) (r : DevRing) : DevRing :=
  if r.told && r.mailbox.toNat == addr && doorbellField v cfg.dbQidW cfg.dbQidShift == r.qid.toNat
      && doorbellField v cfg.dbRingW cfg.dbRingShift == r.ringSel.toNat
  then { r with pIndex := BitVec.ofNat 16 (doorbellField v cfg.dbIndexW cfg.dbIndexShift) } else r

/-- The device is triggered: one more command to execute (R267). `done` is the done bit at that moment: when it is 1 an
older command was answered after the block had cleared it, and the block would take that answer for the new one's
(U18). -/
def Device.trigger (cfg : Config) (done : Bool) (d : Device) : Device :=
  let d1 : Device :=
    { d with cmds := d.cmds ++ [{ cmd := none, compLeft := List.range cfg.dcCompBytes, created := false }], answered := false }
  if done then d1.breaks .lateAnswer else d1

/-- The device observes a register write of the block: a 1 to `DC_DOORBELL` triggers a command (R267; spec/20_memory.md
R85), an 8-byte write may be a doorbell. -/
def Device.observe (cfg : Config) (done : Bool) (addr : Nat) (bs : List Byte) (d : Device) : Device :=
  if addr == dcDoorbellAddr cfg && bs == [1, 0, 0, 0] then d.trigger cfg done
  else if bs.length == 8 then { d with rings := d.rings.map (DevRing.observe cfg addr (leNat bs)) }
  else d

end Sys2Proof.Machine
end

