-- ==== Sys2Proof/Machine/Ops.lean ====
section
/-! DEFINITION. The named operations: how an operation ends (spec/60_exceptions.md R280, R283), and the primitives of
spec/00_scope.md R10 on the ports MEM, REG, TICK, BUF and EVT (spec/20_memory.md R70 to R76). -/

namespace Sys2Proof.Machine

/-- What an operation answers. -/
abbrev Result := Host.Outcome State Fault Refusal

/-! ### Result codes -/

/-- The result codes (spec/60_exceptions.md R280). -/
inductive ResultCode where
  | ok
  | invalidArgument
  | noSpace
  | timedOut
  | ioError
  | deviceRejected
  | firmwareDown
  | badSignature
  | badState
  | illegalRequest
  | badCompletion
deriving DecidableEq, Repr

/-- The byte written to `R0` (spec/60_exceptions.md R280). -/
def codeByte : ResultCode → Byte
  | .ok => 0
  | .invalidArgument => 1
  | .noSpace => 2
  | .timedOut => 3
  | .ioError => 4
  | .deviceRejected => 5
  | .firmwareDown => 6
  | .badSignature => 7
  | .badState => 8
  | .illegalRequest => 9
  | .badCompletion => 10

/-- The state after an operation has ended with code `X` and value `info`: `R0`, `R1` and `BUSY` are written and nothing
else (spec/10_state.md R21, R23; spec/60_exceptions.md R283). -/
def State.finish (s : State) (X : ResultCode) (info : Word64) : State :=
  { s with r0 := codeByte X, r1 := info, busy := false }

/-- `raise X(info)`: the block's failure sequence, its only exception entry (spec/60_exceptions.md R283). There is no
return from it (R288). -/
def State.raise (s : State) (X : ResultCode) (info : Word64) : Result := .next (s.finish X info)

/-- `done(v)` (spec/00_scope.md R10). -/
def State.done (s : State) (v : Word64) : Result := .next (s.finish .ok v)

/-- The illegal request: `R1` = the request word, nothing else changes (spec/60_exceptions.md R287). -/
def State.illegal (s : State) : Result := s.raise .illegalRequest (s.req.zeroExtend 64)

/-- A state precondition: `BadState` with `R1 = 0` when it is false (spec/60_exceptions.md R286). -/
def State.require (s : State) (p : Bool) (k : Result) : Result := if p then k else s.raise .badState 0

/-! ### Ports -/

/-- A port event is recorded (spec/10_state.md R29; spec/20_memory.md R87). -/
def Sys.record (y : Sys) (e : PortEvent) : Sys := { y with trace := e :: y.trace }

/-- `wmb()` (spec/20_memory.md R74, R87). -/
def Sys.wmb (y : Sys) : Sys := y.record .wmb

/-- `rmb()` (spec/20_memory.md R75, R87). -/
def Sys.rmb (y : Sys) : Sys := y.record .rmb

/-- `tick()`: the surroundings take their turn (spec/60_exceptions.md R296). -/
def Sys.tick (cfg : Config) (y : Sys) : Sys := (y.turn cfg).2.record .tick

/-- One single-copy-atomic access (spec/20_memory.md R70, R84): naturally aligned and of 1, 2, 4 or 8 bytes. -/
def atomicAccess (addr n : Nat) : Bool := (n == 1 || n == 2 || n == 4 || n == 8) && addr % n == 0

/-- The byte reads of an access that is not atomic (spec/20_memory.md R70): before each one the surroundings take their
turn and pick which of the offsets `rem` still to read comes next. `acc` is what has been read. -/
def Sys.readBytes (cfg : Config) (addr : Nat) : Nat → List Nat → List Byte → Sys → List Byte × Sys
  | 0, _, acc, y => (acc, y)
  | f + 1, rem, acc, y =>
    let t := y.turn cfg
    let i := t.1 % rem.length
    let k := rem.getD i 0
    Sys.readBytes cfg addr f (rem.eraseIdx i) (acc.set k (t.2.mem.get (addr + k))) t.2

/-- The byte writes of an access that is not atomic (spec/20_memory.md R71). -/
def Sys.writeBytes (cfg : Config) (addr : Nat) (bs : List Byte) : Nat → List Nat → Sys → Sys
  | 0, _, y => y
  | f + 1, rem, y =>
    let t := y.turn cfg
    let i := t.1 % rem.length
    let k := rem.getD i 0
    Sys.writeBytes cfg addr bs f (rem.eraseIdx i) { t.2 with mem := t.2.mem.set (addr + k) (bs.getD k 0) }

/-- `MemRead(addr, n)`: the bytes, lowest address first (spec/20_memory.md R70). -/
def Sys.memRead (cfg : Config) (addr n : Nat) (y : Sys) : List Byte × Sys :=
  if atomicAccess addr n then
    let y1 := (y.turn cfg).2
    (y1.mem.read addr n, y1.record (.memRead addr (y1.mem.read addr n)))
  else
    let r := y.readBytes cfg addr n (List.range n) (List.replicate n 0)
    (r.1, r.2.record (.memRead addr r.1))

/-- `MemWrite(addr, n, v)` with `v` given by its `n` bytes (spec/20_memory.md R71). -/
def Sys.memWrite (cfg : Config) (addr : Nat) (bs : List Byte) (y : Sys) : Sys :=
  if atomicAccess addr bs.length then
    let y1 := (y.turn cfg).2
    { y1 with mem := y1.mem.write addr bs }.record (.memWrite addr bs)
  else
    (y.writeBytes cfg addr bs bs.length (List.range bs.length)).record (.memWrite addr bs)

/-- `RegRead(addr, n)`: one ordered access (spec/20_memory.md R73). -/
def Sys.regRead (cfg : Config) (addr n : Nat) (y : Sys) : List Byte × Sys :=
  let y1 := (y.turn cfg).2
  (y1.reg.read addr n, y1.record (.regRead addr (y1.reg.read addr n)))

/-- `RegWrite(addr, n, v)` with `v` given by its bytes: one ordered access, which has reached the device before the next
access (spec/20_memory.md R73). The store keeps the written bytes, also those of a write-only register, whose read the spec
leaves open (spec/10_state.md R43, R45, U4; DESIGN CHOICE, notes/assumptions/44.md). -/
def Sys.regWrite (cfg : Config) (addr : Nat) (bs : List Byte) (y : Sys) : Sys :=
  let y1 := (y.turn cfg).2
  { y1 with reg := y1.reg.write addr bs, dev := y1.dev.observe cfg (y1.doneBit cfg) addr bs }.record (.regWrite addr bs)

/-- `BufAlloc(len)`: the buffer manager's next answer, or a free value when none is ready (spec/10_state.md R29, U16;
notes/assumptions/10.md). -/
def Sys.bufAlloc (len : Nat) (y : Sys) : Option Handle × Sys :=
  match y.bufAnswers with
  | a :: rest => (a, { y with bufAnswers := rest }.record (.bufAlloc len a))
  | [] =>
    (Config.bufAnswer y.draws len,
      { y with draws := y.draws + 1 }.record (.bufAlloc len (Config.bufAnswer y.draws len)))

/-- `BufRetire(h)`, `BufDeliver(h, len, ok)`, `BufRelease(h)`, `BufCancel(h)` (spec/10_state.md R29). -/
def Sys.bufRetire (h : Handle) (y : Sys) : Sys := y.record (.bufRetire h)
def Sys.bufDeliver (h : Handle) (len : Word16) (ok : Bool) (y : Sys) : Sys := y.record (.bufDeliver h len ok)
def Sys.bufRelease (h : Handle) (y : Sys) : Sys := y.record (.bufRelease h)
def Sys.bufCancel (h : Handle) (y : Sys) : Sys := y.record (.bufCancel h)

/-- The EVT pulses (spec/44_notifyq.md R219). -/
def Sys.notifyLinkChange (y : Sys) : Sys := y.record .notifyLinkChange
def Sys.notifyReset (y : Sys) : Sys := y.record .notifyReset

end Sys2Proof.Machine
end

