-- ==== Sys2Proof/Syntax.lean ====
section
/-! DEFINITION. The operations of the block, one constructor per row of spec/opcode_table.json
(spec/30_encoding.md R103). A constructor carries the fields its format reads (R102). -/

namespace Sys2Proof

inductive Instr where
  /-- Q.INIT `u` (spec/40_queue.md R141). -/
  | qInit (u : UnitId)
  /-- Q.SPACE `u` (R142). -/
  | qSpace (u : UnitId)
  /-- Q.HASSPACE `u`, `#n` (R143). -/
  | qHasSpace (u : UnitId) (n : Word16)
  /-- Q.ADVHEAD `u` (R144). -/
  | qAdvHead (u : UnitId)
  /-- Q.ADVTAIL `u` (R145). -/
  | qAdvTail (u : UnitId)
  /-- Q.DBELL `u` (R150). -/
  | qDbell (u : UnitId)
  /-- CQ.INIT `u` (spec/41_completion_ring.md R161). -/
  | cqInit (u : UnitId)
  /-- CQ.BIND `u` (R162). -/
  | cqBind (u : UnitId)
  /-- CQ.PEND `u` (R163). -/
  | cqPend (u : UnitId)
  /-- CQ.NEXT `u` (R167). -/
  | cqNext (u : UnitId)
  /-- QCQ.DOWN `u` (R168). -/
  | qcqDown (u : UnitId)
  /-- DC.POST (spec/42_devcmd.md R181). -/
  | dcPost
  /-- DC.WAIT `#max_seconds` (R183). -/
  | dcWait (maxSeconds : Word16)
  /-- DC.STATUS (R185). -/
  | dcStatus
  /-- DC.GO `#max_seconds` (R187). -/
  | dcGo (maxSeconds : Word16)
  /-- DI.CHECK (R189). -/
  | diCheck
  /-- AQ.POSTWAIT `u` (spec/43_adminq.md R201). -/
  | aqPostWait (u : UnitId)
  /-- NQ.POLL `u`, `#process`: only bit 0 of the immediate exists (spec/44_notifyq.md R216, spec/30_encoding.md R104). -/
  | nqPoll (u : UnitId) (process : Bool)
  /-- TX.XMIT `u` (spec/45_txrx.md R231). -/
  | txXmit (u : UnitId)
  /-- TX.POLL `u` (R235). -/
  | txPoll (u : UnitId)
  /-- RX.FILL `u`, `#mtu` (R240). -/
  | rxFill (u : UnitId) (mtu : Word16)
  /-- RX.POLL `u` (R245). -/
  | rxPoll (u : UnitId)
  /-- QCQ.FLUSH `u` (R250). -/
  | qcqFlush (u : UnitId)
  /-- RESET (spec/70_reset_and_hazards.md R311). -/
  | reset
deriving DecidableEq, Repr

end Sys2Proof
end

