-- ==== Sys2Proof/WellFormed.lean ====
section
/-! DEFINITION. When an operation is well formed for a configured block: its unit exists and has the role the
operation is tied to (spec/30_encoding.md R105 (c), (d), R106). An operation that is not well formed is no stop of the
machine: it ends with IllegalRequest (spec/60_exceptions.md R287). -/

namespace Sys2Proof

/-- The unit an operation acts on, where its format reads one (spec/30_encoding.md R102). -/
def Instr.unit? : Instr → Option UnitId
  | .qInit u => some u
  | .qSpace u => some u
  | .qHasSpace u _ => some u
  | .qAdvHead u => some u
  | .qAdvTail u => some u
  | .qDbell u => some u
  | .cqInit u => some u
  | .cqBind u => some u
  | .cqPend u => some u
  | .cqNext u => some u
  | .qcqDown u => some u
  | .dcPost => none
  | .dcWait _ => none
  | .dcStatus => none
  | .dcGo _ => none
  | .diCheck => none
  | .aqPostWait u => some u
  | .nqPoll u _ => some u
  | .txXmit u => some u
  | .txPoll u => some u
  | .rxFill u _ => some u
  | .rxPoll u => some u
  | .qcqFlush u => some u
  | .reset => none

/-- The role ties (spec/30_encoding.md R106): may the operation act on a unit of role `r`? -/
def Instr.roleOk : Instr → Role → Bool
  | .aqPostWait _, r => r == .admin
  | .nqPoll _ _, r => r == .notify
  | .txXmit _, r => r == .tx
  | .txPoll _, r => r == .tx
  | .rxFill _ _, r => r == .rx
  | .rxPoll _, r => r == .rx
  | .qcqFlush _, r => r == .tx || r == .rx
  | .qInit _, _ => true
  | .qSpace _, _ => true
  | .qHasSpace _ _, _ => true
  | .qAdvHead _, _ => true
  | .qAdvTail _, _ => true
  | .qDbell _, _ => true
  | .cqInit _, _ => true
  | .cqBind _, _ => true
  | .cqPend _, _ => true
  | .cqNext _, _ => true
  | .qcqDown _, _ => true
  | .dcPost, _ => true
  | .dcWait _, _ => true
  | .dcStatus, _ => true
  | .dcGo _, _ => true
  | .diCheck, _ => true
  | .reset, _ => true

/-- Well formed for units of the given roles (spec/30_encoding.md R105 (c), (d)). -/
def Instr.wf (roles : List Role) (i : Instr) : Bool :=
  match i.unit? with
  | none => true
  | some u =>
    match roles[u.toNat]? with
    | none => false
    | some r => i.roleOk r

end Sys2Proof
end

