-- ==== Sys2Proof/Machine/Operands.lean ====
section
/-! DEFINITION. Operand forms: the unit and its role tie (spec/30_encoding.md R105, R106), argument-register fields
(R104), index arithmetic (spec/40_queue.md R153), slot addresses (spec/20_memory.md R80), the doorbell value
(spec/30_encoding.md R110), descriptors and completion fields (R121 to R125). -/

namespace Sys2Proof.Machine

/-! ### The unit -/

/-- `NUNITS` (spec/00_scope.md R7). -/
def State.numUnits (s : State) : Nat := s.units.length

/-- The roles of the units, for Instr.wf. -/
def State.roles (s : State) : List Role := s.units.map (fun un => un.conf.role)

/-- The second check of spec/60_exceptions.md R285: the unit exists and has the role the operation `i` is tied to
(spec/30_encoding.md R105 (c), (d), R106); otherwise the request is illegal. -/
def State.onUnit (s : State) (i : Instr) (u : UnitId) (k : QcqUnit → Result) : Result :=
  match s.units[u.toNat]? with
  | none => s.illegal
  | some un => if i.roleOk un.conf.role then k un else s.illegal

/-- The state with unit `u` replaced. -/
def State.setUnit (s : State) (u : UnitId) (un : QcqUnit) : State := { s with units := s.units.set u.toNat un }

/-- The state with its surroundings replaced. -/
def State.withSys (s : State) (y : Sys) : State := { s with sys := y }

/-! ### Argument registers (spec/30_encoding.md R104) -/

/-- `A[i][31:0]`. -/
def low32 (a : Word64) : Word32 := a.extractLsb' 0 32
/-- `A[i][15:0]`. -/
def low16 (a : Word64) : Word16 := a.extractLsb' 0 16
/-- `A[i][31:16]`. -/
def mid16 (a : Word64) : Word16 := a.extractLsb' 16 16

/-- Byte 0 of `CTX.cmd`, the opcode (spec/30_encoding.md R112). -/
def State.cmdOpcode (s : State) : Byte := byte0 s.ctxCmd

/-- `(opcode << 8) | status` (spec/60_exceptions.md R280). -/
def rejectInfo (opcode status : Byte) : Word64 := (opcode.zeroExtend 64 <<< 8) ||| status.zeroExtend 64

/-! ### Index arithmetic (spec/00_scope.md R11, spec/40_queue.md R153) -/

/-- The capacity of a unit's Queue, and of its bound completion ring (spec/41_completion_ring.md R162). -/
def QcqUnit.cap (un : QcqUnit) : Nat := un.q.capacity.toNat

/-- `next(i, C)`. -/
def nextIndex (i : Word16) (C : Nat) : Word16 := BitVec.ofNat 16 ((i.toNat + 1) % C)

/-- `in_flight(u)`. -/
def QcqUnit.inFlight (un : QcqUnit) : Nat := modNat ((un.q.head.toNat : Int) - (un.q.tail.toNat : Int)) un.cap

/-- `space(u)`. -/
def QcqUnit.space (un : QcqUnit) : Nat := un.cap - un.inFlight - 1

/-- Legal capacities (spec/40_queue.md R141): all 64 bits of `A0` are examined. -/
def legalCapacity (cfg : Config) (a : Word64) : Bool :=
  isPow2 a.toNat && decide (cfg.capMin ≤ a.toNat) && decide (a.toNat ≤ cfg.capMax)

/-- `Q[u].head <- next(Q[u].head, Q[u].capacity)`. -/
def QcqUnit.advHead (un : QcqUnit) : QcqUnit := { un with q := { un.q with head := nextIndex un.q.head un.cap } }

/-- `Q[u].tail <- next(Q[u].tail, Q[u].capacity)`. -/
def QcqUnit.advTail (un : QcqUnit) : QcqUnit := { un with q := { un.q with tail := nextIndex un.q.tail un.cap } }

/-! ### Slot addresses (spec/20_memory.md R80) -/

/-- `slot(base, i, size)`: exact, no wrap. -/
def slotAddr (base : Addr) (i size : Nat) : Nat := base.toNat + i * size

/-- Slot `i` of the descriptor ring. -/
def QcqUnit.qSlot (un : QcqUnit) (i : Word16) : Nat := slotAddr un.conf.qBase i.toNat un.q.descSize.toNat

/-- Slot `i` of the completion ring. -/
def QcqUnit.cqSlot (un : QcqUnit) (i : Word16) : Nat := slotAddr un.conf.cqBase i.toNat un.cq.descSize.toNat

/-- The colour byte of completion slot `i`: the slot's last byte. -/
def QcqUnit.colorAddr (un : QcqUnit) (i : Word16) : Nat := un.cqSlot i + un.cq.descSize.toNat - 1

/-- The descriptor ring, and the slot at `head`, end inside the address space (spec/20_memory.md R80). -/
def QcqUnit.qFits (cfg : Config) (un : QcqUnit) : Bool :=
  decide (un.conf.qBase.toNat + max un.cap (un.q.head.toNat + 1) * un.q.descSize.toNat ≤ 2 ^ cfg.addrW)

/-- The completion ring, and the slot at its tail, lie inside the address space (spec/20_memory.md R80). With a slot size
of 0 the colour byte is the byte below `cq_base` (notes/assumptions/13.md). -/
def QcqUnit.cqFits (cfg : Config) (un : QcqUnit) : Bool :=
  decide (un.conf.cqBase.toNat + max un.cap (un.cq.tail.toNat + 1) * un.cq.descSize.toNat ≤ 2 ^ cfg.addrW) &&
  decide (1 ≤ un.conf.cqBase.toNat + un.cq.descSize.toNat)

/-- A configuration whose ring leaves the address space has no meaning (spec/20_memory.md R80, U12;
notes/assumptions/14.md). -/
def requireRing (p : Bool) (k : Result) : Result := if p then k else .refused .ringOutsideAddressSpace

/-! ### The region of a unit (spec/20_memory.md R82) -/

/-- The completion ring starts where R82 puts it, in both address views: what the requester owes with the sizes it gives
Q.INIT and CQ.INIT (spec/70_reset_and_hazards.md R325). -/
def QcqUnit.laidOut (cfg : Config) (un : QcqUnit) : Bool :=
  un.conf.cqBase.toNat == un.conf.qBase.toNat + alignUp (un.cap * un.q.descSize.toNat) cfg.pageSize &&
  un.conf.cqBasePa.toNat == un.conf.qBasePa.toNat + alignUp (un.cap * un.q.descSize.toNat) cfg.pageSize

/-- The unit's region, first address and size: the descriptor ring and the completion ring, each in whole pages. -/
def QcqUnit.region (cfg : Config) (un : QcqUnit) : Nat × Nat :=
  (un.conf.qBase.toNat, alignUp (un.cap * un.q.descSize.toNat) cfg.pageSize +
    alignUp (un.cap * un.cq.descSize.toNat) cfg.pageSize)

/-- The unit's region meets no other unit's. -/
def QcqUnit.regionFree (cfg : Config) (units : List QcqUnit) (un : QcqUnit) : Bool :=
  units.all fun v => v.conf == un.conf || rangesApart (un.region cfg) (v.region cfg)

/-! ### What the device can know of a unit (spec/46_device_contract.md; notes/assumptions/19.md, 40.md) -/

/-- The pair is up: Q.INIT, CQ.INIT and CQ.BIND have created it. -/
def QcqUnit.stands (un : QcqUnit) : Bool := un.q.valid && un.cq.valid && un.cq.bound

/-- The ring as a queue-creation command describes it to the device: only a pair that is up, from which nothing has been
consumed, and that lies as R82 says. -/
def QcqUnit.offer (cfg : Config) (units : List QcqUnit) (un : QcqUnit) : Option DevRing :=
  if un.stands && un.cq.tail == 0 && un.cq.doneColor == cfg.initDoneColor && un.laidOut cfg && un.regionFree cfg units
      && un.qFits cfg && un.cqFits cfg then
    some { told := true, role := un.conf.role, qid := un.conf.qid, ringSel := un.conf.ringSel, mailbox := un.conf.dbAddr
           qBase := un.conf.qBase, qSize := un.q.descSize.toNat, cqBase := un.conf.cqBase, cqSize := un.cq.descSize.toNat
           cap := un.cap, pIndex := 0, fetched := 0, produced := 0, reported := 0, consumed := 0, events := 0, lastId := 0
           created := 0 }
  else none

/-- What can be told of the unit's ring from now on: a ring of which the device has been told can be told of again only
after the unit has been down (R265: QCQ.DOWN or RESET, then CQ.INIT). -/
def Offer.renew (cfg : Config) (units : List QcqUnit) (un : QcqUnit) (o : Offer) : Offer :=
  if un.stands then
    if o = .taken then .taken
    else
      match un.offer cfg units with
      | some r => .new r
      | none => .nothing
  else .nothing

/-- The device's view of a unit's ring ends when the ring is created anew: its counts start again with the creation command
(R265; notes/assumptions/19.md). Until then a device that was not stopped may go on (spec/70_reset_and_hazards.md R327). -/
def DevRing.renew (un : QcqUnit) (o : Offer) (r : DevRing) : DevRing :=
  if un.stands && o == .nothing then { r with told := false } else r

/-- Where the block stands in the completion ring, over two revolutions: the tail, and the revolution its colour shows
(spec/10_state.md R34 (c)). -/
def QcqUnit.consumerPos (cfg : Config) (un : QcqUnit) : Nat :=
  un.cq.tail.toNat + if un.cq.doneColor = cfg.initDoneColor then 0 else un.cap

/-- The ring with the consumptions of the block noted, if it is the ring of `un`. -/
def DevRing.note (cfg : Config) (un : QcqUnit) (r : DevRing) : DevRing :=
  if r.told && r.cqBase == un.conf.cqBase && un.cq.valid && un.cq.bound then
    { r with consumed := r.consumed + modNat ((un.consumerPos cfg : Int) - (r.consumed : Int)) (2 * r.cap) }
  else r

/-- The device's view with the consumptions of one unit noted. -/
def Sys.note (cfg : Config) (un : QcqUnit) (y : Sys) : Sys :=
  { y with dev := { y.dev with rings := y.dev.rings.map (DevRing.note cfg un) } }

/-- The device's view with the units' rings that are down or created anew noted. -/
def Device.renew (cfg : Config) (units : List QcqUnit) (d : Device) : Device :=
  { d with
    rings := List.zipWith (fun r (p : QcqUnit × Offer) => r.renew p.1 p.2) d.rings (units.zip d.offers)
    offers := List.zipWith (fun un o => Offer.renew cfg units un o) units d.offers }

/-- The device's view of all units brought up to date. -/
def Sys.sync (cfg : Config) (units : List QcqUnit) (y : Sys) : Sys :=
  let y1 := units.foldl (fun z un => z.note cfg un) y
  { y1 with dev := y1.dev.renew cfg units }

/-! ### The doorbell (spec/30_encoding.md R110) -/

/-- The low `w` bits of `v` at bit `shift` of a doorbell value; a bit past 63 is dropped. Where `DB_INDEX_W` differs from
`IDX_W`, which no rule excludes, the index is cut to `DB_INDEX_W` bits (DESIGN CHOICE, notes/assumptions/41.md). -/
def doorbellPart (v w shift : Nat) : Word64 := BitVec.ofNat 64 (v % 2 ^ w * 2 ^ shift)

/-- `DB(index, ring, qid)`. -/
def doorbellValue (cfg : Config) (index : Word16) (ring qid : Word64) : Word64 :=
  doorbellPart index.toNat cfg.dbIndexW cfg.dbIndexShift ||| doorbellPart ring.toNat cfg.dbRingW cfg.dbRingShift
    ||| doorbellPart qid.toNat cfg.dbQidW cfg.dbQidShift

/-- The doorbell value of a unit: the present head, its ring selector and queue id. -/
def QcqUnit.doorbell (cfg : Config) (un : QcqUnit) : Word64 :=
  doorbellValue cfg un.q.head un.conf.ringSel un.conf.qid

/-- The doorbell step: `wmb()` and one 64-bit write to the mailbox (spec/40_queue.md R150, spec/20_memory.md R76). -/
def QcqUnit.ring (cfg : Config) (un : QcqUnit) (y : Sys) : Sys :=
  y.wmb.regWrite cfg un.conf.dbAddr.toNat (leBytes 8 (un.doorbell cfg).toNat)

/-! ### Descriptors (spec/30_encoding.md R121, R123) -/

/-- A TX descriptor of `ds` bytes, unlisted bytes 0 (R121). The fields are placed in the order addr, len, flags, vlan_tci:
where a layout makes two overlap, which no rule excludes, the later one stands (DESIGN CHOICE, notes/assumptions/43.md). -/
def txDesc (L : TxDescLayout) (ds : Nat) (addr : Handle) (len flags vlan : Word16) : List Byte :=
  placeAt (placeAt (placeAt (placeAt (List.replicate ds 0) L.addrOff (leBytes 8 addr.toNat))
    L.lenOff (leBytes 2 len.toNat)) L.flagsOff (leBytes 2 flags.toNat)) L.vlanOff (leBytes 2 vlan.toNat)

/-- An RX descriptor of `ds` bytes, unlisted bytes 0 (R123); addr is placed first, then len (DESIGN CHOICE where they
overlap, notes/assumptions/43.md). -/
def rxDesc (L : RxDescLayout) (ds : Nat) (addr : Handle) (len : Word16) : List Byte :=
  placeAt (placeAt (List.replicate ds 0) L.addrOff (leBytes 8 addr.toNat)) L.lenOff (leBytes 2 len.toNat)

/-! ### Completion fields (spec/30_encoding.md R115, R122, R124, R125) -/

/-- `status`, byte 0 of an admin completion (R115). -/
def adminStatus (c : List Byte) : Byte := fieldAt 8 c 0 1
/-- `comp_index` of a TX completion (R122). -/
def txIndex (L : TxCompLayout) (c : List Byte) : Word16 := fieldAt 16 c L.indexOff 2
/-- `status`, `len` and `csum_flags` of an RX completion (R124). -/
def rxStatus (L : RxCompLayout) (c : List Byte) : Byte := fieldAt 8 c L.statusOff 1
def rxLen (L : RxCompLayout) (c : List Byte) : Word16 := fieldAt 16 c L.lenOff 2
def rxCsum (L : RxCompLayout) (c : List Byte) : Byte := fieldAt 8 c L.csumOff 1
/-- `eid` and `ecode` of an event record (R125). -/
def eventId (L : EventLayout) (c : List Byte) : Word16 := fieldAt 16 c L.idOff 2
def eventCode (L : EventLayout) (c : List Byte) : Word16 := fieldAt 16 c L.codeOff 2

end Sys2Proof.Machine
end

