-- ==== Sys2Proof/Machine/Flags.lean ====
section
/-! DEFINITION. The block's one-bit state (spec/10_state.md R38) and every test on it: the preconditions of
spec/60_exceptions.md R286, the colour protocol (spec/41_completion_ring.md R164 to R166), the newness test
(spec/44_notifyq.md R217), the status classes (spec/30_encoding.md R119). -/

namespace Sys2Proof.Machine

/-! ### The colour protocol -/

/-- `cq_pending(u)`: reads the colour byte of the tail slot, every time anew (R164). How far the block has consumed is noted
for the device's bound (spec/46_device_contract.md R266; notes/assumptions/40.md). -/
def QcqUnit.pending (cfg : Config) (un : QcqUnit) (y : Sys) : Bool × Sys :=
  let r := (y.note cfg un).memRead cfg (un.colorAddr un.cq.tail) 1
  ((r.1.getD 0 0).getLsbD 7 == un.cq.doneColor, r.2)

/-- `last(i)` (spec/10_state.md R35). -/
def QcqUnit.isLast (un : QcqUnit) (i : Word16) : Bool := i.toNat + 1 == un.cap

/-- `cq_consume(u)`: the colour flips on the last slot and the tail advances (R166). -/
def QcqUnit.consume (un : QcqUnit) : QcqUnit :=
  { un with cq := { un.cq with
      doneColor := Bool.xor un.cq.doneColor (un.isLast un.cq.tail)
      tail := nextIndex un.cq.tail un.cap } }

/-- The read of the whole tail slot that follows a successful pending test, after `rmb()` (R165). -/
def QcqUnit.readComp (cfg : Config) (un : QcqUnit) (y : Sys) : List Byte × Sys :=
  y.rmb.memRead cfg (un.cqSlot un.cq.tail) un.cq.descSize.toNat

/-! ### Preconditions (spec/60_exceptions.md R286) -/

/-- CQ.PEND, CQ.NEXT. -/
def QcqUnit.cqReady (un : QcqUnit) : Bool := un.cq.valid && un.cq.bound
/-- AQ.POSTWAIT: the admin slot sizes are those of the unions (spec/43_adminq.md R200, R201). -/
def QcqUnit.adminReady (cfg : Config) (un : QcqUnit) : Bool :=
  un.q.valid && un.cq.valid && un.cq.bound && un.q.descSize.toNat == cfg.dcCmdBytes
    && un.cq.descSize.toNat == cfg.dcCompBytes
/-- NQ.POLL. -/
def QcqUnit.notifyReady (cfg : Config) (un : QcqUnit) : Bool :=
  un.cq.valid && un.cq.bound && decide (cfg.event.minBytes ≤ un.cq.descSize.toNat)
/-- TX.XMIT, TX.POLL (spec/45_txrx.md R230). -/
def QcqUnit.txReady (cfg : Config) (un : QcqUnit) : Bool :=
  un.q.valid && un.cq.valid && un.cq.bound && decide (cfg.txDesc.minBytes ≤ un.q.descSize.toNat)
    && decide (cfg.txComp.minBytes ≤ un.cq.descSize.toNat)
/-- RX.FILL, RX.POLL (spec/45_txrx.md R230). -/
def QcqUnit.rxReady (cfg : Config) (un : QcqUnit) : Bool :=
  un.q.valid && un.cq.valid && un.cq.bound && decide (cfg.rxDesc.minBytes ≤ un.q.descSize.toNat)
    && decide (cfg.rxComp.minBytes ≤ un.cq.descSize.toNat)
/-- DC.POST: `Idle` or `Done` (spec/42_devcmd.md R181). -/
def DcState.mayPost (d : DcState) : Bool := d == .idle || d == .done

/-- The numeric code of `DC.state` (spec/10_state.md R40). -/
def dcCode : DcState → BitVec 2
  | .idle => 0
  | .posted => 1
  | .done => 2
  | .timedOut => 3

/-! ### Tests on what the device wrote -/

/-- The newness test: `(s16)(eid - last) > 0`, on 16 bits (spec/44_notifyq.md R217). -/
def isNewEvent (eid last : Word16) : Bool := decide (0 < s16 (eid - last))

/-- The classes of a status byte (spec/30_encoding.md R119). -/
inductive StatusClass where
  | success
  | initializing
  | rejected
deriving DecidableEq, Repr

/-- `class(s)` (spec/30_encoding.md R119). -/
def statusClass (cfg : Config) (b : Byte) : StatusClass :=
  if b = 0 then .success else if b = cfg.rc.init then .initializing else .rejected

/-- RX.POLL's `ok` (spec/45_txrx.md R245). -/
def rxOk (cfg : Config) (status csum : Byte) : Bool := status == 0 && (csum &&& cfg.rxCsumBadMask) == 0

/-- A completion index that is not in flight (spec/45_txrx.md R235, R238). -/
def QcqUnit.badIndex (un : QcqUnit) (ci : Word16) : Bool :=
  decide (un.cap ≤ ci.toNat) ||
  decide (un.inFlight ≤ modNat ((ci.toNat : Int) - (un.q.tail.toNat : Int)) un.cap)

end Sys2Proof.Machine
end

