-- ==== Sys2Proof/Machine/DevCmdOps.lean ====
section
/-! DEFINITION. The device-command channel: DC.POST, DC.WAIT, DC.STATUS, DC.GO, DI.CHECK (spec/42_devcmd.md). -/

namespace Sys2Proof.Machine

/-! ### The three bodies -/

/-- The command words from `k` on are written in ascending order (R181): `n` of them are left. -/
def Sys.postWords (cfg : Config) (cmd : List Byte) : Nat → Nat → Sys → Sys
  | 0, _, y => y
  | n + 1, k, y => Sys.postWords cfg cmd n (k + 1) (y.regWrite cfg (dcCmdAddr cfg + 4 * k) (cmdWord cmd k))

/-- The body of DC.POST: every command word (sixteen of four bytes by default), done cleared, doorbell 1 (R181). -/
def Sys.post (cfg : Config) (cmd : List Byte) (y : Sys) : Sys :=
  ((y.postWords cfg cmd (cfg.dcCmdBytes / 4) 0).regWrite cfg (dcDoneAddr cfg) [0, 0, 0, 0]).regWrite cfg (dcDoorbellAddr cfg) [1, 0, 0, 0]

/-- How a wait loop ended: whether the awaited thing was seen, and the ticks consumed. -/
structure WaitEnd where
  seen : Bool
  ticks : Nat
  sys : Sys
deriving DecidableEq, Repr

/-- The wait loop of DC.WAIT (R183): poll, then deadline, then tick; `left` ticks remain until the limit. -/
def Sys.waitDone (cfg : Config) : Nat → Nat → Sys → WaitEnd
  | left, ticks, y =>
    let d := y.regRead cfg (dcDoneAddr cfg) 4
    if (d.1.getD 0 0).getLsbD 0 then ⟨true, ticks, d.2⟩
    else
      match left with
      | 0 => ⟨false, ticks, d.2⟩
      | left + 1 => Sys.waitDone cfg left (ticks + 1) (d.2.tick cfg)

/-- `limit = zext(imm) * TICKS_PER_SECOND` (R183). -/
def waitLimit (cfg : Config) (imm : Word16) : Nat := imm.toNat * cfg.ticksPerSecond

/-- The word reads of `DC_COMP`, from word `k` on: `n` of them are left (R185). -/
def Sys.readCompWords (cfg : Config) : Nat → Nat → Sys → List Byte × Sys
  | 0, _, y => ([], y)
  | n + 1, k, y =>
    let w := y.regRead cfg (dcCompAddr cfg + 4 * k) 4
    let r := Sys.readCompWords cfg n (k + 1) w.2
    (w.1 ++ r.1, r.2)

/-- The body of DC.STATUS: the status byte, the completion bytes (sixteen, in four words, by default), the system after
the reads (R185). -/
structure StatusRead where
  status : Byte
  comp : List Byte
  sys : Sys
deriving DecidableEq, Repr

def Sys.readStatus (cfg : Config) (y : Sys) : StatusRead :=
  let b := y.regRead cfg (dcCompAddr cfg) 1
  let r := b.2.readCompWords cfg (cfg.dcCompBytes / 4) 0
  ⟨byte0 b.1, r.1, r.2⟩

/-! ### DC.POST, DC.WAIT, DC.STATUS -/

/-- DC.POST (R181). -/
def execDcPost (s : State) : Result :=
  s.require s.dcState.mayPost <|
    ({ s with dcState := .posted, sys := s.sys.post s.cfg s.ctxCmd }).done 0

/-- DC.WAIT `#max_seconds` (R183). -/
def execDcWait (maxSeconds : Word16) (s : State) : Result :=
  s.require (s.dcState == .posted) <|
    let w := s.sys.waitDone s.cfg (waitLimit s.cfg maxSeconds) 0
    if w.seen then ({ s with dcState := .done, sys := w.sys }).done (BitVec.ofNat 64 w.ticks)
    else ({ s with dcState := .timedOut, sys := w.sys }).raise .timedOut (BitVec.ofNat 64 w.ticks)

/-- DC.STATUS (R185): it reports the status and does not judge it. -/
def execDcStatus (s : State) : Result :=
  s.require (s.dcState == .done) <|
    let r := s.sys.readStatus s.cfg
    ({ s with dcState := .idle, ctxComp := r.comp, sys := r.sys }).done (r.status.zeroExtend 64)

/-! ### DC.GO -/

/-- How DC.GO ended (R187). -/
structure GoEnd where
  code : ResultCode
  info : Word64
  dcState : DcState
  comp : List Byte
  sys : Sys
deriving DecidableEq, Repr

/-- The attempts of DC.GO (R187): post, wait, status; `more` further attempts are in the budget, `attempts` have been
made, `comp` is `CTX.comp` so far. -/
def goLoop (cfg : Config) (cmd : List Byte) (limit : Nat) :
    Nat → Nat → List Byte → Sys → GoEnd
  | more, attempts, comp, y =>
    let w := (y.post cfg cmd).waitDone cfg limit 0
    if !w.seen then ⟨.timedOut, BitVec.ofNat 64 w.ticks, .timedOut, comp, w.sys⟩
    else
      let r := w.sys.readStatus cfg
      match statusClass cfg r.status with
      | .success => ⟨.ok, BitVec.ofNat 64 (attempts + 1), .idle, r.comp, r.sys⟩
      | .rejected => ⟨.deviceRejected, rejectInfo (byte0 cmd) r.status, .idle, r.comp, r.sys⟩
      | .initializing =>
        match more with
        | 0 => ⟨.ioError, rejectInfo (byte0 cmd) r.status, .idle, r.comp, r.sys⟩
        | more + 1 => goLoop cfg cmd limit more (attempts + 1) r.comp r.sys

/-- DC.GO `#max_seconds` (R187): at most `RETRY_BUDGET` posts. The gate is set on entry and cleared before the operation
ends, and nothing can observe it in between (spec/10_state.md R24, R41), so the state it leaves has it clear. -/
def execDcGo (maxSeconds : Word16) (s : State) : Result :=
  s.require (!s.dcGate && s.dcState.mayPost) <|
    let g := goLoop s.cfg s.ctxCmd (waitLimit s.cfg maxSeconds) (s.cfg.retryBudget - 1) 0 s.ctxComp s.sys
    ({ s with dcGate := false, dcState := g.dcState, ctxComp := g.comp, sys := g.sys }).raise g.code g.info

/-! ### DI.CHECK -/

/-- DI.CHECK (R189): signature at offset 0, then version, asic_type and asic_rev in one word at offset 4
(spec/10_state.md R44). -/
def execDiCheck (s : State) : Result :=
  let sig := s.sys.regRead s.cfg s.cfg.diBase.toNat 4
  if (fieldAt 32 sig.1 0 4 : Word32) ≠ s.cfg.devInfoSignature then
    (s.withSys sig.2).raise .badSignature (fieldAt 64 sig.1 0 4)
  else
    let w := sig.2.regRead s.cfg (s.cfg.diBase.toNat + 4) 4
    (s.withSys w.2).done (fieldAt 64 w.1 0 3)

end Sys2Proof.Machine
end

