-- ==== Sys2Proof/Machine/AdminOps.lean ====
section
/-! DEFINITION. The admin-queue operation AQ.POSTWAIT (spec/43_adminq.md). -/

namespace Sys2Proof.Machine

/-- The poll loop of AQ.POSTWAIT (R201 phase 2, R203): test, then deadline, then tick; `left` ticks remain. -/
def QcqUnit.waitPending (cfg : Config) (un : QcqUnit) : Nat → Nat → Sys → WaitEnd
  | left, ticks, y =>
    let p := un.pending cfg y
    if p.1 then ⟨true, ticks, p.2⟩
    else
      match left with
      | 0 => ⟨false, ticks, p.2⟩
      | left + 1 => QcqUnit.waitPending cfg un left (ticks + 1) (p.2.tick cfg)

/-- AQ.POSTWAIT `u` (R201). -/
def execAqPostWait (u : UnitId) (s : State) : Result :=
  s.onUnit (.aqPostWait u) u fun un =>
    s.require (un.adminReady s.cfg) <|
      -- phase 0
      if !s.sys.fwRunning then s.raise .firmwareDown 0
      else if un.space < 1 then s.raise .noSpace 0
      else requireRing (un.qFits s.cfg && un.cqFits s.cfg) <|
        -- phase 1
        let y1 := s.sys.memWrite s.cfg (un.qSlot un.q.head) (firstBytes s.cfg.dcCmdBytes s.ctxCmd)
        let un1 := un.advHead
        let y2 := un1.ring s.cfg y1
        -- phase 2
        let w := un1.waitPending s.cfg s.cfg.adminqTimeoutTicks 0 y2
        if !w.seen then ((s.setUnit u un1).withSys w.sys).raise .timedOut (BitVec.ofNat 64 w.ticks)
        else
          -- phase 3
          let c := un1.readComp s.cfg w.sys
          let un2 := un1.consume.advTail
          let s2 := { (s.setUnit u un2).withSys c.2 with ctxComp := c.1 }
          if adminStatus c.1 ≠ 0 then s2.raise .deviceRejected (rejectInfo s.cmdOpcode (adminStatus c.1))
          else s2.done (BitVec.ofNat 64 w.ticks)

end Sys2Proof.Machine
end

