-- ==== Sys2Proof/Machine/CompletionOps.lean ====
section
/-! DEFINITION. The completion-ring operations CQ.INIT, CQ.BIND, CQ.PEND, CQ.NEXT, QCQ.DOWN
(spec/41_completion_ring.md). -/

namespace Sys2Proof.Machine

/-- The unit as CQ.INIT leaves it (R161). `last_seen_id` starts at `NQ_INIT_LAST_ID`, 0 by default
(spec/44_notifyq.md R222, notes/assumptions/12.md). -/
def QcqUnit.initComp (cfg : Config) (un : QcqUnit) (a0 : Word64) : QcqUnit :=
  { un with
    cq := { valid := true, bound := false, descSize := low32 a0, tail := 0, doneColor := cfg.initDoneColor }
    lastSeenId := cfg.nqInitLastId }

/-- The unit as CQ.BIND leaves it (R162). -/
def QcqUnit.bind (un : QcqUnit) : QcqUnit := { un with cq := { un.cq with bound := true } }

/-- The unit as QCQ.DOWN leaves it (R168). -/
def QcqUnit.down (un : QcqUnit) : QcqUnit :=
  { un with q := { un.q with valid := false }, cq := { un.cq with valid := false, bound := false } }

/-- CQ.INIT `u` ; `A0` cq_desc_size (R161). -/
def execCqInit (u : UnitId) (s : State) : Result :=
  s.onUnit (.cqInit u) u fun un =>
    s.require (!un.cq.valid) <| (s.setUnit u (un.initComp s.cfg s.a0)).done 0

/-- CQ.BIND `u` (R162). -/
def execCqBind (u : UnitId) (s : State) : Result :=
  s.onUnit (.cqBind u) u fun un =>
    s.require (un.cq.valid && !un.cq.bound && un.q.valid) <|
      (s.setUnit u un.bind).done (un.q.capacity.zeroExtend 64)

/-- CQ.PEND `u` (R163). -/
def execCqPend (u : UnitId) (s : State) : Result :=
  s.onUnit (.cqPend u) u fun un =>
    s.require un.cqReady <| requireRing (un.cqFits s.cfg) <|
      let p := un.pending s.cfg s.sys
      if p.1 then (s.withSys p.2.rmb).done 1 else (s.withSys p.2).done 0

/-- CQ.NEXT `u` (R167). -/
def execCqNext (u : UnitId) (s : State) : Result :=
  s.onUnit (.cqNext u) u fun un =>
    s.require un.cqReady <| (s.setUnit u un.consume).done (un.consume.cq.tail.zeroExtend 64)

/-- QCQ.DOWN `u` (R168). -/
def execQcqDown (u : UnitId) (s : State) : Result :=
  s.onUnit (.qcqDown u) u fun un =>
    s.require (!un.side.anyValid) <| (s.setUnit u un.down).done 0

end Sys2Proof.Machine
end

