-- ==== Sys2Proof/Machine/FastPathOps.lean ====
section
/-! DEFINITION. The fast path: TX.XMIT, TX.POLL, RX.FILL, RX.POLL, QCQ.FLUSH (spec/45_txrx.md). -/

namespace Sys2Proof.Machine

/-- A unit and the system, as the loops of this file change them; `count` is what the operation counts. -/
structure Carry where
  un : QcqUnit
  count : Nat
  sys : Sys
deriving DecidableEq, Repr

/-- How a polling loop ended: with `ok`, or with BadCompletion and its index (R238). -/
structure PollEnd where
  un : QcqUnit
  code : ResultCode
  info : Word64
  sys : Sys
deriving DecidableEq, Repr

/-- The operation ends with the unit and the system of the loop's end. -/
def State.endPoll (s : State) (u : UnitId) (e : Option PollEnd) : Result :=
  match e with
  | none => .fault .drainUnending
  | some d => ((s.setUnit u d.un).withSys d.sys).raise d.code d.info

/-! ### Posting -/

/-- `SIDE[u][head] <- {1, h}` and the head advances (R231, R240). -/
def QcqUnit.own (un : QcqUnit) (h : Handle) : QcqUnit :=
  { un with side := un.side.set un.q.head.toNat ⟨true, h⟩ }.advHead

/-- TX.XMIT `u` ; `A0` handle, `A1[15:0]` length, `A2[15:0]` flags, `A2[31:16]` vlan_tci (R231). -/
def execTxXmit (u : UnitId) (s : State) : Result :=
  s.onUnit (.txXmit u) u fun un =>
    s.require (un.txReady s.cfg) <|
      if un.space < 1 then s.raise .noSpace 0
      else requireRing (un.qFits s.cfg) <|
        let d := txDesc s.cfg.txDesc un.q.descSize.toNat s.a0 (low16 s.a1) (low16 s.a2) (mid16 s.a2)
        let y1 := s.sys.memWrite s.cfg (un.qSlot un.q.head) d
        let un1 := un.own s.a0
        ((s.setUnit u un1).withSys (un1.ring s.cfg y1)).done (un.q.head.zeroExtend 64)

/-- The loop of RX.FILL (R240): at most `n` slots, until BufAlloc fails. -/
def fillLoop (cfg : Config) (mtu : Word16) : Nat → Carry → Carry
  | 0, c => c
  | n + 1, c =>
    let r := c.sys.bufAlloc mtu.toNat
    match r.1 with
    | none => { c with sys := r.2 }
    | some h =>
      let d := rxDesc cfg.rxDesc c.un.q.descSize.toNat h mtu
      fillLoop cfg mtu n ⟨c.un.own h, c.count + 1, r.2.memWrite cfg (c.un.qSlot c.un.q.head) d⟩

/-- RX.FILL `u`, `#mtu` (R240): the free slots are counted once, one doorbell at the end if anything was posted. -/
def execRxFill (u : UnitId) (mtu : Word16) (s : State) : Result :=
  s.onUnit (.rxFill u mtu) u fun un =>
    s.require (un.rxReady s.cfg) <| requireRing (un.qFits s.cfg) <|
      let c := fillLoop s.cfg mtu un.space ⟨un, 0, s.sys⟩
      let y := if 0 < c.count then c.un.ring s.cfg c.sys else c.sys
      ((s.setUnit u c.un).withSys y).done (BitVec.ofNat 64 c.count)

/-! ### Retiring -/

/-- The slot at the tail is retired: its entry is no longer valid and the tail advances (R235, R245, R250). -/
def QcqUnit.retire (un : QcqUnit) : QcqUnit :=
  { un with side := un.side.invalidate un.q.tail.toNat }.advTail

/-- `SIDE[u][Q[u].tail].handle`. -/
def QcqUnit.tailHandle (un : QcqUnit) : Handle := (un.side.get un.q.tail.toNat).handle

/-- The inner loop of TX.POLL: retire until the retired slot is `ci` (R235); no answer when `fuel` is used up. -/
def retireUntil (ci : Word16) : Nat → Carry → Option Carry
  | 0, _ => none
  | fuel + 1, c =>
    let c1 : Carry := ⟨c.un.retire, c.count + 1, c.sys.bufRetire c.un.tailHandle⟩
    if c.un.q.tail = ci then some c1 else retireUntil ci fuel c1

/-- The loop of TX.POLL (R235). -/
def txPollLoop (cfg : Config) : Nat → Carry → Option PollEnd
  | 0, _ => none
  | fuel + 1, c =>
    let p := c.un.pending cfg c.sys
    if !p.1 then some ⟨c.un, .ok, BitVec.ofNat 64 c.count, p.2⟩
    else
      let e := c.un.readComp cfg p.2
      let ci := txIndex cfg.txComp e.1
      let un1 := c.un.consume
      if un1.badIndex ci then some ⟨un1, .badCompletion, ci.zeroExtend 64, e.2⟩
      else
        match retireUntil ci un1.cap ⟨un1, c.count, e.2⟩ with
        | none => none
        | some c1 => txPollLoop cfg fuel c1

/-- TX.POLL `u` (R235): a completion retires at least one descriptor, so the descriptors in flight bound the loop
(R253). -/
def execTxPoll (u : UnitId) (s : State) : Result :=
  s.onUnit (.txPoll u) u fun un =>
    s.require (un.txReady s.cfg) <| requireRing (un.cqFits s.cfg) <|
      s.endPoll u (txPollLoop s.cfg (un.inFlight + 1) ⟨un, 0, s.sys⟩)

/-- The loop of RX.POLL (R245). -/
def rxPollLoop (cfg : Config) : Nat → Carry → Option PollEnd
  | 0, _ => none
  | fuel + 1, c =>
    let p := c.un.pending cfg c.sys
    if !p.1 then some ⟨c.un, .ok, BitVec.ofNat 64 c.count, p.2⟩
    else
      let e := c.un.readComp cfg p.2
      let un1 := c.un.consume
      if un1.inFlight = 0 then some ⟨un1, .badCompletion, 0, e.2⟩
      else
        let ok := rxOk cfg (rxStatus cfg.rxComp e.1) (rxCsum cfg.rxComp e.1)
        rxPollLoop cfg fuel
          ⟨un1.retire, c.count + 1, e.2.bufDeliver un1.tailHandle (rxLen cfg.rxComp e.1) ok⟩

/-- RX.POLL `u` (R245, R253). -/
def execRxPoll (u : UnitId) (s : State) : Result :=
  s.onUnit (.rxPoll u) u fun un =>
    s.require (un.rxReady s.cfg) <| requireRing (un.cqFits s.cfg) <|
      s.endPoll u (rxPollLoop s.cfg (un.inFlight + 1) ⟨un, 0, s.sys⟩)

/-! ### QCQ.FLUSH -/

/-- The buffer of the tail slot goes back without a completion: a transmit buffer is cancelled, a receive buffer released
(R250). -/
def QcqUnit.flushBuffer (un : QcqUnit) (y : Sys) : Sys :=
  if (un.side.get un.q.tail.toNat).valid then
    if un.conf.role = .tx then y.bufCancel un.tailHandle else y.bufRelease un.tailHandle
  else y

/-- The loop of QCQ.FLUSH: while `tail != head` (R250); no answer when `fuel` is used up. -/
def flushLoop : Nat → Carry → Option Carry
  | fuel, c =>
    if c.un.q.tail = c.un.q.head then some c
    else
      match fuel with
      | 0 => none
      | fuel + 1 => flushLoop fuel ⟨c.un.retire, c.count + 1, c.un.flushBuffer c.sys⟩

/-- QCQ.FLUSH `u` (R250). -/
def execQcqFlush (u : UnitId) (s : State) : Result :=
  s.onUnit (.qcqFlush u) u fun un =>
    s.require un.q.valid <|
      match flushLoop un.cap ⟨un, 0, s.sys⟩ with
      | none => .fault .drainUnending
      | some c => ((s.setUnit u c.un).withSys c.sys).done (BitVec.ofNat 64 c.count)

end Sys2Proof.Machine
end

