-- ==== Sys2Proof/Machine/NotifyOps.lean ====
section
/-! DEFINITION. The notify-queue operation NQ.POLL (spec/44_notifyq.md). -/

namespace Sys2Proof.Machine

/-- The output event of a new record (R216, R219, R220): none when draining only (R218), none for any other code. -/
def Sys.dispatchEvent (cfg : Config) (process : Bool) (code : Word16) (y : Sys) : Sys :=
  if process then
    if code = cfg.ecLinkChange then y.notifyLinkChange
    else if code = cfg.ecReset then y.notifyReset
    else y
  else y

/-- How NQ.POLL's loop ended. -/
structure DrainEnd where
  un : QcqUnit
  count : Nat
  fresh : Nat
  sys : Sys
deriving DecidableEq, Repr

/-- The loop of NQ.POLL (R216); no answer when the bound `fuel` is used up (notes/assumptions/16.md). -/
def notifyLoop (cfg : Config) (process : Bool) : Nat → QcqUnit → Nat → Nat → Sys → Option DrainEnd
  | 0, _, _, _, _ => none
  | fuel + 1, un, count, fresh, y =>
    let p := un.pending cfg y
    if !p.1 then some ⟨un, count, fresh, p.2⟩
    else
      let e := un.readComp cfg p.2
      let eid := eventId cfg.event e.1
      let un1 := un.consume
      if isNewEvent eid un.lastSeenId then
        notifyLoop cfg process fuel { un1 with lastSeenId := eid } (count + 1) (fresh + 1)
          (e.2.dispatchEvent cfg process (eventCode cfg.event e.1))
      else notifyLoop cfg process fuel un1 (count + 1) fresh e.2

/-- The most evaluations of the loop condition: each uses up a slot of the schedule while there is one, and after that
the ring holds at most one revolution of pending records (R221). -/
def notifyFuel (un : QcqUnit) (y : Sys) : Nat := y.sched.length + un.cap + 1

/-- NQ.POLL's `R1`: `fresh ## count` (R216). The rule gives the two counters no width: each goes into 32 bits, and a count
of 2^32 or more wraps there (DESIGN CHOICE, notes/assumptions/38.md). -/
def pollInfo (fresh count : Nat) : Word64 :=
  ((BitVec.ofNat 32 fresh).zeroExtend 64 <<< 32) ||| (BitVec.ofNat 32 count).zeroExtend 64

/-- NQ.POLL `u`, `#process` (R216). -/
def execNqPoll (u : UnitId) (process : Bool) (s : State) : Result :=
  s.onUnit (.nqPoll u process) u fun un =>
    s.require (un.notifyReady s.cfg) <| requireRing (un.cqFits s.cfg) <|
      match notifyLoop s.cfg process (notifyFuel un s.sys) un 0 0 s.sys with
      | none => .fault .drainUnending
      | some d => ((s.setUnit u d.un).withSys d.sys).done (pollInfo d.fresh d.count)

end Sys2Proof.Machine
end

