-- ==== Sys2Proof/Machine/QueueOps.lean ====
section
/-! DEFINITION. The descriptor-ring operations Q.INIT, Q.SPACE, Q.HASSPACE, Q.ADVHEAD, Q.ADVTAIL, Q.DBELL
(spec/40_queue.md). -/

namespace Sys2Proof.Machine

/-- The unit as Q.INIT leaves it for a legal capacity `a0` (R141). -/
def QcqUnit.initQueue (un : QcqUnit) (a0 a1 a2 : Word64) : QcqUnit :=
  { un with
    q := { valid := true, capacity := a0.extractLsb' 0 17, descSize := low32 a1, sgDescSize := low32 a2, head := 0, tail := 0 }
    side := un.side.invalidateBelow a0.toNat }

/-- Q.INIT `u` ; `A0` capacity, `A1` desc_size, `A2` sg_desc_size (R141). -/
def execQInit (u : UnitId) (s : State) : Result :=
  s.onUnit (.qInit u) u fun un =>
    s.require (!un.q.valid) <|
      if legalCapacity s.cfg s.a0 then (s.setUnit u (un.initQueue s.a0 s.a1 s.a2)).done 0
      else s.raise .invalidArgument s.a0

/-- Q.SPACE `u` (R142). -/
def execQSpace (u : UnitId) (s : State) : Result :=
  s.onUnit (.qSpace u) u fun un =>
    s.require un.q.valid <| s.done (BitVec.ofNat 64 un.space)

/-- Q.HASSPACE `u`, `#n` (R143). -/
def execQHasSpace (u : UnitId) (n : Word16) (s : State) : Result :=
  s.onUnit (.qHasSpace u n) u fun un =>
    s.require un.q.valid <| s.done (if n.toNat ≤ un.space then 1 else 0)

/-- Q.ADVHEAD `u` (R144). -/
def execQAdvHead (u : UnitId) (s : State) : Result :=
  s.onUnit (.qAdvHead u) u fun un =>
    s.require un.q.valid <|
      if un.space = 0 then s.raise .noSpace 0
      else (s.setUnit u un.advHead).done (un.advHead.q.head.zeroExtend 64)

/-- Q.ADVTAIL `u` (R145). -/
def execQAdvTail (u : UnitId) (s : State) : Result :=
  s.onUnit (.qAdvTail u) u fun un =>
    s.require un.q.valid <|
      if un.inFlight = 0 then s.raise .badState 0
      else (s.setUnit u un.advTail).done (un.q.tail.zeroExtend 64)

/-- Q.DBELL `u` (R150). -/
def execQDbell (u : UnitId) (s : State) : Result :=
  s.onUnit (.qDbell u) u fun un =>
    s.require un.q.valid <| (s.withSys (un.ring s.cfg s.sys)).done 0

end Sys2Proof.Machine
end

