-- ==== Sys2Proof/Machine/ResetOps.lean ====
section
/-! DEFINITION. RESET and the external reset input (spec/70_reset_and_hazards.md R310, R311). -/

namespace Sys2Proof.Machine

/-- A unit after reset: registers at the values of spec/10_state.md R60, no side-table entry valid; the handles of the
entries stay (R311). -/
def QcqUnit.reset (cfg : Config) (un : QcqUnit) : QcqUnit :=
  { conf := un.conf, q := Queue.reset, cq := CompRing.reset cfg, lastSeenId := cfg.nqInitLastId
    side := un.side.invalidateAll }

/-- The block's state at reset, `R0`, `R1` and `BUSY` apart. `A0..A3`, `CTX.cmd` and `CTX.comp` stay, the surroundings are
untouched (R310, R311). `REQ` becomes 0 by R310 and the table of spec/10_state.md R60, although the pseudocode of R311 does
not write it (DEDUCED, notes/assumptions/36.md). -/
def State.resetBlock (s : State) : State :=
  { s with req := 0, units := s.units.map (QcqUnit.reset s.cfg), dcState := .idle, dcGate := false }

/-- RESET (R311). -/
def execReset (s : State) : Result := s.resetBlock.done 0

/-- The external reset input: the same, without an operation having run (R310, R311). -/
def State.resetInput (s : State) : State := { s.resetBlock with busy := false, r0 := 0, r1 := 0 }

end Sys2Proof.Machine
end

