-- ==== Sys2Proof/Machine/Dispatch.lean ====
section
/-! DEFINITION. One arm per operation (spec/30_encoding.md R103). -/

namespace Sys2Proof.Machine

def exec (i : Instr) (s : State) : Host.Outcome State Fault Refusal :=
  match i with
  | .qInit u => Sys2Proof.Machine.execQInit u s
  | .qSpace u => Sys2Proof.Machine.execQSpace u s
  | .qHasSpace u n => Sys2Proof.Machine.execQHasSpace u n s
  | .qAdvHead u => Sys2Proof.Machine.execQAdvHead u s
  | .qAdvTail u => Sys2Proof.Machine.execQAdvTail u s
  | .qDbell u => Sys2Proof.Machine.execQDbell u s
  | .cqInit u => Sys2Proof.Machine.execCqInit u s
  | .cqBind u => Sys2Proof.Machine.execCqBind u s
  | .cqPend u => Sys2Proof.Machine.execCqPend u s
  | .cqNext u => Sys2Proof.Machine.execCqNext u s
  | .qcqDown u => Sys2Proof.Machine.execQcqDown u s
  | .dcPost => Sys2Proof.Machine.execDcPost s
  | .dcWait n => Sys2Proof.Machine.execDcWait n s
  | .dcStatus => Sys2Proof.Machine.execDcStatus s
  | .dcGo n => Sys2Proof.Machine.execDcGo n s
  | .diCheck => Sys2Proof.Machine.execDiCheck s
  | .aqPostWait u => Sys2Proof.Machine.execAqPostWait u s
  | .nqPoll u p => Sys2Proof.Machine.execNqPoll u p s
  | .txXmit u => Sys2Proof.Machine.execTxXmit u s
  | .txPoll u => Sys2Proof.Machine.execTxPoll u s
  | .rxFill u n => Sys2Proof.Machine.execRxFill u n s
  | .rxPoll u => Sys2Proof.Machine.execRxPoll u s
  | .qcqFlush u => Sys2Proof.Machine.execQcqFlush u s
  | .reset => Sys2Proof.Machine.execReset s

end Sys2Proof.Machine
end

