-- ==== Sys2Proof/Decode.lean ====
section
/-! DEFINITION. Decoding and encoding of the request word (spec/30_encoding.md R100 to R106). The decoder makes the
first of the checks of spec/60_exceptions.md R285 (operation code assigned, must-be-zero bits zero); the unit number and
the role tie, the second check, belong to the machine (Sys2Proof/Machine/Operands.lean). -/

namespace Sys2Proof

/-- The fields of a request word (spec/30_encoding.md R101). -/
def opOf (w : Word32) : Byte := w.extractLsb' 0 8
def unitOf (w : Word32) : UnitId := w.extractLsb' 8 8
def immOf (w : Word32) : Word16 := w.extractLsb' 16 16

/-- The request word `imm16 ## unit ## op` (spec/30_encoding.md R101, R107). -/
def requestWord (imm : Word16) (u : UnitId) (op : Byte) : Word32 := imm ++ u ++ op

/-- Why a word is illegal whatever the configuration (spec/30_encoding.md R105 (a), (b)). -/
inductive DecodeError where
  /-- `op` is one of the unassigned codes. -/
  | reservedOp
  /-- A must-be-zero field of the operation's format is not zero. -/
  | mustBeZero
deriving DecidableEq, Repr

/-- Format `N`: `unit` and `imm16` must be zero (spec/30_encoding.md R102). -/
def formatN (w : Word32) (i : Instr) : Except DecodeError Instr :=
  if unitOf w = 0 ∧ immOf w = 0 then .ok i else .error .mustBeZero

/-- Format `U`: `imm16` must be zero (R102). -/
def formatU (w : Word32) (i : UnitId → Instr) : Except DecodeError Instr :=
  if immOf w = 0 then .ok (i (unitOf w)) else .error .mustBeZero

/-- Format `UI`: nothing must be zero (R102). -/
def formatUI (w : Word32) (i : UnitId → Word16 → Instr) : Except DecodeError Instr :=
  .ok (i (unitOf w) (immOf w))

/-- Format `I`: `unit` must be zero (R102). -/
def formatI (w : Word32) (i : Word16 → Instr) : Except DecodeError Instr :=
  if unitOf w = 0 then .ok (i (immOf w)) else .error .mustBeZero

/-- NQ.POLL: format `UI` with bits 15:1 of `imm16` zero (spec/30_encoding.md R104). -/
def formatNqPoll (w : Word32) : Except DecodeError Instr :=
  if (immOf w).extractLsb' 1 15 = 0 then .ok (.nqPoll (unitOf w) ((immOf w).getLsbD 0)) else .error .mustBeZero

/-- The decoder: the operation map of spec/30_encoding.md R103. Total; every unassigned code is reserved (R105). -/
def decode (w : Word32) : Except DecodeError Instr :=
  match (opOf w).toNat with
  | 0x01 => formatU w .qInit
  | 0x02 => formatU w .qSpace
  | 0x03 => formatUI w .qHasSpace
  | 0x04 => formatU w .qAdvHead
  | 0x05 => formatU w .qAdvTail
  | 0x06 => formatU w .qDbell
  | 0x08 => formatU w .cqInit
  | 0x09 => formatU w .cqBind
  | 0x0A => formatU w .cqPend
  | 0x0B => formatU w .cqNext
  | 0x0C => formatU w .qcqDown
  | 0x10 => formatN w .dcPost
  | 0x11 => formatI w .dcWait
  | 0x12 => formatN w .dcStatus
  | 0x13 => formatI w .dcGo
  | 0x14 => formatN w .diCheck
  | 0x18 => formatU w .aqPostWait
  | 0x1C => formatNqPoll w
  | 0x20 => formatU w .txXmit
  | 0x21 => formatU w .txPoll
  | 0x22 => formatUI w .rxFill
  | 0x23 => formatU w .rxPoll
  | 0x24 => formatU w .qcqFlush
  | 0x3F => formatN w .reset
  | _ => .error .reservedOp

/-- The encoder: the request word of an operation (spec/30_encoding.md R103, R107). -/
def encode : Instr → Word32
  | .qInit u => requestWord 0 u 0x01
  | .qSpace u => requestWord 0 u 0x02
  | .qHasSpace u n => requestWord n u 0x03
  | .qAdvHead u => requestWord 0 u 0x04
  | .qAdvTail u => requestWord 0 u 0x05
  | .qDbell u => requestWord 0 u 0x06
  | .cqInit u => requestWord 0 u 0x08
  | .cqBind u => requestWord 0 u 0x09
  | .cqPend u => requestWord 0 u 0x0A
  | .cqNext u => requestWord 0 u 0x0B
  | .qcqDown u => requestWord 0 u 0x0C
  | .dcPost => requestWord 0 0 0x10
  | .dcWait n => requestWord n 0 0x11
  | .dcStatus => requestWord 0 0 0x12
  | .dcGo n => requestWord n 0 0x13
  | .diCheck => requestWord 0 0 0x14
  | .aqPostWait u => requestWord 0 u 0x18
  | .nqPoll u p => requestWord (if p then 1 else 0) u 0x1C
  | .txXmit u => requestWord 0 u 0x20
  | .txPoll u => requestWord 0 u 0x21
  | .rxFill u n => requestWord n u 0x22
  | .rxPoll u => requestWord 0 u 0x23
  | .qcqFlush u => requestWord 0 u 0x24
  | .reset => requestWord 0 0 0x3F

/-- The operation code of an operation (spec/30_encoding.md R103). -/
def Instr.op (i : Instr) : Byte := opOf (encode i)

/-- One row of spec/opcode_table.json: a word `w` belongs to the row when `w &&& mask = value`. -/
structure OpRow where
  mnemonic : String
  mask : Word32
  value : Word32
deriving DecidableEq, Repr

/-- The rows of spec/opcode_table.json, with the masks of spec/30_encoding.md R102 and R104. -/
def opRows : List OpRow :=
  [ ⟨"Q.INIT", 0xFFFF00FF, 0x01⟩, ⟨"Q.SPACE", 0xFFFF00FF, 0x02⟩, ⟨"Q.HASSPACE", 0x000000FF, 0x03⟩,
    ⟨"Q.ADVHEAD", 0xFFFF00FF, 0x04⟩, ⟨"Q.ADVTAIL", 0xFFFF00FF, 0x05⟩, ⟨"Q.DBELL", 0xFFFF00FF, 0x06⟩,
    ⟨"CQ.INIT", 0xFFFF00FF, 0x08⟩, ⟨"CQ.BIND", 0xFFFF00FF, 0x09⟩, ⟨"CQ.PEND", 0xFFFF00FF, 0x0A⟩,
    ⟨"CQ.NEXT", 0xFFFF00FF, 0x0B⟩, ⟨"QCQ.DOWN", 0xFFFF00FF, 0x0C⟩ ] ++
  [ ⟨"DC.POST", 0xFFFFFFFF, 0x10⟩, ⟨"DC.WAIT", 0x0000FFFF, 0x11⟩, ⟨"DC.STATUS", 0xFFFFFFFF, 0x12⟩,
    ⟨"DC.GO", 0x0000FFFF, 0x13⟩, ⟨"DI.CHECK", 0xFFFFFFFF, 0x14⟩, ⟨"AQ.POSTWAIT", 0xFFFF00FF, 0x18⟩,
    ⟨"NQ.POLL", 0xFFFE00FF, 0x1C⟩, ⟨"TX.XMIT", 0xFFFF00FF, 0x20⟩, ⟨"TX.POLL", 0xFFFF00FF, 0x21⟩,
    ⟨"RX.FILL", 0x000000FF, 0x22⟩, ⟨"RX.POLL", 0xFFFF00FF, 0x23⟩, ⟨"QCQ.FLUSH", 0xFFFF00FF, 0x24⟩,
    ⟨"RESET", 0xFFFFFFFF, 0x3F⟩ ]

/-- The row a word belongs to. -/
def OpRow.holds (r : OpRow) (w : Word32) : Bool := w &&& r.mask == r.value

/-- The row of an operation, as a position in `opRows`. -/
def Instr.row : Instr → Nat
  | .qInit _ => 0
  | .qSpace _ => 1
  | .qHasSpace _ _ => 2
  | .qAdvHead _ => 3
  | .qAdvTail _ => 4
  | .qDbell _ => 5
  | .cqInit _ => 6
  | .cqBind _ => 7
  | .cqPend _ => 8
  | .cqNext _ => 9
  | .qcqDown _ => 10
  | .dcPost => 11
  | .dcWait _ => 12
  | .dcStatus => 13
  | .dcGo _ => 14
  | .diCheck => 15
  | .aqPostWait _ => 16
  | .nqPoll _ _ => 17
  | .txXmit _ => 18
  | .txPoll _ => 19
  | .rxFill _ _ => 20
  | .rxPoll _ => 21
  | .qcqFlush _ => 22
  | .reset => 23

/-- The operation read from a request word whose bits are `w`: REQ is one 32-bit register, so the table's numbering of
the bits is REQ's own and every row has 32 of them (spec/30_encoding.md R100). -/
def decodeTableWord (nbits w : Nat) : Option Instr :=
  if nbits ≤ 32 ∧ w < 2 ^ 32 then (decode (BitVec.ofNat 32 w)).toOption else none

end Sys2Proof
end

