-- ==== Sys2Proof/Machine/Port.lean ====
section
/-! DEFINITION. The outside of the block: what the requester, the device and the reset input do between operations
(spec/10_state.md R20, R21), which configurations the model runs (spec/20_memory.md R78, U12), and what the requester
reads on the port (spec/10_state.md R23). -/

namespace Sys2Proof.Machine

/-! ### Configurations -/

/-- The register-space windows of the block (spec/10_state.md R43 to R45). -/
def registerRanges (cfg : Config) (units : List UnitConfig) : List (Nat × Nat) :=
  [ (dcDoorbellAddr cfg, 4), (dcDoneAddr cfg, 4), (dcCmdAddr cfg, cfg.dcCmdBytes), (dcCompAddr cfg, cfg.dcCompBytes),
    (dcDataAddr cfg, cfg.dcDataBytes), (cfg.diBase.toNat, diRegionBytes) ] ++
  units.map (fun c => (c.dbAddr.toNat, mailboxBytes))

/-- `PAGE_SIZE` is a power of two and every ring base a multiple of it (spec/20_memory.md R78 (a)). -/
def ringsAligned (cfg : Config) (units : List UnitConfig) : Bool :=
  isPow2 cfg.pageSize &&
  units.all fun c => c.qBase.toNat % cfg.pageSize == 0 && c.qBasePa.toNat % cfg.pageSize == 0
    && c.cqBase.toNat % cfg.pageSize == 0 && c.cqBasePa.toNat % cfg.pageSize == 0

/-- The least region of a unit in one address view: its descriptor ring up to the completion ring, and one page of that. -/
def leastRegion (cfg : Config) (q cq : Addr) : Nat × Nat := (q.toNat, cq.toNat - q.toNat + cfg.pageSize)

/-- What R82 says of the bases alone, whatever the capacity and the slot sizes: the completion ring lies past the
descriptor ring, by the same distance in both address views; no two units' regions meet, and all lie in the address space
(spec/20_memory.md R82, U12). The rest of R82 depends on what Q.INIT and CQ.INIT are given (QcqUnit.laidOut). -/
def regionsOk (cfg : Config) (units : List UnitConfig) : Bool :=
  units.all (fun c => decide (c.qBase.toNat + cfg.pageSize ≤ c.cqBase.toNat)
    && c.cqBase.toNat - c.qBase.toNat == c.cqBasePa.toNat - c.qBasePa.toNat
    && decide (c.cqBase.toNat + cfg.pageSize ≤ 2 ^ cfg.addrW)
    && decide (c.cqBasePa.toNat + cfg.pageSize ≤ 2 ^ cfg.addrW)) &&
  decide ((units.map (fun c => leastRegion cfg c.qBase c.cqBase)).Pairwise (fun a b => rangesApart a b = true)) &&
  decide ((units.map (fun c => leastRegion cfg c.qBasePa c.cqBasePa)).Pairwise (fun a b => rangesApart a b = true))

/-- Every register access is naturally aligned (spec/20_memory.md R78 (b)). -/
def registersAligned (cfg : Config) (units : List UnitConfig) : Bool :=
  cfg.dcBase.toNat % 4 == 0 && cfg.diBase.toNat % 4 == 0 && cfg.dcOffDoorbell % 4 == 0 && cfg.dcOffDone % 4 == 0
    && cfg.dcOffCmd % 4 == 0 && cfg.dcOffComp % 4 == 0 && units.all fun c => c.dbAddr.toNat % 8 == 0

/-- The register windows lie in the address space and apart from each other (U12). -/
def registersApart (cfg : Config) (units : List UnitConfig) : Bool :=
  (registerRanges cfg units).all (fun r => decide (r.1 + r.2 ≤ 2 ^ cfg.addrW)) &&
  decide ((registerRanges cfg units).Pairwise (fun a b => rangesApart a b = true))

/-- The bytes of `RC` other than `Success` (spec/30_encoding.md R118). -/
def rcOthers (t : RcTable) : List Byte :=
  [t.eopcode, t.eio, t.eperm, t.eqid, t.eqtype, t.enoent, t.eintr, t.init, t.enomem, t.efault] ++
  [t.ebusy, t.eexist, t.einval, t.enospc, t.erange, t.badAddr, t.devCmd, t.enosupp, t.error]

/-- `RC(Success) = 0` and every other value is non-zero and distinct (spec/30_encoding.md R118). -/
def rcOk (t : RcTable) : Bool :=
  t.success == 0 && (rcOthers t).all (fun b => b != 0) && decide ((rcOthers t).Pairwise (fun a b => a ≠ b))

/-- The slot layouts fit the least slot sizes (U12; spec/30_encoding.md R121 to R125). Fields that overlap are not refused
(DESIGN CHOICE, notes/assumptions/43.md). -/
def layoutsFit (cfg : Config) : Bool :=
  decide (cfg.txDesc.addrOff + 8 ≤ cfg.txDesc.minBytes) && decide (cfg.txDesc.lenOff + 2 ≤ cfg.txDesc.minBytes)
    && decide (cfg.txDesc.flagsOff + 2 ≤ cfg.txDesc.minBytes) && decide (cfg.txDesc.vlanOff + 2 ≤ cfg.txDesc.minBytes)
    && decide (cfg.txComp.indexOff + 2 ≤ cfg.txComp.minBytes)
    && decide (cfg.rxDesc.addrOff + 8 ≤ cfg.rxDesc.minBytes) && decide (cfg.rxDesc.lenOff + 2 ≤ cfg.rxDesc.minBytes)
    && decide (cfg.rxComp.statusOff + 1 ≤ cfg.rxComp.minBytes) && decide (cfg.rxComp.lenOff + 2 ≤ cfg.rxComp.minBytes)
    && decide (cfg.rxComp.csumOff + 1 ≤ cfg.rxComp.minBytes)
    && decide (cfg.event.idOff + 2 ≤ cfg.event.minBytes) && decide (cfg.event.codeOff + 2 ≤ cfg.event.minBytes)

/-- The numeric parameters are in the ranges spec/00_scope.md R7 gives them, and have room in the registers: 16 bits for
an index, 64 for an address (spec/10_state.md R30; notes/assumptions/9.md). The unions are whole words, each written or
read by 4-byte accesses (spec/42_devcmd.md R181, R185). -/
def numbersOk (cfg : Config) (units : List UnitConfig) : Bool :=
  decide (1 ≤ units.length ∧ units.length ≤ 256 ∧ 1 ≤ cfg.retryBudget ∧
    cfg.idxW ≤ 16 ∧ cfg.capMax ≤ 2 ^ cfg.idxW ∧ cfg.addrW ≤ 64 ∧
    4 ≤ cfg.dcCmdBytes ∧ cfg.dcCmdBytes % 4 = 0 ∧ 4 ≤ cfg.dcCompBytes ∧ cfg.dcCompBytes % 4 = 0 ∧
    ∀ c ∈ units, c.qid.toNat < 2 ^ cfg.dbQidW ∧ c.ringSel.toNat < 2 ^ cfg.dbRingW)

/-- The model runs the configuration (spec/20_memory.md R78 (d), U12; notes/assumptions/15.md). -/
def configOk (cfg : Config) (units : List UnitConfig) : Bool :=
  numbersOk cfg units && ringsAligned cfg units && regionsOk cfg units && registersAligned cfg units && registersApart cfg units
    && rcOk cfg.rc && layoutsFit cfg

/-- The configuration of a state. -/
def State.configOk (s : State) : Bool := Machine.configOk s.cfg (s.units.map (fun un => un.conf))

/-! ### What happens between operations -/

/-- The requester writes `A<i>` (spec/10_state.md R22). -/
def State.setArg (s : State) (i : Fin 4) (v : Word64) : State :=
  match i with
  | 0 => { s with a0 := v }
  | 1 => { s with a1 := v }
  | 2 => { s with a2 := v }
  | 3 => { s with a3 := v }

/-! ### The requester's book (spec/20_memory.md R87; notes/assumptions/30.md) -/

/-- The addresses of a slot's bytes. -/
def HandSlot.addrs (h : HandSlot) : List Nat := (List.range h.size).map (fun k => h.base + k)

/-- The requester has written ring memory: `n` bytes from `a`. -/
def Duties.wrote (d : Duties) (a n : Nat) : Duties := { d with written := (HandSlot.addrs ⟨0, a, n⟩) ++ d.written }

/-- A slot is posted by hand. -/
def Duties.post (d : Duties) (h : HandSlot) : Duties := { d with posted := h :: d.posted }

/-- The ring of unit `u` starts anew: nothing in it is posted. -/
def Duties.forget (d : Duties) (u : UnitId) : Duties := { d with posted := d.posted.filter (fun h => h.unit ≠ u) }

/-- The slots of unit `u` that are posted by hand and not wholly written. -/
def Duties.owed (d : Duties) (u : UnitId) : List HandSlot :=
  d.posted.filter (fun h => h.unit == u && !h.addrs.all (fun a => d.written.contains a))

/-- Q.DBELL is requested: every slot it announces must have been written, and the next revolution writes it anew. -/
def Duties.announce (d : Duties) (u : UnitId) : Duties :=
  { written := d.written.filter (fun a => !d.posted.any (fun h => h.unit == u && h.addrs.contains a))
    posted := d.posted.filter (fun h => h.unit ≠ u)
    broken := d.owed u ++ d.broken }

/-- The book after operation `i` on the unit `un` is requested. Only an operation that will complete counts. -/
def Duties.onRequest (cfg : Config) (a0 : Word64) (d : Duties) (i : Instr) (u : UnitId) (un : QcqUnit) : Duties :=
  if i = .qAdvHead u ∧ un.q.valid = true ∧ un.space ≠ 0 then
    d.post ⟨u, un.qSlot un.q.head, un.q.descSize.toNat⟩
  else if i = .qDbell u ∧ un.q.valid = true then d.announce u
  else if i = .qInit u ∧ un.q.valid = false ∧ legalCapacity cfg a0 = true then d.forget u
  else d

/-- The book after the request word `w` is written. -/
def State.requestDuties (s : State) (w : Word32) : Duties :=
  match decode w with
  | .error _ => s.duties
  | .ok i =>
    match i.unit? with
    | none => s.duties
    | some u =>
      match s.units[u.toNat]? with
      | none => s.duties
      | some un => s.duties.onRequest s.cfg s.a0 i u un

/-! ### Moves of the outside -/

/-- The device's view of the units is brought up to date (notes/assumptions/19.md, 40.md). -/
def State.sync (s : State) : State := s.withSys (s.sys.sync s.cfg s.units)

/-- The requester writes `REQ`: the block becomes busy; a write while it is busy is ignored (spec/10_state.md R21, R24). -/
def State.request (s : State) (w : Word32) : State :=
  if s.busy then s else { s.sync with req := w, busy := true, duties := s.requestDuties w }

/-- The requester writes ring memory, inside the address space (spec/20_memory.md R72). -/
def State.requesterWrites (s : State) (a : Nat) (bs : List Byte) : State :=
  if a + bs.length ≤ 2 ^ s.cfg.addrW then
    { s with
      sys := { s.sys with mem := s.sys.mem.write a bs }.record (.requesterWrite a bs)
      duties := s.duties.wrote a bs.length }
  else s

/-- One move of the outside between operations. A reset of the NIC by means outside the block ends every command and every
ring the device knows; the device registers, ring memory and `fw_running` stay as they are (DESIGN CHOICE,
notes/assumptions/42.md). -/
def State.hostEvent (s : State) : HostEvent → State
  | .setArg i v => s.setArg i v
  | .setCmd c => { s with ctxCmd := firstBytes s.cfg.dcCmdBytes c }
  | .request w => s.request w
  | .memWrite addr bs => s.requesterWrites addr.toNat bs
  | .dcData k b =>
    if k < s.cfg.dcDataBytes then s.withSys { s.sys with reg := s.sys.reg.set (dcDataAddr s.cfg + k) b } else s
  | .fwRunning b => s.withSys { s.sys with fwRunning := b }
  | .deviceInfo k b =>
    if s.sys.trace = [] then s.withSys { s.sys with reg := s.sys.reg.set (s.cfg.diBase.toNat + k.val) b } else s
  | .device a => s.sync.withSys (s.sync.sys.devAct s.cfg a)
  | .ringTold u => s.sync.withSys (s.sync.sys.tell u)
  | .deviceReset => s.withSys { s.sys with dev := s.sys.dev.nicReset }
  | .bufAnswer a => s.withSys { s.sys with bufAnswers := s.sys.bufAnswers ++ [a] }
  | .resetInput => s.resetInput

/-- The block is idle: the next move of the outside happens, or nothing (spec/60_exceptions.md R301). -/
def State.idle (s : State) : State :=
  match s.inbox with
  | [] => s
  | e :: rest => { s with inbox := rest }.hostEvent e

/-! ### What the requester reads (spec/10_state.md R23) -/

/-- `R0` as the requester reads it: unspecified while `BUSY = 1`. -/
def State.readR0 (s : State) : Byte := if s.busy then Config.busyR0 s.sys.draws else s.r0

/-- `R1` as the requester reads it: unspecified while `BUSY = 1`. -/
def State.readR1 (s : State) : Word64 := if s.busy then Config.busyR1 s.sys.draws else s.r1

end Sys2Proof.Machine
end

