-- ==== Sys2Proof/Machine/Fetch.lean ====
section
/-! DEFINITION. How a request word comes to run: `REQ` is decoded and its operation runs to its end (spec/10_state.md
R21, R24); where the requester places the word (R21). -/

namespace Sys2Proof.Machine

/-- The operation `REQ` names runs; a word that names none is illegal (spec/60_exceptions.md R287). -/
def State.runRequest (s : State) : Result :=
  match decode s.req with
  | .ok i => exec i s
  | .error _ => s.illegal

/-- A run that has left the spec goes no further (spec/93_implementation_defined.md U10, U18; notes/assumptions/20.md,
40.md). Otherwise the block runs its request, or the outside moves. -/
def State.proceed (s : State) : Result :=
  match s.sys.dev.breach with
  | some b => .fault b.fault
  | none => if s.busy then s.runRequest else .next s.idle

/-- The request word stands in `REQ` and the block is busy, as after the requester's write (spec/10_state.md R21). Only that:
the book of spec/20_memory.md R87 and the device's view are brought up to date where HostEvent.request makes the write
(DESIGN CHOICE, notes/assumptions/30.md). -/
def State.placeRequest (s : State) (w : Word32) : State := { s with req := w, busy := true }

end Sys2Proof.Machine
end

