-- ==== Sys2Proof/Machine/Step.lean ====
section
/-! DEFINITION. One step: while the block is busy, the whole operation that `REQ` names (spec/10_state.md R21, R24);
while it is idle, one move of the outside (notes/assumptions/1.md). A configuration the spec gives no meaning is refused
(spec/20_memory.md R78 (d)), and a run that has left the spec goes no further (spec/93_implementation_defined.md U10,
U18). -/

namespace Sys2Proof.Machine

def step (s : State) : Host.Outcome State Fault Refusal :=
  if s.configOk then s.proceed else .refused .badConfig

/-- The request word is where a step looks for its operation: it stands for the requester's write of `REQ`
(spec/10_state.md R21; notes/assumptions/1.md). Every request has 32 bits (spec/30_encoding.md R100). -/
def State.withFetchWord (s : State) (nbits w : Nat) : State := s.placeRequest (BitVec.ofNat 32 (w % 2 ^ nbits))

end Sys2Proof.Machine
end

