-- ==== Sys2Proof/Safety.lean ====
section
/-! DEFINITION. The notions claims are stated in: the invariants of spec/10_state.md R31, R34, R36, the state
preconditions of spec/60_exceptions.md R286 as one table, a silent device, and what the record of the ports shows. -/

namespace Sys2Proof.Machine

/-! ### Answers -/

/-- The operation completes in state `t`. -/
def Runs (i : Instr) (s t : State) : Prop := exec i s = .next t

/-- The operation `i` acts on unit `u`, whose registers are `un`: the unit exists and has the role `i` is tied to
(spec/30_encoding.md R105, R106). -/
def ActsOn (i : Instr) (u : UnitId) (s : State) (un : QcqUnit) : Prop :=
  s.units[u.toNat]? = some un ∧ i.roleOk un.conf.role = true

/-! ### Invariants -/

/-- Queue invariants (spec/10_state.md R31 (a), (b)). With (b) the number in flight is at most capacity - 1 (c). -/
def Queue.Inv (cfg : Config) (q : Queue) : Prop :=
  q.valid = true →
    isPow2 q.capacity.toNat = true ∧ cfg.capMin ≤ q.capacity.toNat ∧ q.capacity.toNat ≤ cfg.capMax ∧
    q.head.toNat < q.capacity.toNat ∧ q.tail.toNat < q.capacity.toNat

/-- Completion-ring invariants (spec/10_state.md R34 (a), (b)): a bound ring belongs to a valid pair and its tail is below
the capacity; an unbound one has not been consumed from. -/
def QcqUnit.CompInv (un : QcqUnit) : Prop :=
  (un.cq.bound = true → un.cq.valid = true ∧ un.q.valid = true ∧ un.cq.tail.toNat < un.cap) ∧
  (un.cq.valid = true → un.cq.bound = false → un.cq.tail = 0)

/-- A unit's registers are in order, and its side table is in canonical form. -/
def QcqUnit.Inv (cfg : Config) (un : QcqUnit) : Prop :=
  un.q.Inv cfg ∧ un.CompInv ∧ un.side.wf = true

/-- Every unit is in order. -/
def State.RingInv (s : State) : Prop := ∀ un ∈ s.units, un.Inv s.cfg

/-- Both stores are in canonical form. -/
def State.MemInv (s : State) : Prop := s.sys.mem.wf = true ∧ s.sys.reg.wf = true

/-- Slot `i` is in flight (spec/10_state.md R31 (d)). -/
def QcqUnit.InFlightSlot (un : QcqUnit) (i : Nat) : Prop :=
  i < un.cap ∧ modNat ((i : Int) - (un.q.tail.toNat : Int)) un.cap < un.inFlight

/-- The side-table invariant of `Tx` and `Rx` units (spec/10_state.md R36, spec/45_txrx.md R252): the valid entries are
exactly the slots in flight. -/
def QcqUnit.SideInv (un : QcqUnit) : Prop := ∀ i, (un.side.get i).valid = true ↔ un.InFlightSlot i

/-! ### Preconditions -/

/-- The condition `p` of the unit the operation acts on, where there is one. -/
def State.unitCond (s : State) (u : UnitId) (p : QcqUnit → Bool) : Bool :=
  match s.units[u.toNat]? with
  | none => true
  | some un => p un

/-- The state precondition of each operation (spec/60_exceptions.md R286). -/
def precondition (s : State) : Instr → Bool
  | .qInit u => s.unitCond u (fun un => !un.q.valid)
  | .qSpace u => s.unitCond u (fun un => un.q.valid)
  | .qHasSpace u _ => s.unitCond u (fun un => un.q.valid)
  | .qAdvHead u => s.unitCond u (fun un => un.q.valid)
  | .qAdvTail u => s.unitCond u (fun un => un.q.valid && decide (0 < un.inFlight))
  | .qDbell u => s.unitCond u (fun un => un.q.valid)
  | .cqInit u => s.unitCond u (fun un => !un.cq.valid)
  | .cqBind u => s.unitCond u (fun un => un.cq.valid && !un.cq.bound && un.q.valid)
  | .cqPend u => s.unitCond u (fun un => un.cqReady)
  | .cqNext u => s.unitCond u (fun un => un.cqReady)
  | .qcqDown u => s.unitCond u (fun un => !un.side.anyValid)
  | .dcPost => s.dcState.mayPost
  | .dcWait _ => s.dcState == .posted
  | .dcStatus => s.dcState == .done
  | .dcGo _ => !s.dcGate && s.dcState.mayPost
  | .diCheck => true
  | .aqPostWait u => s.unitCond u (fun un => un.adminReady s.cfg)
  | .nqPoll u _ => s.unitCond u (fun un => un.notifyReady s.cfg)
  | .txXmit u => s.unitCond u (fun un => un.txReady s.cfg)
  | .txPoll u => s.unitCond u (fun un => un.txReady s.cfg)
  | .rxFill u _ => s.unitCond u (fun un => un.rxReady s.cfg)
  | .rxPoll u => s.unitCond u (fun un => un.rxReady s.cfg)
  | .qcqFlush u => s.unitCond u (fun un => un.q.valid)
  | .reset => true

/-! ### Result codes -/

/-- The codes an operation can end with (spec/60_exceptions.md R282). -/
def codesOf : Instr → List ResultCode
  | .qInit _ => [.ok, .badState, .illegalRequest, .invalidArgument]
  | .qSpace _ => [.ok, .badState, .illegalRequest]
  | .qHasSpace _ _ => [.ok, .badState, .illegalRequest]
  | .qAdvHead _ => [.ok, .badState, .illegalRequest, .noSpace]
  | .qAdvTail _ => [.ok, .badState, .illegalRequest]
  | .qDbell _ => [.ok, .badState, .illegalRequest]
  | .cqInit _ => [.ok, .badState, .illegalRequest]
  | .cqBind _ => [.ok, .badState, .illegalRequest]
  | .cqPend _ => [.ok, .badState, .illegalRequest]
  | .cqNext _ => [.ok, .badState, .illegalRequest]
  | .qcqDown _ => [.ok, .badState, .illegalRequest]
  | .dcPost => [.ok, .badState, .illegalRequest]
  | .dcWait _ => [.ok, .badState, .illegalRequest, .timedOut]
  | .dcStatus => [.ok, .badState, .illegalRequest]
  | .dcGo _ => [.ok, .badState, .illegalRequest, .timedOut, .ioError, .deviceRejected]
  | .diCheck => [.ok, .illegalRequest, .badSignature]
  | .aqPostWait _ => [.ok, .badState, .illegalRequest, .firmwareDown, .noSpace, .timedOut, .deviceRejected]
  | .nqPoll _ _ => [.ok, .badState, .illegalRequest]
  | .txXmit _ => [.ok, .badState, .illegalRequest, .noSpace]
  | .txPoll _ => [.ok, .badState, .illegalRequest, .badCompletion]
  | .rxFill _ _ => [.ok, .badState, .illegalRequest]
  | .rxPoll _ => [.ok, .badState, .illegalRequest, .badCompletion]
  | .qcqFlush _ => [.ok, .badState, .illegalRequest]
  | .reset => [.ok, .illegalRequest]

/-- The operation touches neither ring memory nor device registers (spec/20_memory.md R81). -/
def touchesNoPort : Instr → Bool
  | .qInit _ => true
  | .qSpace _ => true
  | .qHasSpace _ _ => true
  | .qAdvHead _ => true
  | .qAdvTail _ => true
  | .cqInit _ => true
  | .cqBind _ => true
  | .cqNext _ => true
  | .qcqDown _ => true
  | .reset => true
  | .qDbell _ => false
  | .cqPend _ => false
  | .dcPost => false
  | .dcWait _ => false
  | .dcStatus => false
  | .dcGo _ => false
  | .diCheck => false
  | .aqPostWait _ => false
  | .nqPoll _ _ => false
  | .txXmit _ => false
  | .txPoll _ => false
  | .rxFill _ _ => false
  | .rxPoll _ => false
  | .qcqFlush _ => false

/-- The operation writes ring memory: it posts a descriptor itself (spec/20_memory.md R72, R81). -/
def storesDescriptor : Instr → Bool
  | .aqPostWait _ => true
  | .txXmit _ => true
  | .rxFill _ _ => true
  | .qInit _ => false
  | .qSpace _ => false
  | .qHasSpace _ _ => false
  | .qAdvHead _ => false
  | .qAdvTail _ => false
  | .qDbell _ => false
  | .cqInit _ => false
  | .cqBind _ => false
  | .cqPend _ => false
  | .cqNext _ => false
  | .qcqDown _ => false
  | .dcPost => false
  | .dcWait _ => false
  | .dcStatus => false
  | .dcGo _ => false
  | .diCheck => false
  | .nqPoll _ _ => false
  | .txPoll _ => false
  | .rxPoll _ => false
  | .qcqFlush _ => false
  | .reset => false

/-- Address `a` is a command, done or doorbell register of the device-command region (spec/10_state.md R43). -/
def isDcRegister (cfg : Config) (a : Nat) : Bool :=
  (decide (dcDoorbellAddr cfg ≤ a) && decide (a < dcDoorbellAddr cfg + 4)) ||
  (decide (dcDoneAddr cfg ≤ a) && decide (a < dcDoneAddr cfg + 4)) ||
  (decide (dcCmdAddr cfg ≤ a) && decide (a < dcCmdAddr cfg + cfg.dcCmdBytes))

/-- Address `a` is in the doorbell mailbox of unit `u` (spec/10_state.md R45). -/
def State.inMailbox (s : State) (u : UnitId) (a : Nat) : Bool :=
  match s.units[u.toNat]? with
  | none => false
  | some un => decide (un.conf.dbAddr.toNat ≤ a) && decide (a < un.conf.dbAddr.toNat + mailboxBytes)

/-- The operation may write the register byte `a` (spec/20_memory.md R81). -/
def mayWriteRegister (s : State) (i : Instr) (a : Nat) : Bool :=
  match i with
  | .dcPost => isDcRegister s.cfg a
  | .dcGo _ => isDcRegister s.cfg a
  | .qDbell u => s.inMailbox u a
  | .aqPostWait u => s.inMailbox u a
  | .txXmit u => s.inMailbox u a
  | .rxFill u _ => s.inMailbox u a
  | .qInit _ => false
  | .qSpace _ => false
  | .qHasSpace _ _ => false
  | .qAdvHead _ => false
  | .qAdvTail _ => false
  | .cqInit _ => false
  | .cqBind _ => false
  | .cqPend _ => false
  | .cqNext _ => false
  | .qcqDown _ => false
  | .dcWait _ => false
  | .dcStatus => false
  | .diCheck => false
  | .nqPoll _ _ => false
  | .txPoll _ => false
  | .rxPoll _ => false
  | .qcqFlush _ => false
  | .reset => false

/-! ### A silent device -/

/-- Neither the device nor any input moves in the scheduled slots; the order of byte accesses is still free. -/
def Sys.Quiet (y : Sys) : Prop := ∀ sl ∈ y.sched, sl.acts = []

/-- The device takes no step during the operation that runs next. -/
def State.Quiet (s : State) : Prop := s.sys.Quiet

/-! ### The record of the ports -/

/-- How many port events satisfy `p`. -/
def Sys.count (p : PortEvent → Bool) (y : Sys) : Nat := y.trace.countP p

/-- The event is a register read of `DC_DONE`. -/
def PortEvent.isDoneRead (cfg : Config) : PortEvent → Bool
  | .regRead a _ => a == dcDoneAddr cfg
  | _ => false

/-- The event is the write that triggers a device command. -/
def PortEvent.isTrigger (cfg : Config) : PortEvent → Bool
  | .regWrite a bs => a == dcDoorbellAddr cfg && bs == [1, 0, 0, 0]
  | _ => false

/-- The event is a tick. -/
def PortEvent.isTick : PortEvent → Bool
  | .tick => true
  | _ => false

/-- The event is a doorbell value written to the mailbox `a` (spec/40_queue.md R150). -/
def PortEvent.isDoorbell (a : Nat) : PortEvent → Bool
  | .regWrite b bs => b == a && bs.length == 8
  | _ => false

/-- The event is a call on the buffer-manager port that hands a buffer back (spec/10_state.md R29). -/
def PortEvent.isHandBack : PortEvent → Bool
  | .bufRetire _ => true
  | .bufDeliver _ _ _ => true
  | .bufRelease _ => true
  | .bufCancel _ => true
  | _ => false

/-- The buffers handed back so far, newest first. -/
def Sys.handBacks (y : Sys) : List PortEvent := y.trace.filter PortEvent.isHandBack

/-- The slots from `i` on, `n` of them, in ring order (spec/40_queue.md R154). -/
def ringOrder (i n C : Nat) : List Nat := (List.range n).map (fun k => (i + k) % C)

/-- The event is an EVT pulse (spec/44_notifyq.md R219). -/
def PortEvent.isPulse : PortEvent → Bool
  | .notifyLinkChange => true
  | .notifyReset => true
  | _ => false

/-- The event is an access by which DC.STATUS and DC.GO read the status: one byte at `DC_COMP` (spec/42_devcmd.md R185). -/
def PortEvent.isStatusRead (cfg : Config) : PortEvent → Bool
  | .regRead a bs => a == dcCompAddr cfg && bs.length == 1
  | _ => false

/-- The record of a poll loop on the byte at `a` with the bytes it read, newest first: one tick between two reads
(spec/43_adminq.md R203). -/
def pollTrace (a : Nat) : List Byte → List PortEvent
  | [] => []
  | [b] => [.memRead a [b]]
  | b :: c :: rest => .memRead a [b] :: .tick :: pollTrace a (c :: rest)

/-- The pulse of an event record (spec/44_notifyq.md R219, R220). -/
def pulseOf (cfg : Config) (code : Word16) : List PortEvent :=
  if code = cfg.ecLinkChange then [.notifyLinkChange] else if code = cfg.ecReset then [.notifyReset] else []

/-- The event is a call of BufAlloc. -/
def PortEvent.isAlloc : PortEvent → Bool
  | .bufAlloc _ _ => true
  | _ => false

/-- The requester has kept the duty of spec/20_memory.md R87 so far: no Q.DBELL was requested before the descriptors it
announces were written. -/
def State.DescriptorsWritten (s : State) : Prop := s.duties.broken = []

/-- The model goes on from the state: its configuration is in order and the run has not left the spec. -/
def State.goesOn (s : State) : Bool := s.configOk && s.sys.dev.breach.isNone

/-! ### The colour protocol as a whole (spec/41_completion_ring.md R169, R170) -/

/-- How many of the first `n` completions of a ring of `C` slots went to slot `i` (spec/46_device_contract.md R263). -/
def fillsOf (n C i : Nat) : Nat := (n + C - 1 - i) / C

/-- The address of the colour byte of slot `i`. -/
def DevRing.colorAddr (r : DevRing) (i : Nat) : Nat := r.cqBase.toNat + i * r.cqSize + (r.cqSize - 1)

/-- Every slot's colour bit is that of the latest completion in the slot, and not `INIT_DONE_COLOR` where there is none
(spec/41_completion_ring.md R170, spec/20_memory.md R83). -/
def DevRing.Shown (cfg : Config) (mem : Memory) (r : DevRing) : Prop :=
  ∀ i < r.cap, (mem.get (r.colorAddr i)).getLsbD 7 = Bool.xor cfg.initDoneColor (fillsOf r.produced r.cap i % 2 == 0)

/-- The device's ring is the completion ring of the unit. -/
def DevRing.isRingOf (r : DevRing) (un : QcqUnit) : Prop :=
  r.cqBase = un.conf.cqBase ∧ r.cqSize = un.cq.descSize.toNat ∧ r.cap = un.cap ∧ 0 < r.cap ∧ 1 ≤ r.cqSize

/-- The unit stands where `m` consumptions leave it (spec/41_completion_ring.md R169). -/
def QcqUnit.hasConsumed (cfg : Config) (un : QcqUnit) (m : Nat) : Prop :=
  un.cq.tail.toNat = m % un.cap ∧ un.cq.doneColor = Bool.xor cfg.initDoneColor (m / un.cap % 2 == 1)

/-- The completion rings do not meet. -/
def DevRing.apart (r w : DevRing) : Prop :=
  0 < w.cap ∧ rangesApart (r.cqBase.toNat, r.cap * r.cqSize) (w.cqBase.toNat, w.cap * w.cqSize) = true

/-- The device's view of ring `v` is the same in both states, but for the commands noted as having created a queue. -/
def Sys.sameRing (y z : Sys) (v : Nat) : Prop :=
  (z.dev.rings[v]?).map (fun r => { r with created := 0 }) = (y.dev.rings[v]?).map (fun r => { r with created := 0 })

/-- From `y` to `z` the device has been told at most of ring `u`, and of it only as it stood on offer, which it then no
longer does (spec/46_device_contract.md R265). -/
def Sys.TellsOnly (y z : Sys) (u : Nat) : Prop :=
  z = { y with dev := { y.dev with rings := z.dev.rings, offers := z.dev.offers, cmds := z.dev.cmds } } ∧
  (∀ v, v ≠ u → z.dev.offers[v]? = y.dev.offers[v]? ∧ y.sameRing z v) ∧
  ((z.dev.offers[u]? = y.dev.offers[u]? ∧ y.sameRing z u) ∨
    ∃ r, y.dev.offers[u]? = some (.new r) ∧ z.dev.offers[u]? = some .taken ∧
      z.dev.rings[u]? = if u < y.dev.rings.length then some r else none)

/-- What the requester owes before CQ.NEXT (spec/70_reset_and_hazards.md R323): the tail slot is pending in memory. -/
def QcqUnit.tailPending (un : QcqUnit) (y : Sys) : Bool :=
  (y.mem.get (un.colorAddr un.cq.tail)).getLsbD 7 == un.cq.doneColor

end Sys2Proof.Machine
end

