-- ==== Sys2Proof/Certificates/Slice0/Obligations.lean ====
section
/-! DEFINITION. The statements for the provers. Each docstring names the rules of spec/ it formalises. -/

open Sys2Proof Sys2Proof.Machine

/-! ### Encoding (spec/30_encoding.md) -/

/-- Decoding the request word of any operation gives the operation back, with every operand at every value (R103, R107). -/
def Obligations.DecodeOfEncode : Prop := ∀ i : Instr, decode (encode i) = .ok i

/-- A request word that decodes is the one the encoder writes: each word has one meaning, and no bit of it is ignored
(R102, R103). -/
def Obligations.EncodeOfDecode : Prop := ∀ (w : Word32) (i : Instr), decode w = .ok i → encode i = w

/-- The decoder accepts exactly the words of the rows of spec/opcode_table.json, gives a word to its own row, no word
belongs to two rows, and every operation code outside the table is reserved (R102, R103, R104, R105 (a), (b)). -/
def Obligations.DecoderFollowsTheTable : Prop :=
  (∀ (w : Word32) (i : Instr), decode w = .ok i → ∃ r, opRows[i.row]? = some r ∧ r.holds w = true) ∧
  (∀ (w : Word32) (r : OpRow), r ∈ opRows → r.holds w = true → ∃ i, decode w = .ok i) ∧
  opRows.Pairwise (fun a b => ∀ w : Word32, ¬ (a.holds w = true ∧ b.holds w = true)) ∧
  (∀ w : Word32, (∀ r ∈ opRows, opOf w ≠ opOf r.value) → decode w = .error .reservedOp)

/-- Request words of spec/95_test_vectors.md section 2.1, one or more for each family. -/
def Obligations.SampleWordsDecode : Prop :=
  decode 0x00000101 = .ok (.qInit 1) ∧ decode 0xFFFF0303 = .ok (.qHasSpace 3 65535) ∧
  decode 0x0000020A = .ok (.cqPend 2) ∧ decode 0x00020011 = .ok (.dcWait 2) ∧ decode 0x00000010 = .ok .dcPost ∧
  decode 0x00000018 = .ok (.aqPostWait 0) ∧ decode 0x0001011C = .ok (.nqPoll 1 true) ∧
  decode 0x0000011C = .ok (.nqPoll 1 false) ∧ decode 0x00000220 = .ok (.txXmit 2) ∧
  decode 0x05EA0322 = .ok (.rxFill 3 1514) ∧ decode 0x0000003F = .ok .reset ∧
  decode 0x0000013F = .error .mustBeZero ∧ decode 0x0002011C = .error .mustBeZero ∧
  decode 0x00000015 = .error .reservedOp

/-! ### The step (spec/10_state.md R21, R24) -/

/-- When the word in `REQ` decodes to an operation, a step of the busy block is that operation, whole; placing a word
where the step looks for it makes it the next operation. A configuration that breaks the layout rules is refused, whatever
is requested, and a run that has left the spec faults (U10, U12, U18; spec/20_memory.md R78 (d)). The model's choice: that
one step is one whole operation, and that State.withFetchWord stands for the requester's write (notes/assumptions/1.md);
which configurations are refused (notes/assumptions/15.md); when the run has left the spec (notes/assumptions/20.md,
40.md). -/
def Obligations.StepRunsTheRequestedOperation : Prop :=
  (∀ (s : State) (i : Instr), s.goesOn = true → s.busy = true → decode s.req = .ok i → step s = exec i s) ∧
  (∀ (s : State) (w : Nat) (i : Instr), s.goesOn = true → decode (BitVec.ofNat 32 w) = .ok i → w < 2 ^ 32 →
    step (s.withFetchWord 32 w) = exec i (s.withFetchWord 32 w)) ∧
  (∀ s : State, s.configOk = false → step s = .refused .badConfig) ∧
  (∀ (s : State) (b : Breach), s.configOk = true → s.sys.dev.breach = some b → step s = .fault b.fault)

/-- A write of `REQ` makes an idle block busy and changes nothing else of the block, and is ignored while the block is
busy, between operations and inside one (R21, R24). An idle block with nothing arriving stays as it is, and otherwise takes
the next move of `inbox` (the model's choice, notes/assumptions/1.md). The write brings the device's view of the rings up
to date (the model's choice, notes/assumptions/19.md, 40.md) and is where the model checks the duty of spec/20_memory.md
R87 (the form of the check is the model's, notes/assumptions/30.md): Q.ADVHEAD posts the slot at the head by hand; Q.DBELL
breaks the duty exactly when a byte of a slot it announces has not been written by the requester, and these slots then have
to be written anew; no other request breaks it, and no Q.DBELL of a unit that does not exist or is not valid; and what the
requester has written is what its writes of ring memory cover. A write of `A<i>` changes that register alone, and a write of
`CTX.cmd` that buffer alone, which then holds the bytes written (R22, R25). -/
def Obligations.RequestPort : Prop :=
  (∀ (s : State) (w : Word32), s.busy = false → ∃ (rings : List DevRing) (offers : List Offer),
    s.hostEvent (.request w) =
      { s with
        req := w, busy := true, duties := s.requestDuties w
        sys := { s.sys with dev := { s.sys.dev with rings := rings, offers := offers } } }) ∧
  (∀ (s : State) (w : Word32), s.busy = true → s.hostEvent (.request w) = s) ∧
  (∀ (cfg : Config) (y : Sys) (w : Word32), y.envAct cfg (.requestWhileBusy w) = y) ∧
  (∀ s : State, s.goesOn = true → s.busy = false → s.inbox = [] → step s = .next s) ∧
  (∀ (s : State) (e : HostEvent) (rest : List HostEvent), s.goesOn = true → s.busy = false → s.inbox = e :: rest →
    step s = .next ({ s with inbox := rest }.hostEvent e)) ∧
  (∀ (s : State) (w : Word32) (u : UnitId) (un : QcqUnit), s.busy = false → s.units[u.toNat]? = some un →
    un.q.valid = true →
    (decode w = .ok (.qAdvHead u) → un.space ≠ 0 →
      (s.hostEvent (.request w)).duties.posted = ⟨u, un.qSlot un.q.head, un.q.descSize.toNat⟩ :: s.duties.posted) ∧
    (decode w = .ok (.qDbell u) →
      ((s.hostEvent (.request w)).duties.broken = s.duties.broken ↔
        ∀ h ∈ s.duties.posted, h.unit = u → ∀ k < h.size, h.base + k ∈ s.duties.written) ∧
      (∀ h ∈ s.duties.posted, h.unit = u → ∀ k < h.size,
        h.base + k ∉ (s.hostEvent (.request w)).duties.written) ∧
      ∀ h ∈ (s.hostEvent (.request w)).duties.posted, h.unit ≠ u)) ∧
  (∀ (s : State) (w : Word32),
    (∀ u, decode w = .ok (.qDbell u) → ∀ un, s.units[u.toNat]? = some un → un.q.valid = false) →
    (s.hostEvent (.request w)).duties.broken = s.duties.broken ∧
    (s.hostEvent (.request w)).duties.written = s.duties.written) ∧
  (∀ (s : State) (addr : Addr) (bs : List Byte), addr.toNat + bs.length ≤ 2 ^ s.cfg.addrW → ∀ a : Nat,
    (a ∈ (s.hostEvent (.memWrite addr bs)).duties.written ↔
      (addr.toNat ≤ a ∧ a < addr.toNat + bs.length) ∨ a ∈ s.duties.written)) ∧
  (∀ (s : State) (v : Word64),
    s.hostEvent (.setArg 0 v) = { s with a0 := v } ∧ s.hostEvent (.setArg 1 v) = { s with a1 := v } ∧
    s.hostEvent (.setArg 2 v) = { s with a2 := v } ∧ s.hostEvent (.setArg 3 v) = { s with a3 := v }) ∧
  (∀ (s : State) (c : List Byte), ∃ b : List Byte, s.hostEvent (.setCmd c) = { s with ctxCmd := b } ∧
    b.length = s.cfg.dcCmdBytes ∧ ∀ k < s.cfg.dcCmdBytes, b.getD k 0 = c.getD k 0)

/-- An illegal request ends with IllegalRequest and the request word, and changes nothing else: a word that does not
decode, a unit that does not exist, a unit of the wrong role (spec/60_exceptions.md R287). A `REQ` write while busy is no
illegal request: it writes nothing. The model's reading: where exec is asked for an operation that `REQ` does not hold, the
word reported is still the one in `REQ` (notes/assumptions/22.md). -/
def Obligations.IllegalRequestChangesNothing : Prop :=
  (∀ (s : State) (e : DecodeError), s.goesOn = true → s.busy = true → decode s.req = .error e →
    step s = .next { s with r0 := 9, r1 := s.req.zeroExtend 64, busy := false }) ∧
  (∀ (i : Instr) (s : State), i.wf s.roles = false →
    exec i s = .next { s with r0 := 9, r1 := s.req.zeroExtend 64, busy := false }) ∧
  (∀ (s : State) (w : Word32), s.busy = true → s.hostEvent (.request w) = s)

/-- Every operation whose state precondition is false ends with BadState and `R1 = 0`, and changes nothing else: the
complete table of spec/60_exceptions.md R286. -/
def Obligations.FalsePreconditionIsBadState : Prop :=
  ∀ (i : Instr) (s : State), i.wf s.roles = true → precondition s i = false →
    exec i s = .next { s with r0 := 8, r1 := 0, busy := false }

/-- An operation that completes leaves the block not busy and ends with one of the codes the matrix gives it, never with
another (spec/60_exceptions.md R282, spec/10_state.md R21). -/
def Obligations.ResultCodeMatrix : Prop :=
  ∀ (i : Instr) (s t : State), exec i s = .next t → t.busy = false ∧ ∃ X ∈ codesOf i, t.r0 = codeByte X

/-! ### What no operation changes -/

/-- No operation writes an argument register, the command buffer, the request register, the configuration, or what waits
outside; only AQ.POSTWAIT, DC.STATUS and DC.GO write the completion buffer (spec/10_state.md R22, R25, R27). RESET alone
makes `REQ` 0 (the model's reading, notes/assumptions/36.md). That no operation takes from `inbox` is the model's own:
`inbox` is no state of the spec (notes/assumptions/1.md). -/
def Obligations.InputsPersist : Prop :=
  ∀ (i : Instr) (s t : State), exec i s = .next t →
    t.a0 = s.a0 ∧ t.a1 = s.a1 ∧ t.a2 = s.a2 ∧ t.a3 = s.a3 ∧ t.ctxCmd = s.ctxCmd ∧ t.cfg = s.cfg ∧
    t.req = (if i = .reset then 0 else s.req) ∧
    t.inbox = s.inbox ∧ t.units.map (fun un => un.conf) = s.units.map (fun un => un.conf) ∧
    (t.ctxComp = s.ctxComp ∨ (∃ u, i = .aqPostWait u) ∨ i = .dcStatus ∨ ∃ n, i = .dcGo n)

/-- An operation other than RESET changes the registers of no unit but its own (spec/30_encoding.md R102). -/
def Obligations.OtherUnitsUnchanged : Prop :=
  ∀ (i : Instr) (s t : State), i ≠ .reset → exec i s = .next t →
    ∀ v : Nat, (∀ u, i.unit? = some u → u.toNat ≠ v) → t.units[v]? = s.units[v]?

/-- The operations that touch no port leave memory, registers, the device, the schedule and the record as they are: those
that spec/20_memory.md R81 says reach neither address space, but QCQ.FLUSH, which calls the BUF port. -/
def Obligations.RegisterOnlyOperationsTouchNoPort : Prop :=
  ∀ (i : Instr) (s t : State), touchesNoPort i = true → exec i s = .next t → t.sys = s.sys

/-- With a silent device, an operation that posts no descriptor leaves every byte of ring memory alone: the block never
writes a completion slot (spec/20_memory.md R72, R81). -/
def Obligations.NonStoringOperationsKeepMemory : Prop :=
  ∀ (i : Instr) (s t : State), storesDescriptor i = false → s.Quiet → exec i s = .next t → t.sys.mem = s.sys.mem

/-- With a silent device, an operation that posts descriptors changes only the bytes of the slots from the old head on:
one slot for AQ.POSTWAIT and TX.XMIT, as many as it reports for RX.FILL (spec/20_memory.md R72, R80). -/
def Obligations.StoringOperationsWriteTheirSlots : Prop :=
  ∀ (u : UnitId) (mtu : Word16) (s t : State) (un : QcqUnit) (i : Instr) (n : Nat),
    (i = .aqPostWait u ∧ n = 1 ∨ i = .txXmit u ∧ n = 1 ∨ i = .rxFill u mtu ∧ n = t.r1.toNat) →
    ActsOn i u s un → un.Inv s.cfg → s.cfg.capMax ≤ 65536 → s.Quiet → s.MemInv → exec i s = .next t →
    ∀ a : Nat,
      (∀ j ∈ ringOrder un.q.head.toNat n un.cap,
        a < un.qSlot (BitVec.ofNat 16 j) ∨ un.qSlot (BitVec.ofNat 16 j) + un.q.descSize.toNat ≤ a) →
      t.sys.mem.get a = s.sys.mem.get a

/-- With a silent device, an operation changes no byte of register space but those R81 lets it write: the command, done
and doorbell registers for DC.POST and DC.GO, the unit's mailbox for the operations that ring it
(spec/20_memory.md R81). -/
def Obligations.RegisterSpaceFrame : Prop :=
  ∀ (i : Instr) (s t : State), s.Quiet → exec i s = .next t →
    ∀ a : Nat, mayWriteRegister s i a = false → t.sys.reg.get a = s.sys.reg.get a

/-! ### Reset (spec/10_state.md R60, spec/70_reset_and_hazards.md) -/

/-- The machine after reset, where R60 gives the value. -/
def Obligations.ResetValues : Prop :=
  State.reset.req = 0 ∧ State.reset.busy = false ∧ State.reset.r0 = 0 ∧ State.reset.r1 = 0 ∧
  State.reset.dcState = .idle ∧ State.reset.dcGate = false ∧
  ∀ un ∈ State.reset.units,
    un.q.valid = false ∧ un.cq.valid = false ∧ un.cq.bound = false ∧ un.q.capacity = 0 ∧ un.q.descSize = 0 ∧
    un.q.sgDescSize = 0 ∧ un.cq.descSize = 0 ∧ un.q.head = 0 ∧ un.q.tail = 0 ∧ un.cq.tail = 0 ∧
    un.cq.doneColor = true ∧ un.lastSeenId = 0 ∧ ∀ i, (un.side.get i).valid = false

/-- RESET completes from every state, puts every unit and the device-command channel at their reset values, forgets every
buffer, clears the port, and changes nothing else; the reset input does the same (spec/70_reset_and_hazards.md R310, R311).
The model's reading: `last_seen_id` goes to `NQ_INIT_LAST_ID` (notes/assumptions/12.md), and `REQ` goes to 0 by RESET too
(notes/assumptions/36.md). -/
def Obligations.ResetOperation : Prop :=
  ∀ s : State,
    ∃ units : List QcqUnit,
      exec .reset s =
        .next { s with units := units, dcState := .idle, dcGate := false, r0 := 0, r1 := 0, busy := false, req := 0 } ∧
      s.hostEvent .resetInput =
        { s with units := units, dcState := .idle, dcGate := false, r0 := 0, r1 := 0, busy := false, req := 0 } ∧
      units.length = s.units.length ∧
      ∀ (k : Nat) (un un' : QcqUnit), s.units[k]? = some un → units[k]? = some un' →
        un'.conf = un.conf ∧
        un'.q = { valid := false, capacity := 0, descSize := 0, sgDescSize := 0, head := 0, tail := 0 } ∧
        un'.cq = { valid := false, bound := false, descSize := 0, tail := 0, doneColor := s.cfg.initDoneColor } ∧
        un'.lastSeenId = s.cfg.nqInitLastId ∧ ∀ i, (un'.side.get i).valid = false

/-! ### The descriptor ring (spec/40_queue.md) -/

/-- Q.INIT of a legal capacity on a unit that is not valid: the Queue's registers, no valid side-table entry below the
capacity, and nothing else; one slot less than the capacity is free afterwards (R141). -/
def Obligations.QInitInstallsTheQueue : Prop :=
  ∀ (u : UnitId) (s : State) (un : QcqUnit), ActsOn (.qInit u) u s un → un.q.valid = false →
    legalCapacity s.cfg s.a0 = true → s.cfg.capMax ≤ 65536 → un.side.wf = true →
    ∃ un' : QcqUnit,
      exec (.qInit u) s = .next { s with units := s.units.set u.toNat un', r0 := 0, r1 := 0, busy := false } ∧
      un'.conf = un.conf ∧ un'.cq = un.cq ∧ un'.lastSeenId = un.lastSeenId ∧
      un'.q.valid = true ∧ un'.q.capacity.toNat = s.a0.toNat ∧ un'.q.descSize = s.a1.extractLsb' 0 32 ∧
      un'.q.sgDescSize = s.a2.extractLsb' 0 32 ∧ un'.q.head = 0 ∧ un'.q.tail = 0 ∧ un'.space + 1 = s.a0.toNat ∧
      (∀ i < s.a0.toNat, (un'.side.get i).valid = false) ∧ (∀ i, s.a0.toNat ≤ i → un'.side.get i = un.side.get i) ∧
      ∀ i, (un'.side.get i).handle = (un.side.get i).handle

/-- Q.INIT of any other capacity changes nothing and reports the capacity; with the bounds of the source the legal
capacities are exactly fifteen (R141). -/
def Obligations.QInitRejectsOtherCapacities : Prop :=
  (∀ (u : UnitId) (s : State) (un : QcqUnit), ActsOn (.qInit u) u s un → un.q.valid = false →
    legalCapacity s.cfg s.a0 = false → exec (.qInit u) s = .next { s with r0 := 1, r1 := s.a0, busy := false }) ∧
  (∀ (cfg : Config) (a : Word64), cfg.capMin = 4 → cfg.capMax = 65536 →
    (legalCapacity cfg a = true ↔ ∃ k : Nat, 2 ≤ k ∧ k ≤ 16 ∧ a.toNat = 2 ^ k))

/-- Q.SPACE and Q.HASSPACE report on the free slots and write nothing else (R142, R143): `f` is the number in flight,
`(head - tail) mod C`. -/
def Obligations.SpaceReports : Prop :=
  ∀ (u : UnitId) (n : Word16) (s : State) (un : QcqUnit) (f : Nat), s.units[u.toNat]? = some un → un.q.valid = true →
    (f : Int) = ((un.q.head.toNat : Int) - un.q.tail.toNat) % un.q.capacity.toNat →
    exec (.qSpace u) s =
      .next { s with r0 := 0, r1 := BitVec.ofNat 64 (un.q.capacity.toNat - f - 1), busy := false } ∧
    exec (.qHasSpace u n) s =
      .next { s with r0 := 0, r1 := if n.toNat ≤ un.q.capacity.toNat - f - 1 then 1 else 0, busy := false }

/-- Q.ADVHEAD: on a full ring NoSpace and nothing else; otherwise the head advances by one modulo the capacity, is
reported, and nothing else changes (R144). -/
def Obligations.AdvanceHead : Prop :=
  ∀ (u : UnitId) (s : State) (un : QcqUnit), s.units[u.toNat]? = some un → un.q.valid = true →
    (un.space = 0 → exec (.qAdvHead u) s = .next { s with r0 := 2, r1 := 0, busy := false }) ∧
    (un.space ≠ 0 → ∀ h : Word16, h = BitVec.ofNat 16 ((un.q.head.toNat + 1) % un.q.capacity.toNat) →
      exec (.qAdvHead u) s =
        .next { s with
          units := s.units.set u.toNat { un with q := { un.q with head := h } }
          r0 := 0, r1 := h.zeroExtend 64, busy := false })

/-- Q.ADVTAIL: on an empty ring BadState and nothing else; otherwise the tail advances by one modulo the capacity, the
retired slot is reported, and nothing else changes (R145). -/
def Obligations.AdvanceTail : Prop :=
  ∀ (u : UnitId) (s : State) (un : QcqUnit), s.units[u.toNat]? = some un → un.q.valid = true →
    (un.inFlight = 0 → exec (.qAdvTail u) s = .next { s with r0 := 8, r1 := 0, busy := false }) ∧
    (un.inFlight ≠ 0 →
      exec (.qAdvTail u) s =
        .next { s with
          units := s.units.set u.toNat
            { un with q := { un.q with tail := BitVec.ofNat 16 ((un.q.tail.toNat + 1) % un.q.capacity.toNat) } }
          r0 := 0, r1 := un.q.tail.zeroExtend 64, busy := false })

/-- The index laws for every Queue in order: the indices are below the capacity; `next`, `in_flight` and `space` in closed
form, also with the mask `C - 1`, and as the plain 16-bit difference at capacity 65536; `space + in_flight = C - 1`; an
advance of the head takes one slot of space away and an advance of the tail gives one back (R153). -/
def Obligations.IndexLaws : Prop :=
  ∀ (cfg : Config) (un : QcqUnit), un.q.valid = true → un.Inv cfg → cfg.capMax ≤ 65536 →
    un.q.head.toNat < un.cap ∧ un.q.tail.toNat < un.cap ∧ (un.cq.bound = true → un.cq.tail.toNat < un.cap) ∧
    (∀ i : Word16, i.toNat < un.cap →
      (nextIndex i un.cap).toNat = (if i.toNat + 1 = un.cap then 0 else i.toNat + 1) ∧
      (nextIndex i un.cap).toNat = (i.toNat + 1) % un.cap ∧
      (nextIndex i un.cap).toNat = (i.toNat + 1) &&& (un.cap - 1)) ∧
    un.inFlight = (if un.q.tail.toNat ≤ un.q.head.toNat then un.q.head.toNat - un.q.tail.toNat
      else un.q.head.toNat + un.cap - un.q.tail.toNat) ∧
    (un.cap = 65536 → un.inFlight = (un.q.head - un.q.tail).toNat) ∧
    un.space + un.inFlight = un.cap - 1 ∧ un.space ≤ un.cap - 1 ∧
    (0 < un.space → un.advHead.space + 1 = un.space) ∧
    (0 < un.inFlight → un.advTail.space = un.space + 1)

/-- Q.DBELL completes: a write barrier, then one 64-bit write of the doorbell value to the unit's mailbox, whatever the
device does meanwhile; no block state changes; with a silent device the mailbox bytes are exactly what changes in
register space (R150). That the store keeps what was written to the write-only mailbox is the model's choice
(notes/assumptions/44.md). -/
def Obligations.DoorbellOperation : Prop :=
  ∀ (u : UnitId) (s : State) (un : QcqUnit), s.units[u.toNat]? = some un → un.q.valid = true →
    ∀ bs : List Byte, bs = leBytes 8 (doorbellValue s.cfg un.q.head un.conf.ringSel un.conf.qid).toNat →
    ∃ y : Sys,
      exec (.qDbell u) s = .next { s with sys := y, r0 := 0, r1 := 0, busy := false } ∧
      y.trace = .regWrite un.conf.dbAddr.toNat bs :: .wmb :: s.sys.trace ∧
      (s.Quiet → y.mem = s.sys.mem ∧ y.reg = s.sys.reg.write un.conf.dbAddr.toNat bs)

/-- The doorbell value with the widths and shifts of R110: producer index in bits 15:0, ring selector in bits 18:16, queue
id in bits 47:24, every other bit 0 (spec/30_encoding.md R110). -/
def Obligations.DoorbellValueFields : Prop :=
  ∀ (cfg : Config) (index : Word16) (ring qid : Word64),
    cfg.dbIndexW = 16 → cfg.dbRingW = 3 → cfg.dbQidW = 24 →
    cfg.dbIndexShift = 0 → cfg.dbRingShift = 16 → cfg.dbQidShift = 24 →
    (doorbellValue cfg index ring qid).extractLsb' 0 16 = index ∧
    (doorbellValue cfg index ring qid).extractLsb' 16 3 = ring.extractLsb' 0 3 ∧
    (doorbellValue cfg index ring qid).extractLsb' 19 5 = 0 ∧
    (doorbellValue cfg index ring qid).extractLsb' 24 24 = qid.extractLsb' 0 24 ∧
    (doorbellValue cfg index ring qid).extractLsb' 48 16 = 0

/-! ### The completion ring (spec/41_completion_ring.md) -/

/-- CQ.INIT on a ring that is not valid: its registers and `last_seen_id`, nothing else (R161; `last_seen_id` goes to
`NQ_INIT_LAST_ID`, notes/assumptions/12.md). -/
def Obligations.CqInitInstallsTheRing : Prop :=
  ∀ (u : UnitId) (s : State) (un : QcqUnit), s.units[u.toNat]? = some un → un.cq.valid = false →
    exec (.cqInit u) s =
      .next { s with
        units := s.units.set u.toNat
          { un with
            cq := { valid := true, bound := false, descSize := s.a0.extractLsb' 0 32, tail := 0,
                    doneColor := s.cfg.initDoneColor }
            lastSeenId := s.cfg.nqInitLastId }
        r0 := 0, r1 := 0, busy := false }

/-- CQ.BIND of a valid, unbound ring to the valid Queue of the same unit reports the capacity (R162). -/
def Obligations.CqBindBinds : Prop :=
  ∀ (u : UnitId) (s : State) (un : QcqUnit), s.units[u.toNat]? = some un → un.cq.valid = true → un.cq.bound = false →
    un.q.valid = true →
    exec (.cqBind u) s =
      .next { s with
        units := s.units.set u.toNat { un with cq := { un.cq with bound := true } }
        r0 := 0, r1 := un.q.capacity.zeroExtend 64, busy := false }

/-- CQ.PEND reads one byte, the last of the tail slot, and compares its bit 7 with `done_color`; it reports the answer,
issues a read barrier exactly when the slot is pending, and changes no state of the block, whatever the device does
meanwhile (R163, R164, R165). -/
def Obligations.PendingTest : Prop :=
  ∀ (u : UnitId) (s : State) (un : QcqUnit), s.units[u.toNat]? = some un → un.cq.valid = true → un.cq.bound = true →
    un.cqFits s.cfg = true →
    ∀ a : Nat, a = un.conf.cqBase.toNat + un.cq.tail.toNat * un.cq.descSize.toNat + un.cq.descSize.toNat - 1 →
    ∃ y : Sys,
      exec (.cqPend u) s =
        .next { s with sys := y, r0 := 0,
                       r1 := if (y.mem.get a).getLsbD 7 = un.cq.doneColor then 1 else 0, busy := false } ∧
      y.trace = (if (y.mem.get a).getLsbD 7 = un.cq.doneColor then [.rmb] else []) ++
        .memRead a [y.mem.get a] :: s.sys.trace ∧
      (s.Quiet → y.mem = s.sys.mem ∧ y.reg = s.sys.reg)

/-- CQ.NEXT consumes without testing: the tail advances modulo the capacity, `done_color` inverts exactly when the consumed
slot was the last, the new tail is reported, and nothing else changes (R166, R167). -/
def Obligations.CqNextConsumes : Prop :=
  ∀ (u : UnitId) (s : State) (un : QcqUnit), s.units[u.toNat]? = some un → un.cq.valid = true → un.cq.bound = true →
    ∀ t : Word16, t = BitVec.ofNat 16 ((un.cq.tail.toNat + 1) % un.q.capacity.toNat) →
    exec (.cqNext u) s =
      .next { s with
        units := s.units.set u.toNat
          { un with cq := { un.cq with
              tail := t
              doneColor := if un.cq.tail.toNat + 1 = un.q.capacity.toNat then !un.cq.doneColor else un.cq.doneColor } }
        r0 := 0, r1 := t.zeroExtend 64, busy := false }

/-- QCQ.DOWN on a unit whose side table holds no buffer clears the three bits and nothing else (R168). -/
def Obligations.QcqDownTearsDown : Prop :=
  ∀ (u : UnitId) (s : State) (un : QcqUnit), s.units[u.toNat]? = some un → un.side.wf = true →
    (∀ i, (un.side.get i).valid = false) →
    exec (.qcqDown u) s =
      .next { s with
        units := s.units.set u.toNat
          { un with q := { un.q with valid := false }, cq := { un.cq with valid := false, bound := false } }
        r0 := 0, r1 := 0, busy := false }

/-- Revolutions: `n` consumptions from the start of a ring of capacity `C` leave the tail at `n mod C`, and `done_color`
inverted once for each whole revolution (R169). Why the protocol is sound (R170; both rules are inferences that the spec
marks as its own, '[derived: from rule R166]' and '[derived: from rule R164, rule R166 and rule R169]'): while the ring shows
the completions produced, and they are at most `C` ahead of the `m` consumed, the tail slot is pending exactly when
completion `m` has been produced. Every device step keeps a ring shown that it does not begin anew, one completion at a
time, each in its slot with its colour, and never overruns a notify ring (R263, R265, R266). The count of consumptions that
the device's bound rests on is the block's own (the model's note, notes/assumptions/40.md). The device is told of a ring
only where one is on offer, by a creation command or from outside, and every ring is otherwise left as it was; a ring taken
stays taken, through a reset of the NIC too, until the unit has been down (R265; the form of the offer, and what a NIC reset
leaves, are the model's, notes/assumptions/19.md, 42.md). -/
def Obligations.ColorFlipsOncePerRevolution : Prop :=
  (∀ (un : QcqUnit) (n : Nat), 0 < un.cap → un.cap ≤ 65536 → un.cq.tail = 0 →
    (QcqUnit.consume^[n] un).cq.tail.toNat = n % un.cap ∧
    (QcqUnit.consume^[n] un).cq.doneColor = Bool.xor un.cq.doneColor (n / un.cap % 2 == 1) ∧
    (QcqUnit.consume^[n] un).q = un.q) ∧
  (∀ (cfg : Config) (y : Sys) (un : QcqUnit) (r : DevRing) (m : Nat), r.isRingOf un → r.Shown cfg y.mem →
    un.hasConsumed cfg m → m ≤ r.produced → r.produced ≤ m + r.cap → (un.tailPending y = true ↔ m < r.produced)) ∧
  (∀ (cfg : Config) (y : Sys) (a : DevAct) (u : Nat) (r r' : DevRing), y.mem.wf = true →
    y.dev.rings[u]? = some r → (y.devAct cfg a).dev.rings[u]? = some r' → (∀ c, a ≠ .learn c u) →
    r.told = true → 0 < r.cap → 1 ≤ r.cqSize →
    (∀ (v : Nat) (w : DevRing), v ≠ u → y.dev.rings[v]? = some w → w.told = true → r.apart w) →
    (r.Shown cfg y.mem → r'.Shown cfg (y.devAct cfg a).mem) ∧
    (r'.produced = r.produced ∨
      r'.produced = r.produced + 1 ∧
        ((y.devAct cfg a).mem.get (r.colorAddr (r.produced % r.cap))).getLsbD 7 =
          Bool.xor cfg.initDoneColor (r.produced / r.cap % 2 == 1)) ∧
    (r.role = .notify → r.produced ≤ r.consumed + r.cap → r'.produced ≤ r'.consumed + r'.cap)) ∧
  (∀ (cfg : Config) (un : QcqUnit) (r : DevRing) (m : Nat), r.isRingOf un → r.told = true → un.cq.valid = true →
    un.cq.bound = true → un.hasConsumed cfg m → r.consumed ≤ m → m < r.consumed + 2 * r.cap →
    r.note cfg un = { r with consumed := m }) ∧
  (∀ (cfg : Config) (y : Sys) (c : Creator) (u : Nat), y.TellsOnly (y.devAct cfg (.learn c u)) u) ∧
  (∀ (s : State) (u : Nat), s.sync.sys.TellsOnly (s.hostEvent (.ringTold u)).sys u ∧
    ∀ r, (s.hostEvent (.ringTold u)).sys.dev.offers[u]? ≠ some (.new r)) ∧
  (∀ s : State, (s.hostEvent .deviceReset).sys.dev.offers = s.sys.dev.offers ∧
    ∀ r ∈ (s.hostEvent .deviceReset).sys.dev.rings, r.told = false) ∧
  (∀ (cfg : Config) (units : List QcqUnit) (y : Sys) (u : Nat) (un : QcqUnit), units[u]? = some un →
    un.stands = true → y.dev.offers[u]? = some .taken → (y.sync cfg units).dev.offers[u]? = some .taken)

/-! ### The device-command channel (spec/42_devcmd.md) -/

/-- DC.POST from `Idle` or `Done`: the command words (sixteen for a command of 64 bytes) in ascending order, then done cleared, then the doorbell, whatever
the device does meanwhile; the channel is `Posted`; nothing else of the block changes. With a silent device and a
configuration in order, the command registers then hold the command, the done bit is 0 and the doorbell register holds 1
(R181, spec/10_state.md R43). That the store of the write-only registers `DC_CMD` and `DC_DOORBELL` keeps what was written
is the model's choice (notes/assumptions/44.md). -/
def Obligations.DcPostWrites : Prop :=
  ∀ s : State, s.dcState = .idle ∨ s.dcState = .done →
    ∃ y : Sys,
      exec .dcPost s = .next { s with dcState := .posted, sys := y, r0 := 0, r1 := 0, busy := false } ∧
      y.trace =
        .regWrite (s.cfg.dcBase.toNat + s.cfg.dcOffDoorbell) [1, 0, 0, 0] ::
        .regWrite (s.cfg.dcBase.toNat + s.cfg.dcOffDone) [0, 0, 0, 0] ::
        (((List.range (s.cfg.dcCmdBytes / 4)).map (fun k =>
            PortEvent.regWrite (s.cfg.dcBase.toNat + s.cfg.dcOffCmd + 4 * k)
              ((List.range 4).map (fun j => s.ctxCmd.getD (4 * k + j) 0)))).reverse ++
          s.sys.trace) ∧
      (s.configOk = true → s.MemInv → s.Quiet →
        (∀ k < s.cfg.dcCmdBytes, y.reg.get (dcCmdAddr s.cfg + k) = s.ctxCmd.getD k 0) ∧
        y.doneBit s.cfg = false ∧ y.reg.read (dcDoorbellAddr s.cfg) 4 = [1, 0, 0, 0] ∧ y.mem = s.sys.mem)

/-- DC.WAIT always ends within its limit, whatever the device does: either a read saw the done bit, after `n` ticks and
`n + 1` reads, `n` at most the limit, and the channel is `Done`; or the limit passed with a last read after the last tick,
and the channel is `TimedOut`. Nothing else of the block changes (R183). -/
def Obligations.DcWaitEnds : Prop :=
  ∀ (m : Word16) (s : State), s.dcState = .posted →
    ∃ (n : Nat) (y : Sys) (bs : List Byte) (rest : List PortEvent),
      n ≤ m.toNat * s.cfg.ticksPerSecond ∧
      y.trace = .regRead (dcDoneAddr s.cfg) bs :: rest ∧
      y.count (PortEvent.isDoneRead s.cfg) = s.sys.count (PortEvent.isDoneRead s.cfg) + (n + 1) ∧
      y.count PortEvent.isTick = s.sys.count PortEvent.isTick + n ∧
      (((bs.getD 0 0).getLsbD 0 = true ∧
          exec (.dcWait m) s =
            .next { s with dcState := .done, sys := y, r0 := 0, r1 := BitVec.ofNat 64 n, busy := false }) ∨
       ((bs.getD 0 0).getLsbD 0 = false ∧ n = m.toNat * s.cfg.ticksPerSecond ∧
          exec (.dcWait m) s =
            .next { s with dcState := .timedOut, sys := y, r0 := 3, r1 := BitVec.ofNat 64 n, busy := false }))

/-- A device that stays silent: DC.WAIT ends at once with no tick when the done bit is already set, and times out after
exactly the limit of ticks when it is not; DC.GO, which clears the bit, times out after exactly one post and exactly the
limit of ticks (R183, R187, R192 (b)). -/
def Obligations.SilentDeviceTimesOut : Prop :=
  ∀ (m : Word16) (s : State), s.Quiet →
    (s.dcState = .posted → ∃ t : State, exec (.dcWait m) s = .next t ∧
      (s.sys.doneBit s.cfg = true →
        t.dcState = .done ∧ t.r0 = 0 ∧ t.r1 = 0 ∧ t.sys.count PortEvent.isTick = s.sys.count PortEvent.isTick) ∧
      (s.sys.doneBit s.cfg = false →
        t.dcState = .timedOut ∧ t.r0 = 3 ∧ t.r1 = BitVec.ofNat 64 (m.toNat * s.cfg.ticksPerSecond) ∧
        t.sys.count PortEvent.isTick = s.sys.count PortEvent.isTick + m.toNat * s.cfg.ticksPerSecond)) ∧
    (s.dcState = .idle ∨ s.dcState = .done → s.dcGate = false → s.configOk = true → s.MemInv →
      ∃ t : State, exec (.dcGo m) s = .next t ∧
        t.dcState = .timedOut ∧ t.r0 = 3 ∧ t.r1 = BitVec.ofNat 64 (m.toNat * s.cfg.ticksPerSecond) ∧
        t.ctxComp = s.ctxComp ∧ t.dcGate = false ∧
        t.sys.count (PortEvent.isTrigger s.cfg) = s.sys.count (PortEvent.isTrigger s.cfg) + 1 ∧
        t.sys.count PortEvent.isTick = s.sys.count PortEvent.isTick + m.toNat * s.cfg.ticksPerSecond)

/-- DC.STATUS in `Done`: it reports the status byte without judging it, copies the completion bytes (sixteen by default),
and the channel is `Idle`; with a silent device these are the bytes of `DC_COMP`, which stay (R185). -/
def Obligations.DcStatusReports : Prop :=
  ∀ s : State, s.dcState = .done →
    ∃ (b : Byte) (comp : List Byte) (y : Sys),
      exec .dcStatus s =
        .next { s with dcState := .idle, ctxComp := comp, sys := y, r0 := 0, r1 := b.zeroExtend 64, busy := false } ∧
      (s.Quiet → b = s.sys.reg.get (dcCompAddr s.cfg) ∧
        (s.cfg.dcCompBytes % 4 = 0 → comp.length = s.cfg.dcCompBytes ∧
          ∀ k < s.cfg.dcCompBytes, comp.getD k 0 = s.sys.reg.get (dcCompAddr s.cfg + k)) ∧
        y.reg = s.sys.reg ∧ y.mem = s.sys.mem)

/-- DC.GO always ends, whatever the device does, after 1 to `RETRY_BUDGET` posts and at most the limit of ticks for each,
with the gate clear, and the statuses it read decide how (R187): every status before the last was `RC_INIT`; with no status
to the last post TimedOut, never retried, and otherwise on the last status `b`, success when it is 0, IOError when it is
`RC_INIT` and the budget is spent, DeviceRejected when it is any other. Byte 0 of `CTX.comp` is then `b`. -/
def Obligations.DcGoEnds : Prop :=
  ∀ (m : Word16) (s : State), s.dcState = .idle ∨ s.dcState = .done → s.dcGate = false → s.configOk = true →
    ∃ (posts : Nat) (d : DcState) (comp : List Byte) (y : Sys) (X : ResultCode) (v : Word64),
      exec (.dcGo m) s =
        .next { s with dcState := d, dcGate := false, ctxComp := comp, sys := y, r0 := codeByte X, r1 := v, busy := false } ∧
      1 ≤ posts ∧ posts ≤ s.cfg.retryBudget ∧
      y.count (PortEvent.isTrigger s.cfg) = s.sys.count (PortEvent.isTrigger s.cfg) + posts ∧
      y.count PortEvent.isTick ≤ s.sys.count PortEvent.isTick + posts * (m.toNat * s.cfg.ticksPerSecond) ∧
      ∀ before : List PortEvent,
        before = List.replicate (posts - 1) (.regRead (dcCompAddr s.cfg) [s.cfg.rc.init]) ++
          s.sys.trace.filter (PortEvent.isStatusRead s.cfg) →
        (X = .timedOut ∧ d = .timedOut ∧ v = BitVec.ofNat 64 (m.toNat * s.cfg.ticksPerSecond) ∧
          y.trace.filter (PortEvent.isStatusRead s.cfg) = before) ∨
        (d = .idle ∧ ∃ b : Byte,
          y.trace.filter (PortEvent.isStatusRead s.cfg) = .regRead (dcCompAddr s.cfg) [b] :: before ∧
          (s.MemInv → comp.getD 0 0 = b) ∧
          ((X = .ok ∧ b = 0 ∧ v = BitVec.ofNat 64 posts) ∨
           (X = .ioError ∧ b = s.cfg.rc.init ∧ posts = s.cfg.retryBudget ∧
              v = rejectInfo (s.ctxCmd.getD 0 0) b) ∨
           (X = .deviceRejected ∧ b ≠ 0 ∧ b ≠ s.cfg.rc.init ∧ v = rejectInfo (s.ctxCmd.getD 0 0) b)))

/-- The channel's transitions are those of R40 and no others: in particular nothing but RESET leaves `TimedOut`
(spec/10_state.md R40). DC.GO runs through `Posted` and `Done` and ends in `Idle` or `TimedOut`. -/
def Obligations.ChannelTransitions : Prop :=
  ∀ (i : Instr) (s t : State), exec i s = .next t →
    t.dcState = s.dcState ∨
    (i = .dcPost ∧ (s.dcState = .idle ∨ s.dcState = .done) ∧ t.dcState = .posted) ∨
    ((∃ m, i = .dcWait m) ∧ s.dcState = .posted ∧ (t.dcState = .done ∨ t.dcState = .timedOut)) ∨
    (i = .dcStatus ∧ s.dcState = .done ∧ t.dcState = .idle) ∨
    ((∃ m, i = .dcGo m) ∧ (s.dcState = .idle ∨ s.dcState = .done) ∧ (t.dcState = .idle ∨ t.dcState = .timedOut)) ∨
    (i = .reset ∧ t.dcState = .idle)

/-- The classification of a status byte: 0 is success, `RC_INIT` is initialising, every other value is rejected
(spec/30_encoding.md R119). -/
def Obligations.StatusClasses : Prop :=
  ∀ (cfg : Config) (b : Byte), rcOk cfg.rc = true →
    (statusClass cfg b = .success ↔ b = 0) ∧ (statusClass cfg b = .initializing ↔ b = cfg.rc.init) ∧
    (statusClass cfg b = .rejected ↔ b ≠ 0 ∧ b ≠ cfg.rc.init)

/-- DI.CHECK always ends; with a silent device it compares the signature read at offset 0, and reports version, asic_type
and asic_rev, or the signature it read; it writes no register and no state of the block (R189). -/
def Obligations.DiCheckReports : Prop :=
  ∀ s : State,
    ∃ (X : ResultCode) (v : Word64) (y : Sys),
      exec .diCheck s = .next { s with sys := y, r0 := codeByte X, r1 := v, busy := false } ∧
      (X = .ok ∨ X = .badSignature) ∧
      (s.Quiet →
        y.mem = s.sys.mem ∧ y.reg = s.sys.reg ∧
        ∀ sig : Word32, sig = BitVec.ofNat 32 (leNat (s.sys.reg.read s.cfg.diBase.toNat 4)) →
          (sig ≠ s.cfg.devInfoSignature → X = .badSignature ∧ v = sig.zeroExtend 64) ∧
          (sig = s.cfg.devInfoSignature → X = .ok ∧
            v = BitVec.ofNat 64 (leNat (s.sys.reg.read (s.cfg.diBase.toNat + 4) 3))))

/-! ### The admin queue (spec/43_adminq.md) -/

/-- AQ.POSTWAIT fails fast: with the device not reported running FirmwareDown, whatever the space; with it running and the
ring full NoSpace; both change nothing else (R202, R207 (a)). -/
def Obligations.AdminFailsFast : Prop :=
  ∀ (u : UnitId) (s : State) (un : QcqUnit), ActsOn (.aqPostWait u) u s un → un.adminReady s.cfg = true →
    (s.sys.fwRunning = false → exec (.aqPostWait u) s = .next { s with r0 := 6, r1 := 0, busy := false }) ∧
    (s.sys.fwRunning = true → un.space = 0 → exec (.aqPostWait u) s = .next { s with r0 := 2, r1 := 0, busy := false })

/-- AQ.POSTWAIT that posts always ends, whatever the device does: in any case the head has advanced; after TimedOut both
tails and the completion buffer are as before, otherwise both tails have advanced in lockstep, `done_color` inverting on the
last slot, and the status alone decides between success and DeviceRejected (R201, R204, R205, R206). The record shows the
command written to the slot at the old head, a write barrier and the doorbell of the new head, then the poll loop: a read of
the colour byte, and one tick between two reads, each read but the last without the colour (R203). With the limit reached
nothing follows; otherwise a read barrier stands between the last of them and the read of the slot (R165,
spec/20_memory.md R76). -/
def Obligations.AdminOutcomes : Prop :=
  ∀ (u : UnitId) (s : State) (un : QcqUnit), ActsOn (.aqPostWait u) u s un → un.adminReady s.cfg = true →
    s.sys.fwRunning = true → 1 ≤ un.space → un.qFits s.cfg = true → un.cqFits s.cfg = true →
    ∀ h : Word16, h = nextIndex un.q.head un.cap →
    ∃ (cq : CompRing) (tail : Word16) (comp : List Byte) (y : Sys) (X : ResultCode) (v : Word64) (b : Byte)
      (older : List Byte) (fin : List PortEvent),
      exec (.aqPostWait u) s =
        .next { s with
          units := s.units.set u.toNat { un with q := { un.q with head := h, tail := tail }, cq := cq }
          ctxComp := comp, sys := y, r0 := codeByte X, r1 := v, busy := false } ∧
      y.trace =
        fin ++ pollTrace (un.colorAddr un.cq.tail) (b :: older) ++
        .regWrite un.conf.dbAddr.toNat (leBytes 8 (doorbellValue s.cfg h un.conf.ringSel un.conf.qid).toNat) :: .wmb ::
        .memWrite (un.qSlot un.q.head) (firstBytes s.cfg.dcCmdBytes s.ctxCmd) :: s.sys.trace ∧
      older.length ≤ s.cfg.adminqTimeoutTicks ∧ (∀ c ∈ older, c.getLsbD 7 ≠ un.cq.doneColor) ∧
      ((X = .timedOut ∧ v = BitVec.ofNat 64 s.cfg.adminqTimeoutTicks ∧ older.length = s.cfg.adminqTimeoutTicks ∧
          b.getLsbD 7 ≠ un.cq.doneColor ∧ fin = [] ∧ tail = un.q.tail ∧ cq = un.cq ∧ comp = s.ctxComp) ∨
       (tail = nextIndex un.q.tail un.cap ∧ cq = un.consume.cq ∧ b.getLsbD 7 = un.cq.doneColor ∧
         fin = [.memRead (un.cqSlot un.cq.tail) comp, .rmb] ∧
         ((X = .ok ∧ comp.getD 0 0 = 0 ∧ v = BitVec.ofNat 64 older.length) ∨
          (X = .deviceRejected ∧ comp.getD 0 0 ≠ 0 ∧ v = rejectInfo (s.ctxCmd.getD 0 0) (comp.getD 0 0)))))

/-- AQ.POSTWAIT whose answer stands at the completion ring's tail, with a silent device and rings that do not overlap
there: the command is in the slot at the old head, the indices have advanced, the completion buffer holds the
completion's bytes (sixteen by default), and the result follows the status byte with no tick (R201, R204, R206). The record
shows every access in its order, the two barriers among them (R165, spec/20_memory.md R76). -/
def Obligations.AdminCompletes : Prop :=
  ∀ (u : UnitId) (s : State) (un : QcqUnit), ActsOn (.aqPostWait u) u s un → un.adminReady s.cfg = true →
    s.sys.fwRunning = true → 1 ≤ un.space → un.qFits s.cfg = true → un.cqFits s.cfg = true → s.Quiet → s.MemInv →
    1 ≤ s.cfg.dcCompBytes →
    (un.cqSlot un.cq.tail + s.cfg.dcCompBytes ≤ un.qSlot un.q.head ∨
      un.qSlot un.q.head + s.cfg.dcCmdBytes ≤ un.cqSlot un.cq.tail) →
    un.tailPending s.sys = true →
    ∀ h : Word16, h = nextIndex un.q.head un.cap →
    ∃ (comp : List Byte) (y : Sys),
      comp.length = s.cfg.dcCompBytes ∧
      (∀ k < s.cfg.dcCompBytes, comp.getD k 0 = s.sys.mem.get (un.cqSlot un.cq.tail + k)) ∧
      (∀ k < s.cfg.dcCmdBytes, y.mem.get (un.qSlot un.q.head + k) = s.ctxCmd.getD k 0) ∧
      y.trace =
        .memRead (un.cqSlot un.cq.tail) comp :: .rmb ::
        .memRead (un.colorAddr un.cq.tail) [s.sys.mem.get (un.colorAddr un.cq.tail)] ::
        .regWrite un.conf.dbAddr.toNat (leBytes 8 (doorbellValue s.cfg h un.conf.ringSel un.conf.qid).toNat) :: .wmb ::
        .memWrite (un.qSlot un.q.head) (firstBytes s.cfg.dcCmdBytes s.ctxCmd) :: s.sys.trace ∧
      exec (.aqPostWait u) s =
        .next { s with
          units := s.units.set u.toNat
            { un with q := { un.q with head := h, tail := nextIndex un.q.tail un.cap }, cq := un.consume.cq }
          ctxComp := comp, sys := y
          r0 := if comp.getD 0 0 = 0 then 0 else 5
          r1 := if comp.getD 0 0 = 0 then 0 else rejectInfo (s.ctxCmd.getD 0 0) (comp.getD 0 0)
          busy := false }

/-! ### The notify queue (spec/44_notifyq.md) -/

/-- The newness test: with `d = (eid - last) mod 2^16`, new exactly when `1 <= d <= 32767` (R217). -/
def Obligations.NewnessTest : Prop :=
  ∀ (eid last : Word16) (d : Nat), d = (eid.toNat + 65536 - last.toNat) % 65536 →
    (isNewEvent eid last = true ↔ 1 ≤ d ∧ d ≤ 32767)

/-- NQ.POLL of exactly one pending record, with a silent device: the record is consumed and counted; when new its id is
recorded, and with `process` its code is dispatched; the next slot not being pending, the loop ends. The record of the ports
shows the read barrier between the colour read and the read of the slot (R165, R216, R217, R218, R220). With any number of
records pending, NQ.POLL does this one's round and then what NQ.POLL does from the state after it: the counts add up (each in
32 bits, notes/assumptions/38.md). -/
def Obligations.OneEventIsDrained : Prop :=
  ∀ (u : UnitId) (process : Bool) (s : State) (un : QcqUnit), ActsOn (.nqPoll u process) u s un →
    un.notifyReady s.cfg = true → un.cqFits s.cfg = true → s.Quiet → un.tailPending s.sys = true →
    ∀ (c : List Byte) (fresh : Bool) (un1 : QcqUnit) (events : List PortEvent),
    c = s.sys.mem.read (un.cqSlot un.cq.tail) un.cq.descSize.toNat →
    fresh = isNewEvent (eventId s.cfg.event c) un.lastSeenId →
    un1 = { un.consume with lastSeenId := if fresh then eventId s.cfg.event c else un.lastSeenId } →
    events = (if process && fresh then pulseOf s.cfg (eventCode s.cfg.event c) else []) ++
      .memRead (un.cqSlot un.cq.tail) c :: .rmb ::
      .memRead (un.colorAddr un.cq.tail) [s.sys.mem.get (un.colorAddr un.cq.tail)] :: s.sys.trace →
    (1 ≤ un.cap → un.consume.tailPending s.sys = false →
      ∃ y : Sys,
        exec (.nqPoll u process) s =
          .next { s with
            units := s.units.set u.toNat un1, sys := y, r0 := 0, r1 := if fresh then 0x100000001 else 1, busy := false } ∧
        y.mem = s.sys.mem ∧ y.reg = s.sys.reg ∧
        y.trace = .memRead (un1.colorAddr un1.cq.tail) [s.sys.mem.get (un1.colorAddr un1.cq.tail)] :: events) ∧
    (un.Inv s.cfg → s.cfg.capMax ≤ 65536 →
      ∃ (y1 y2 : Sys) (un2 : QcqUnit) (news count : Nat),
        y1.Quiet ∧ y1.mem = s.sys.mem ∧ y1.reg = s.sys.reg ∧ y1.trace = events ∧
        exec (.nqPoll u process) { s with units := s.units.set u.toNat un1, sys := y1 } =
          .next { s with
            units := s.units.set u.toNat un2, sys := y2, r0 := 0, r1 := pollInfo news count, busy := false } ∧
        exec (.nqPoll u process) s =
          .next { s with
            units := s.units.set u.toNat un2, sys := y2, r0 := 0
            r1 := pollInfo (news + if fresh then 1 else 0) (count + 1), busy := false })

/-- NQ.POLL with nothing pending makes one colour read and reports 0 (R216). -/
def Obligations.EmptyPollsReportNothing : Prop :=
  ∀ (u : UnitId) (i : Instr) (s : State) (un : QcqUnit), ActsOn i u s un → un.cqFits s.cfg = true → s.Quiet →
    ((∃ p, i = .nqPoll u p) ∧ un.notifyReady s.cfg = true ∨ i = .txPoll u ∧ un.txReady s.cfg = true ∨
      i = .rxPoll u ∧ un.rxReady s.cfg = true) →
    un.tailPending s.sys = false →
    ∃ y : Sys,
      exec i s = .next { s with sys := y, r0 := 0, r1 := 0, busy := false } ∧
      y.trace = .memRead (un.colorAddr un.cq.tail) [s.sys.mem.get (un.colorAddr un.cq.tail)] :: s.sys.trace ∧
      y.mem = s.sys.mem ∧ y.reg = s.sys.reg

/-- NQ.POLL ends from every state whose rings are in order, whatever the scheduled device steps are: while the schedule
lasts each test uses a slot of it up, and a ring at rest holds at most one revolution of pending records. R221 carries the
end as a fairness premise on the device; here it rests on the model's finite schedule (its choice, notes/assumptions/3.md)
and on the bound of the loop (notes/assumptions/16.md). -/
def Obligations.NotifyDrainEnds : Prop :=
  ∀ (u : UnitId) (process : Bool) (s : State) (un : QcqUnit), ActsOn (.nqPoll u process) u s un → un.Inv s.cfg →
    s.cfg.capMax ≤ 65536 → un.notifyReady s.cfg = true → un.cqFits s.cfg = true →
    ∃ t : State, exec (.nqPoll u process) s = .next t ∧ t.r0 = 0

/-- NQ.POLL moves no Queue register and no side-table entry; with `process = 0` it produces no output event, whatever the
device does (R215, R218). -/
def Obligations.DrainingHasNoSideEffects : Prop :=
  ∀ (u : UnitId) (process : Bool) (s t : State) (un un' : QcqUnit), s.units[u.toNat]? = some un →
    exec (.nqPoll u process) s = .next t → t.units[u.toNat]? = some un' →
    un'.q = un.q ∧ un'.side = un.side ∧
    (process = false → t.sys.count PortEvent.isPulse = s.sys.count PortEvent.isPulse)

/-! ### The fast path (spec/45_txrx.md) -/

/-- TX.XMIT on a full ring is NoSpace and nothing else; otherwise the packet's handle is owned by the slot at the old head,
the head advances, the slot used is reported, and the trace ends with the descriptor, a write barrier and the doorbell of
the new head, whatever the device does meanwhile (R231, spec/20_memory.md R76). -/
def Obligations.TransmitPosts : Prop :=
  ∀ (u : UnitId) (s : State) (un : QcqUnit), ActsOn (.txXmit u) u s un → un.txReady s.cfg = true →
    (un.space = 0 → exec (.txXmit u) s = .next { s with r0 := 2, r1 := 0, busy := false }) ∧
    (un.space ≠ 0 → un.qFits s.cfg = true → un.side.wf = true →
      ∀ h : Word16, h = nextIndex un.q.head un.cap →
      ∃ (y : Sys) (side : SideTable),
        exec (.txXmit u) s =
          .next { s with
            units := s.units.set u.toNat { un with q := { un.q with head := h }, side := side }
            sys := y, r0 := 0, r1 := un.q.head.zeroExtend 64, busy := false } ∧
        side.get un.q.head.toNat = ⟨true, s.a0⟩ ∧ (∀ j, j ≠ un.q.head.toNat → side.get j = un.side.get j) ∧
        y.trace =
          .regWrite un.conf.dbAddr.toNat (leBytes 8 (doorbellValue s.cfg h un.conf.ringSel un.conf.qid).toNat) :: .wmb ::
          .memWrite (un.qSlot un.q.head)
            (txDesc s.cfg.txDesc un.q.descSize.toNat s.a0 (s.a1.extractLsb' 0 16) (s.a2.extractLsb' 0 16)
              (s.a2.extractLsb' 16 16)) :: s.sys.trace ∧
        (s.Quiet → s.MemInv → ∀ k < un.q.descSize.toNat,
          y.mem.get (un.qSlot un.q.head + k) =
            (txDesc s.cfg.txDesc un.q.descSize.toNat s.a0 (s.a1.extractLsb' 0 16) (s.a2.extractLsb' 0 16)
              (s.a2.extractLsb' 16 16)).getD k 0))

/-- The bytes of the descriptors with the layouts of spec/30_encoding.md: addr in bytes 0..7, len in 8..9, and for TX flags
in 10..11 and vlan_tci in 12..13, little-endian; every byte past the fields is 0 (R121, R123). -/
def Obligations.DescriptorLayouts : Prop :=
  ∀ (ds : Nat) (addr : Handle) (len flags vlan : Word16), 16 ≤ ds →
    txDesc ⟨0, 8, 10, 12, 16⟩ ds addr len flags vlan =
      leBytes 8 addr.toNat ++ leBytes 2 len.toNat ++ leBytes 2 flags.toNat ++ leBytes 2 vlan.toNat ++
        List.replicate (ds - 14) 0 ∧
    rxDesc ⟨0, 8, 16⟩ ds addr len =
      leBytes 8 addr.toNat ++ leBytes 2 len.toNat ++ List.replicate (ds - 10) 0

/-- TX.POLL of exactly one pending completion that covers `d + 1` descriptors, with a silent device: their buffers are
retired in ring order, their entries are no longer valid, the tail is one past the completion's index, and the count is
reported; the record shows the read barrier between the colour read and the read of the slot (R165, R235, R236). With any
number of completions pending, TX.POLL does this one's round and then what TX.POLL does from the state after it: a success
adds up the counts, and a later BadCompletion keeps these retirements and does not count them (R238). -/
def Obligations.CoalescedCompletionRetires : Prop :=
  ∀ (u : UnitId) (s : State) (un : QcqUnit), ActsOn (.txPoll u) u s un → un.txReady s.cfg = true →
    un.cqFits s.cfg = true → un.Inv s.cfg → s.cfg.capMax ≤ 65536 → s.Quiet → un.tailPending s.sys = true →
    ∀ (c : List Byte) (ci : Word16) (d : Nat) (events : List PortEvent),
      c = s.sys.mem.read (un.cqSlot un.cq.tail) un.cq.descSize.toNat → ci = txIndex s.cfg.txComp c →
      d = modNat ((ci.toNat : Int) - un.q.tail.toNat) un.cap → ci.toNat < un.cap → d < un.inFlight →
      events =
        ((ringOrder un.q.tail.toNat (d + 1) un.cap).map (fun j => PortEvent.bufRetire (un.side.get j).handle)).reverse ++
          .memRead (un.cqSlot un.cq.tail) c :: .rmb ::
          .memRead (un.colorAddr un.cq.tail) [s.sys.mem.get (un.colorAddr un.cq.tail)] :: s.sys.trace →
      ∃ (un1 : QcqUnit) (y1 : Sys),
        un1.q = { un.q with tail := nextIndex ci un.cap } ∧ un1.cq = un.consume.cq ∧ un1.conf = un.conf ∧
        un1.lastSeenId = un.lastSeenId ∧
        (∀ j, un1.side.get j =
          if j ∈ ringOrder un.q.tail.toNat (d + 1) un.cap then ⟨false, (un.side.get j).handle⟩ else un.side.get j) ∧
        y1.Quiet ∧ y1.mem = s.sys.mem ∧ y1.trace = events ∧
        (un.consume.tailPending s.sys = false →
          ∃ y : Sys,
            exec (.txPoll u) s =
              .next { s with
                units := s.units.set u.toNat un1, sys := y, r0 := 0, r1 := BitVec.ofNat 64 (d + 1), busy := false } ∧
            y.mem = s.sys.mem ∧
            y.trace = .memRead (un1.colorAddr un1.cq.tail) [s.sys.mem.get (un1.colorAddr un1.cq.tail)] :: events) ∧
        ∃ (un2 : QcqUnit) (y2 : Sys) (X : ResultCode) (v : Word64), (X = .ok ∨ X = .badCompletion) ∧
          exec (.txPoll u) { s with units := s.units.set u.toNat un1, sys := y1 } =
            .next { s with units := s.units.set u.toNat un2, sys := y2, r0 := codeByte X, r1 := v, busy := false } ∧
          exec (.txPoll u) s =
            .next { s with
              units := s.units.set u.toNat un2, sys := y2, r0 := codeByte X
              r1 := if X = .ok then v + BitVec.ofNat 64 (d + 1) else v, busy := false }

/-- A TX completion whose index is not in flight, and an RX completion with nothing in flight: the completion is consumed,
no buffer is handed back, BadCompletion with the index (RX: 0) is reported, and nothing else of the block changes; the record
shows the read barrier between the two reads (R165, R238, R245). -/
def Obligations.BadCompletionReported : Prop :=
  ∀ (u : UnitId) (s : State) (un : QcqUnit), un.cqFits s.cfg = true → s.Quiet → un.tailPending s.sys = true →
    ∀ events : List PortEvent,
    events =
      .memRead (un.cqSlot un.cq.tail) (s.sys.mem.read (un.cqSlot un.cq.tail) un.cq.descSize.toNat) :: .rmb ::
      .memRead (un.colorAddr un.cq.tail) [s.sys.mem.get (un.colorAddr un.cq.tail)] :: s.sys.trace →
    (∀ ci : Word16, ActsOn (.txPoll u) u s un → un.txReady s.cfg = true →
      ci = txIndex s.cfg.txComp (s.sys.mem.read (un.cqSlot un.cq.tail) un.cq.descSize.toNat) →
      (un.cap ≤ ci.toNat ∨ un.inFlight ≤ modNat ((ci.toNat : Int) - un.q.tail.toNat) un.cap) →
      ∃ y : Sys,
        exec (.txPoll u) s =
          .next { s with units := s.units.set u.toNat un.consume, sys := y, r0 := 10, r1 := ci.zeroExtend 64, busy := false } ∧
        y.trace = events ∧ y.handBacks = s.sys.handBacks ∧ y.mem = s.sys.mem) ∧
    (ActsOn (.rxPoll u) u s un → un.rxReady s.cfg = true → un.inFlight = 0 →
      ∃ y : Sys,
        exec (.rxPoll u) s =
          .next { s with units := s.units.set u.toNat un.consume, sys := y, r0 := 10, r1 := 0, busy := false } ∧
        y.trace = events ∧ y.handBacks = s.sys.handBacks ∧ y.mem = s.sys.mem)

/-- TX.POLL and RX.POLL end from every state whose rings are in order, whatever the scheduled device steps are (R253). -/
def Obligations.PollsEnd : Prop :=
  ∀ (u : UnitId) (i : Instr) (s : State) (un : QcqUnit), ActsOn i u s un → un.Inv s.cfg →
    s.cfg.capMax ≤ 65536 → un.cqFits s.cfg = true →
    (i = .txPoll u ∧ un.txReady s.cfg = true ∨ i = .rxPoll u ∧ un.rxReady s.cfg = true) →
    ∃ t : State, exec i s = .next t ∧ (t.r0 = 0 ∨ t.r0 = 10)

/-- RX.FILL always ends: it asks for a buffer for each free slot until BufAlloc fails or no slot is free, and `hs` are the
handles it was given before that, in order. It reports their number; the slots from the old head on own them, and no other
entry changes; the head has advanced by that many; the doorbell is rung once, last, when something was posted, and not at
all otherwise, whatever the device does meanwhile. With a silent device each of these slots holds the RX descriptor of its
handle (R240). Where the answers come from is the model's choice (notes/assumptions/10.md): those made ready come first. -/
def Obligations.ReceiveFill : Prop :=
  ∀ (u : UnitId) (mtu : Word16) (s : State) (un : QcqUnit), ActsOn (.rxFill u mtu) u s un →
    un.rxReady s.cfg = true → un.qFits s.cfg = true → un.Inv s.cfg → s.cfg.capMax ≤ 65536 →
    ∃ (hs : List Handle) (un' : QcqUnit) (y : Sys),
      exec (.rxFill u mtu) s =
        .next { s with
          units := s.units.set u.toNat un', sys := y, r0 := 0, r1 := BitVec.ofNat 64 hs.length, busy := false } ∧
      hs.length ≤ un.space ∧
      y.trace.filter PortEvent.isAlloc =
        (if hs.length < un.space then [.bufAlloc mtu.toNat none] else []) ++
          (hs.map (fun h => PortEvent.bufAlloc mtu.toNat (some h))).reverse ++ s.sys.trace.filter PortEvent.isAlloc ∧
      un'.q = { un.q with head := BitVec.ofNat 16 ((un.q.head.toNat + hs.length) % un.cap) } ∧
      un'.cq = un.cq ∧ un'.conf = un.conf ∧ un'.lastSeenId = un.lastSeenId ∧
      (∀ j, j ∉ ringOrder un.q.head.toNat hs.length un.cap → un'.side.get j = un.side.get j) ∧
      (∀ k (hk : k < hs.length), un'.side.get ((un.q.head.toNat + k) % un.cap) = ⟨true, hs[k]⟩) ∧
      (∀ a, y.count (PortEvent.isDoorbell a) =
        s.sys.count (PortEvent.isDoorbell a) + if 0 < hs.length ∧ a = un.conf.dbAddr.toNat then 1 else 0) ∧
      (0 < hs.length → ∃ rest, y.trace =
        .regWrite un.conf.dbAddr.toNat
          (leBytes 8 (doorbellValue s.cfg un'.q.head un.conf.ringSel un.conf.qid).toNat) :: .wmb :: rest) ∧
      (s.Quiet → s.MemInv → ∀ k (hk : k < hs.length), ∀ j < un.q.descSize.toNat,
        y.mem.get (un.qSlot (BitVec.ofNat 16 ((un.q.head.toNat + k) % un.cap)) + j) =
          (rxDesc s.cfg.rxDesc un.q.descSize.toNat hs[k] mtu).getD j 0) ∧
      (∀ (gs : List Handle) (rest : List (Option Handle)), gs.length = un.space →
        s.sys.bufAnswers = gs.map some ++ rest → hs = gs ∧ y.bufAnswers = rest) ∧
      (∀ (gs : List Handle) (rest : List (Option Handle)), gs.length < un.space →
        s.sys.bufAnswers = gs.map some ++ none :: rest → hs = gs ∧ y.bufAnswers = rest)

/-- RX.POLL of exactly one pending completion with a descriptor in flight, with a silent device: the buffer of the Queue's
tail is delivered once, with the reported length, as success exactly when the status is 0 and no checksum-failure bit is
set; its entry is no longer valid and both tails advance; the record shows the read barrier between the colour read and the
read of the slot (R165, R245). With any number of completions pending, RX.POLL does this one's round and then what RX.POLL
does from the state after it: a success adds up the counts, and a later BadCompletion keeps this delivery and does not count
it (R238). -/
def Obligations.ReceiveDelivers : Prop :=
  ∀ (u : UnitId) (s : State) (un : QcqUnit), ActsOn (.rxPoll u) u s un → un.rxReady s.cfg = true →
    un.cqFits s.cfg = true → un.side.wf = true → s.Quiet → un.tailPending s.sys = true → un.inFlight ≠ 0 →
    ∀ (c : List Byte) (ok : Bool) (events : List PortEvent),
      c = s.sys.mem.read (un.cqSlot un.cq.tail) un.cq.descSize.toNat →
      (ok = true ↔ rxStatus s.cfg.rxComp c = 0 ∧ rxCsum s.cfg.rxComp c &&& s.cfg.rxCsumBadMask = 0) →
      events =
        .bufDeliver (un.side.get un.q.tail.toNat).handle (rxLen s.cfg.rxComp c) ok ::
        .memRead (un.cqSlot un.cq.tail) c :: .rmb ::
        .memRead (un.colorAddr un.cq.tail) [s.sys.mem.get (un.colorAddr un.cq.tail)] :: s.sys.trace →
      ∃ (side : SideTable) (un1 : QcqUnit) (y1 : Sys),
        un1 = { un with q := { un.q with tail := nextIndex un.q.tail un.cap }, cq := un.consume.cq, side := side } ∧
        (∀ j, side.get j =
          if j = un.q.tail.toNat then ⟨false, (un.side.get j).handle⟩ else un.side.get j) ∧
        y1.Quiet ∧ y1.mem = s.sys.mem ∧ y1.trace = events ∧
        (un.consume.tailPending s.sys = false →
          ∃ y : Sys,
            exec (.rxPoll u) s =
              .next { s with units := s.units.set u.toNat un1, sys := y, r0 := 0, r1 := 1, busy := false } ∧
            y.mem = s.sys.mem ∧
            y.trace = .memRead (un1.colorAddr un1.cq.tail) [s.sys.mem.get (un1.colorAddr un1.cq.tail)] :: events) ∧
        (un.Inv s.cfg → s.cfg.capMax ≤ 65536 →
          ∃ (un2 : QcqUnit) (y2 : Sys) (X : ResultCode) (v : Word64), (X = .ok ∨ X = .badCompletion) ∧
            exec (.rxPoll u) { s with units := s.units.set u.toNat un1, sys := y1 } =
              .next { s with units := s.units.set u.toNat un2, sys := y2, r0 := codeByte X, r1 := v, busy := false } ∧
            exec (.rxPoll u) s =
              .next { s with
                units := s.units.set u.toNat un2, sys := y2, r0 := codeByte X
                r1 := if X = .ok then v + 1 else v, busy := false })

/-- QCQ.FLUSH always ends from a ring in order: the tail has reached the head, the number of slots that were in flight is
reported, every valid entry among them was handed back in ring order, cancelled for `Tx` and released for `Rx`, and none of
them is valid; the completion ring, ring memory and the device registers are untouched (R250). -/
def Obligations.FlushReturnsEveryBuffer : Prop :=
  ∀ (u : UnitId) (s : State) (un : QcqUnit), ActsOn (.qcqFlush u) u s un → un.q.valid = true → un.Inv s.cfg →
    s.cfg.capMax ≤ 65536 →
    ∃ (side : SideTable) (y : Sys),
      exec (.qcqFlush u) s =
        .next { s with
          units := s.units.set u.toNat { un with q := { un.q with tail := un.q.head }, side := side }
          sys := y, r0 := 0, r1 := BitVec.ofNat 64 un.inFlight, busy := false } ∧
      (∀ j, side.get j =
        if j ∈ ringOrder un.q.tail.toNat un.inFlight un.cap then ⟨false, (un.side.get j).handle⟩ else un.side.get j) ∧
      y.handBacks =
        (((ringOrder un.q.tail.toNat un.inFlight un.cap).filter (fun j => (un.side.get j).valid)).map (fun j =>
          if un.conf.role = .tx then PortEvent.bufCancel (un.side.get j).handle
          else PortEvent.bufRelease (un.side.get j).handle)).reverse ++ s.sys.handBacks ∧
      y.mem = s.sys.mem ∧ y.reg = s.sys.reg

/-! ### The device's contract (spec/46_device_contract.md) -/

/-- No device step clears the done bit, and none sets it while no command is executing; with none executing, and while the
bit is set, no step changes a register, `DC_COMP` and `DC_DATA` among them. Once the device has answered, no step changes a
register before the next doorbell, but that an older command may set the done bit. The step that sets the bit answers one
command, which the device has read and for which it has written all of `DC_COMP`: that command is off the list of those to
answer, so it is answered once, and the device has answered (R267, R268). An event for a full notify ring changes no memory
and is where the run leaves the spec (R266, U10). The guards are the model's reading of the contract
(notes/assumptions/17.md, 20.md, 40.md). -/
def Obligations.DeviceKeepsTheDoneBit : Prop :=
  ∀ (s : State) (a : DevAct), s.configOk = true → s.MemInv →
    (s.sys.doneBit s.cfg = true → (s.sys.devAct s.cfg a).doneBit s.cfg = true) ∧
    (s.sys.dev.pending = 0 → (s.sys.devAct s.cfg a).reg = s.sys.reg) ∧
    (s.sys.doneBit s.cfg = true → (s.sys.devAct s.cfg a).reg = s.sys.reg) ∧
    (s.sys.dev.answered = true → ∀ k, k ≠ dcDoneAddr s.cfg → (s.sys.devAct s.cfg a).reg.get k = s.sys.reg.get k) ∧
    (s.sys.doneBit s.cfg = false → (s.sys.devAct s.cfg a).doneBit s.cfg = true →
      ∃ (i : Nat) (c : DcCommand), a = .dcDone i ∧ s.sys.dev.cmds[i]? = some c ∧ c.cmd.isSome = true ∧ c.compLeft = [] ∧
        (s.sys.devAct s.cfg a).dev.answered = true ∧ (s.sys.devAct s.cfg a).dev.cmds = s.sys.dev.cmds.eraseIdx i) ∧
    (∀ (u : Nat) (r : DevRing), s.sys.dev.rings[u]? = some r → r.told = true → r.role = .notify →
      r.consumed + r.cap ≤ r.produced → (∃ k b, a = .compByte u k b) ∨ (∃ low, a = .compColor u low) →
      (s.sys.devAct s.cfg a).mem = s.sys.mem ∧ (s.sys.devAct s.cfg a).dev.breach.isSome = true)

/-! ### Invariants -/

/-- Both stores stay in canonical form at every step, from every state. -/
def Obligations.StepKeepsMemoryCanonical : Prop :=
  ∀ s t : State, s.MemInv → step s = .next t → t.MemInv

/-- Every step keeps the units in order, whatever is requested and whatever the device does: the queue invariants R31 (a),
(b), and with them (c); the completion-ring invariants R34 (a), (b) of spec/10_state.md. With them go two of the model's
own: the side table stays in its canonical form (notes/assumptions/29.md), and the tail of a valid ring that is not bound is
0. R31 (d) and R34 (c) are not among them. -/
def Obligations.StepKeepsRingsInOrder : Prop :=
  ∀ s t : State, s.RingInv → step s = .next t → t.RingInv

/-- The side-table invariant of `Tx` and `Rx` units is kept by the operations of the fast path: the valid entries stay
exactly the slots in flight (spec/10_state.md R36, spec/45_txrx.md R252). -/
def Obligations.FastPathKeepsOwnership : Prop :=
  ∀ (u : UnitId) (mtu : Word16) (i : Instr) (s t : State) (un un' : QcqUnit),
    (i = .txXmit u ∨ i = .txPoll u ∨ i = .rxFill u mtu ∨ i = .rxPoll u ∨ i = .qcqFlush u) →
    s.units[u.toNat]? = some un → un.q.valid = true → un.Inv s.cfg → un.SideInv →
    s.cfg.capMax ≤ 65536 → exec i s = .next t → t.units[u.toNat]? = some un' → un'.SideInv

/-- The invariants hold at reset, the model runs reset's configuration, and the requester owes nothing. The model's choice:
the canonical form and the empty memory at reset, of which R60 says nothing (notes/assumptions/6.md), and the configuration
of State.reset and which configurations the model runs (notes/assumptions/8.md, 15.md). -/
def Obligations.InvariantsHoldAtReset : Prop :=
  State.reset.goesOn = true ∧ State.reset.MemInv ∧ State.reset.RingInv ∧ State.reset.DescriptorsWritten
end

