-- ==== Sys2Proof/Laws/Decode.lean ====
section
/-! SUPPORT. The fields of a request word put together from its fields (spec/30_encoding.md R101, R107). -/

namespace Sys2Proof

/-- A request word bit by bit. -/
theorem getLsbD_requestWord (imm : Word16) (u : UnitId) (op : Byte) (k : Nat) :
    (requestWord imm u op).getLsbD k =
      if k < 8 then op.getLsbD k else if k - 8 < 8 then u.getLsbD (k - 8) else imm.getLsbD (k - 8 - 8) := by
  show BitVec.getLsbD (w := 16 + 8 + 8) (imm ++ u ++ op) k = _
  rw [BitVec.getLsbD_append, BitVec.getLsbD_append]

@[simp] theorem opOf_requestWord (imm : Word16) (u : UnitId) (op : Byte) : opOf (requestWord imm u op) = op := by
  apply BitVec.eq_of_getLsbD_eq
  intro k hk
  simp only [opOf, BitVec.getLsbD_extractLsb', getLsbD_requestWord, hk, Nat.zero_add, if_true, decide_true,
    Bool.true_and]

@[simp] theorem unitOf_requestWord (imm : Word16) (u : UnitId) (op : Byte) : unitOf (requestWord imm u op) = u := by
  apply BitVec.eq_of_getLsbD_eq
  intro k hk
  simp only [unitOf, BitVec.getLsbD_extractLsb', getLsbD_requestWord, hk, show ¬ 8 + k < 8 by omega,
    show 8 + k - 8 = k by omega, if_true, if_false, decide_true, Bool.true_and]

@[simp] theorem immOf_requestWord (imm : Word16) (u : UnitId) (op : Byte) : immOf (requestWord imm u op) = imm := by
  apply BitVec.eq_of_getLsbD_eq
  intro k hk
  simp only [immOf, BitVec.getLsbD_extractLsb', getLsbD_requestWord, hk, show ¬ 16 + k < 8 by omega,
    show ¬ 16 + k - 8 < 8 by omega, show 16 + k - 8 - 8 = k by omega, if_false, decide_true, Bool.true_and]

/-- A word is put together from its own fields. -/
theorem requestWord_fields (w : Word32) : requestWord (immOf w) (unitOf w) (opOf w) = w := by
  apply BitVec.eq_of_getLsbD_eq
  intro k hk
  rw [getLsbD_requestWord]
  simp only [immOf, unitOf, opOf, BitVec.getLsbD_extractLsb']
  by_cases h1 : k < 8
  · simp [h1]
  · by_cases h2 : k - 8 < 8
    · simp [h1, h2, show 8 + (k - 8) = k by omega]
    · simp [h1, h2, show k - 8 - 8 < 16 by omega, show 16 + (k - 8 - 8) = k by omega]

end Sys2Proof
end

