-- ==== Sys2Proof/Laws/State.lean ====
section
/-! SUPPORT. One lemma per field per update of State and of a unit, true by rfl. -/

namespace Sys2Proof.Machine

@[simp] theorem State.finish_cfg (s : State) (X : ResultCode) (v : Word64) : (s.finish X v).cfg = s.cfg := rfl
@[simp] theorem State.finish_req (s : State) (X : ResultCode) (v : Word64) : (s.finish X v).req = s.req := rfl
@[simp] theorem State.finish_busy (s : State) (X : ResultCode) (v : Word64) : (s.finish X v).busy = false := rfl
@[simp] theorem State.finish_a0 (s : State) (X : ResultCode) (v : Word64) : (s.finish X v).a0 = s.a0 := rfl
@[simp] theorem State.finish_a1 (s : State) (X : ResultCode) (v : Word64) : (s.finish X v).a1 = s.a1 := rfl
@[simp] theorem State.finish_a2 (s : State) (X : ResultCode) (v : Word64) : (s.finish X v).a2 = s.a2 := rfl
@[simp] theorem State.finish_a3 (s : State) (X : ResultCode) (v : Word64) : (s.finish X v).a3 = s.a3 := rfl
@[simp] theorem State.finish_r0 (s : State) (X : ResultCode) (v : Word64) : (s.finish X v).r0 = codeByte X := rfl
@[simp] theorem State.finish_r1 (s : State) (X : ResultCode) (v : Word64) : (s.finish X v).r1 = v := rfl
@[simp] theorem State.finish_ctxCmd (s : State) (X : ResultCode) (v : Word64) : (s.finish X v).ctxCmd = s.ctxCmd := rfl
@[simp] theorem State.finish_ctxComp (s : State) (X : ResultCode) (v : Word64) : (s.finish X v).ctxComp = s.ctxComp := rfl
@[simp] theorem State.finish_units (s : State) (X : ResultCode) (v : Word64) : (s.finish X v).units = s.units := rfl
@[simp] theorem State.finish_dcState (s : State) (X : ResultCode) (v : Word64) : (s.finish X v).dcState = s.dcState := rfl
@[simp] theorem State.finish_dcGate (s : State) (X : ResultCode) (v : Word64) : (s.finish X v).dcGate = s.dcGate := rfl
@[simp] theorem State.finish_sys (s : State) (X : ResultCode) (v : Word64) : (s.finish X v).sys = s.sys := rfl
@[simp] theorem State.finish_inbox (s : State) (X : ResultCode) (v : Word64) : (s.finish X v).inbox = s.inbox := rfl
@[simp] theorem State.finish_duties (s : State) (X : ResultCode) (v : Word64) : (s.finish X v).duties = s.duties := rfl

@[simp] theorem State.setUnit_cfg (s : State) (u : UnitId) (un : QcqUnit) : (s.setUnit u un).cfg = s.cfg := rfl
@[simp] theorem State.setUnit_req (s : State) (u : UnitId) (un : QcqUnit) : (s.setUnit u un).req = s.req := rfl
@[simp] theorem State.setUnit_busy (s : State) (u : UnitId) (un : QcqUnit) : (s.setUnit u un).busy = s.busy := rfl
@[simp] theorem State.setUnit_a0 (s : State) (u : UnitId) (un : QcqUnit) : (s.setUnit u un).a0 = s.a0 := rfl
@[simp] theorem State.setUnit_a1 (s : State) (u : UnitId) (un : QcqUnit) : (s.setUnit u un).a1 = s.a1 := rfl
@[simp] theorem State.setUnit_a2 (s : State) (u : UnitId) (un : QcqUnit) : (s.setUnit u un).a2 = s.a2 := rfl
@[simp] theorem State.setUnit_a3 (s : State) (u : UnitId) (un : QcqUnit) : (s.setUnit u un).a3 = s.a3 := rfl
@[simp] theorem State.setUnit_r0 (s : State) (u : UnitId) (un : QcqUnit) : (s.setUnit u un).r0 = s.r0 := rfl
@[simp] theorem State.setUnit_r1 (s : State) (u : UnitId) (un : QcqUnit) : (s.setUnit u un).r1 = s.r1 := rfl
@[simp] theorem State.setUnit_ctxCmd (s : State) (u : UnitId) (un : QcqUnit) : (s.setUnit u un).ctxCmd = s.ctxCmd := rfl
@[simp] theorem State.setUnit_ctxComp (s : State) (u : UnitId) (un : QcqUnit) : (s.setUnit u un).ctxComp = s.ctxComp := rfl
@[simp] theorem State.setUnit_units (s : State) (u : UnitId) (un : QcqUnit) : (s.setUnit u un).units = s.units.set u.toNat un := rfl
@[simp] theorem State.setUnit_dcState (s : State) (u : UnitId) (un : QcqUnit) : (s.setUnit u un).dcState = s.dcState := rfl
@[simp] theorem State.setUnit_dcGate (s : State) (u : UnitId) (un : QcqUnit) : (s.setUnit u un).dcGate = s.dcGate := rfl
@[simp] theorem State.setUnit_sys (s : State) (u : UnitId) (un : QcqUnit) : (s.setUnit u un).sys = s.sys := rfl
@[simp] theorem State.setUnit_inbox (s : State) (u : UnitId) (un : QcqUnit) : (s.setUnit u un).inbox = s.inbox := rfl
@[simp] theorem State.setUnit_duties (s : State) (u : UnitId) (un : QcqUnit) : (s.setUnit u un).duties = s.duties := rfl

@[simp] theorem State.withSys_cfg (s : State) (y : Sys) : (s.withSys y).cfg = s.cfg := rfl
@[simp] theorem State.withSys_req (s : State) (y : Sys) : (s.withSys y).req = s.req := rfl
@[simp] theorem State.withSys_busy (s : State) (y : Sys) : (s.withSys y).busy = s.busy := rfl
@[simp] theorem State.withSys_a0 (s : State) (y : Sys) : (s.withSys y).a0 = s.a0 := rfl
@[simp] theorem State.withSys_a1 (s : State) (y : Sys) : (s.withSys y).a1 = s.a1 := rfl
@[simp] theorem State.withSys_a2 (s : State) (y : Sys) : (s.withSys y).a2 = s.a2 := rfl
@[simp] theorem State.withSys_a3 (s : State) (y : Sys) : (s.withSys y).a3 = s.a3 := rfl
@[simp] theorem State.withSys_r0 (s : State) (y : Sys) : (s.withSys y).r0 = s.r0 := rfl
@[simp] theorem State.withSys_r1 (s : State) (y : Sys) : (s.withSys y).r1 = s.r1 := rfl
@[simp] theorem State.withSys_ctxCmd (s : State) (y : Sys) : (s.withSys y).ctxCmd = s.ctxCmd := rfl
@[simp] theorem State.withSys_ctxComp (s : State) (y : Sys) : (s.withSys y).ctxComp = s.ctxComp := rfl
@[simp] theorem State.withSys_units (s : State) (y : Sys) : (s.withSys y).units = s.units := rfl
@[simp] theorem State.withSys_dcState (s : State) (y : Sys) : (s.withSys y).dcState = s.dcState := rfl
@[simp] theorem State.withSys_dcGate (s : State) (y : Sys) : (s.withSys y).dcGate = s.dcGate := rfl
@[simp] theorem State.withSys_sys (s : State) (y : Sys) : (s.withSys y).sys = y := rfl
@[simp] theorem State.withSys_inbox (s : State) (y : Sys) : (s.withSys y).inbox = s.inbox := rfl
@[simp] theorem State.withSys_duties (s : State) (y : Sys) : (s.withSys y).duties = s.duties := rfl

@[simp] theorem State.resetBlock_cfg (s : State) : (s.resetBlock).cfg = s.cfg := rfl
@[simp] theorem State.resetBlock_req (s : State) : (s.resetBlock).req = 0 := rfl
@[simp] theorem State.resetBlock_busy (s : State) : (s.resetBlock).busy = s.busy := rfl
@[simp] theorem State.resetBlock_a0 (s : State) : (s.resetBlock).a0 = s.a0 := rfl
@[simp] theorem State.resetBlock_a1 (s : State) : (s.resetBlock).a1 = s.a1 := rfl
@[simp] theorem State.resetBlock_a2 (s : State) : (s.resetBlock).a2 = s.a2 := rfl
@[simp] theorem State.resetBlock_a3 (s : State) : (s.resetBlock).a3 = s.a3 := rfl
@[simp] theorem State.resetBlock_r0 (s : State) : (s.resetBlock).r0 = s.r0 := rfl
@[simp] theorem State.resetBlock_r1 (s : State) : (s.resetBlock).r1 = s.r1 := rfl
@[simp] theorem State.resetBlock_ctxCmd (s : State) : (s.resetBlock).ctxCmd = s.ctxCmd := rfl
@[simp] theorem State.resetBlock_ctxComp (s : State) : (s.resetBlock).ctxComp = s.ctxComp := rfl
@[simp] theorem State.resetBlock_units (s : State) : (s.resetBlock).units = s.units.map (QcqUnit.reset s.cfg) := rfl
@[simp] theorem State.resetBlock_dcState (s : State) : (s.resetBlock).dcState = .idle := rfl
@[simp] theorem State.resetBlock_dcGate (s : State) : (s.resetBlock).dcGate = false := rfl
@[simp] theorem State.resetBlock_sys (s : State) : (s.resetBlock).sys = s.sys := rfl
@[simp] theorem State.resetBlock_inbox (s : State) : (s.resetBlock).inbox = s.inbox := rfl
@[simp] theorem State.resetBlock_duties (s : State) : (s.resetBlock).duties = s.duties := rfl

@[simp] theorem QcqUnit.advHead_conf (un : QcqUnit) : (un.advHead).conf = un.conf := rfl
@[simp] theorem QcqUnit.advHead_q (un : QcqUnit) : (un.advHead).q = { un.q with head := nextIndex un.q.head un.cap } := rfl
@[simp] theorem QcqUnit.advHead_cq (un : QcqUnit) : (un.advHead).cq = un.cq := rfl
@[simp] theorem QcqUnit.advHead_lastSeenId (un : QcqUnit) : (un.advHead).lastSeenId = un.lastSeenId := rfl
@[simp] theorem QcqUnit.advHead_side (un : QcqUnit) : (un.advHead).side = un.side := rfl

@[simp] theorem QcqUnit.advTail_conf (un : QcqUnit) : (un.advTail).conf = un.conf := rfl
@[simp] theorem QcqUnit.advTail_q (un : QcqUnit) : (un.advTail).q = { un.q with tail := nextIndex un.q.tail un.cap } := rfl
@[simp] theorem QcqUnit.advTail_cq (un : QcqUnit) : (un.advTail).cq = un.cq := rfl
@[simp] theorem QcqUnit.advTail_lastSeenId (un : QcqUnit) : (un.advTail).lastSeenId = un.lastSeenId := rfl
@[simp] theorem QcqUnit.advTail_side (un : QcqUnit) : (un.advTail).side = un.side := rfl

@[simp] theorem QcqUnit.consume_conf (un : QcqUnit) : (un.consume).conf = un.conf := rfl
@[simp] theorem QcqUnit.consume_q (un : QcqUnit) : (un.consume).q = un.q := rfl
@[simp] theorem QcqUnit.consume_cq (un : QcqUnit) : (un.consume).cq = { un.cq with doneColor := Bool.xor un.cq.doneColor (un.isLast un.cq.tail), tail := nextIndex un.cq.tail un.cap } := rfl
@[simp] theorem QcqUnit.consume_lastSeenId (un : QcqUnit) : (un.consume).lastSeenId = un.lastSeenId := rfl
@[simp] theorem QcqUnit.consume_side (un : QcqUnit) : (un.consume).side = un.side := rfl

@[simp] theorem QcqUnit.bind_conf (un : QcqUnit) : (un.bind).conf = un.conf := rfl
@[simp] theorem QcqUnit.bind_q (un : QcqUnit) : (un.bind).q = un.q := rfl
@[simp] theorem QcqUnit.bind_cq (un : QcqUnit) : (un.bind).cq = { un.cq with bound := true } := rfl
@[simp] theorem QcqUnit.bind_lastSeenId (un : QcqUnit) : (un.bind).lastSeenId = un.lastSeenId := rfl
@[simp] theorem QcqUnit.bind_side (un : QcqUnit) : (un.bind).side = un.side := rfl

@[simp] theorem QcqUnit.down_conf (un : QcqUnit) : (un.down).conf = un.conf := rfl
@[simp] theorem QcqUnit.down_q (un : QcqUnit) : (un.down).q = { un.q with valid := false } := rfl
@[simp] theorem QcqUnit.down_cq (un : QcqUnit) : (un.down).cq = { un.cq with valid := false, bound := false } := rfl
@[simp] theorem QcqUnit.down_lastSeenId (un : QcqUnit) : (un.down).lastSeenId = un.lastSeenId := rfl
@[simp] theorem QcqUnit.down_side (un : QcqUnit) : (un.down).side = un.side := rfl
@[simp] theorem QcqUnit.cap_advHead (un : QcqUnit) : un.advHead.cap = un.cap := rfl
@[simp] theorem QcqUnit.cap_advTail (un : QcqUnit) : un.advTail.cap = un.cap := rfl
@[simp] theorem QcqUnit.cap_consume (un : QcqUnit) : un.consume.cap = un.cap := rfl
@[simp] theorem QcqUnit.inFlight_consume (un : QcqUnit) : un.consume.inFlight = un.inFlight := rfl

end Sys2Proof.Machine
end

