-- ==== Sys2Proof/Laws/Store.lean ====
section
/-! SUPPORT. The laws of the sparse stores: read after write, and every operation keeps the canonical form. -/

namespace Sys2Proof.Machine

variable {β : Type} [DecidableEq β] {d : β}

theorem storeGet_storeSet_other (m : List (Nat × β)) {a b : Nat} (v : β) (h : b ≠ a) :
    storeGet d (storeSet d m a v) b = storeGet d m b := by
  induction m with
  | nil => by_cases hv : v = d <;> simp [storeSet, storeGet, hv, h]
  | cons c m ih =>
    obtain ⟨k, w⟩ := c
    rcases lt_trichotomy a k with h1 | h1 | h1
    · by_cases hv : v = d <;> simp [storeSet, storeGet, hv, h1, h]
    · subst h1
      by_cases hv : v = d <;> simp [storeSet, storeGet, hv, h]
    · have h2 : ¬ a < k := by omega
      have h3 : a ≠ k := by omega
      simp only [storeSet, h2, h3, if_false, storeGet, ih]

/-- The keys of `m` are all above `k`. -/
def KeysAbove (k : Nat) (m : List (Nat × β)) : Prop := ∀ c ∈ m, k < c.1

omit [DecidableEq β] in
theorem storeGet_of_keysAbove {m : List (Nat × β)} {k a : Nat} (h : KeysAbove k m) (ha : a ≤ k) :
    storeGet d m a = d := by
  induction m with
  | nil => rfl
  | cons c m ih =>
    obtain ⟨k', w⟩ := c
    have h1 : k < k' := h (k', w) (by simp)
    have : a ≠ k' := by omega
    simp only [storeGet, this, if_false]
    exact ih (fun c hc => h c (by simp [hc]))

theorem storeWf_iff {m : List (Nat × β)} :
    storeWf d m = true ↔ m.Pairwise (fun x y => x.1 < y.1) ∧ ∀ c ∈ m, c.2 ≠ d := by
  simp [storeWf]

theorem storeWf_cons {k : Nat} {w : β} {m : List (Nat × β)} :
    storeWf d ((k, w) :: m) = true ↔ w ≠ d ∧ KeysAbove k m ∧ storeWf d m = true := by
  simp only [storeWf_iff, List.pairwise_cons, KeysAbove, List.mem_cons, forall_eq_or_imp]
  tauto

theorem storeWf_nil : storeWf d ([] : List (Nat × β)) = true := rfl

theorem keysAbove_storeSet {m : List (Nat × β)} {k a : Nat} {v : β} (h : KeysAbove k m) (ha : k < a) :
    KeysAbove k (storeSet d m a v) := by
  induction m with
  | nil =>
    by_cases hv : v = d
    · simp [storeSet, hv, KeysAbove]
    · simpa [storeSet, hv, KeysAbove] using ha
  | cons c m ih =>
    obtain ⟨k', w⟩ := c
    have hk : k < k' := h (k', w) (by simp)
    have hm : KeysAbove k m := fun c hc => h c (by simp [hc])
    have ih := ih hm
    rcases lt_trichotomy a k' with h1 | h1 | h1
    · by_cases hv : v = d
      · simpa only [storeSet, h1, hv, if_true] using h
      · simp only [storeSet, h1, hv, if_true, if_false]
        intro c hc
        rcases List.mem_cons.mp hc with rfl | hc
        · exact ha
        · exact h c hc
    · subst h1
      by_cases hv : v = d
      · simpa only [storeSet, lt_irrefl, hv, if_true, if_false] using hm
      · simp only [storeSet, lt_irrefl, hv, if_true, if_false]
        intro c hc
        rcases List.mem_cons.mp hc with rfl | hc
        · exact ha
        · exact hm c hc
    · have h2 : ¬ a < k' := by omega
      have h3 : a ≠ k' := by omega
      simp only [storeSet, h2, h3, if_false]
      intro c hc
      rcases List.mem_cons.mp hc with rfl | hc
      · exact hk
      · exact ih c hc

/-- Writing keeps the canonical form. -/
theorem storeSet_wf {m : List (Nat × β)} (a : Nat) (v : β) (h : storeWf d m = true) :
    storeWf d (storeSet d m a v) = true := by
  induction m with
  | nil => by_cases hv : v = d <;> simp [storeSet, hv, storeWf_cons, storeWf_nil, KeysAbove]
  | cons c m ih =>
    obtain ⟨k, w⟩ := c
    obtain ⟨hw, hk, hm⟩ := storeWf_cons.mp h
    by_cases h1 : a < k
    · by_cases hv : v = d
      · simpa [storeSet, h1, hv] using h
      · simp only [storeSet, h1, hv, if_true, if_false]
        refine storeWf_cons.mpr ⟨hv, ?_, h⟩
        intro c hc
        rcases List.mem_cons.mp hc with rfl | hc
        · exact h1
        · exact lt_trans h1 (hk c hc)
    · by_cases h2 : a = k
      · subst h2
        by_cases hv : v = d
        · simpa [storeSet, hv] using hm
        · simpa [storeSet, hv] using storeWf_cons.mpr ⟨hv, hk, hm⟩
      · simp only [storeSet, h1, h2, if_false]
        exact storeWf_cons.mpr ⟨hw, keysAbove_storeSet hk (by omega), ih hm⟩

/-- A read after a write to the same key gives the value written. -/
theorem storeGet_storeSet_self {m : List (Nat × β)} (a : Nat) (v : β) (h : storeWf d m = true) :
    storeGet d (storeSet d m a v) a = v := by
  induction m with
  | nil => by_cases hv : v = d <;> simp [storeSet, storeGet, hv]
  | cons c m ih =>
    obtain ⟨k, w⟩ := c
    obtain ⟨hw, hk, hm⟩ := storeWf_cons.mp h
    by_cases h1 : a < k
    · by_cases hv : v = d
      · have h2 : a ≠ k := by omega
        simp only [storeSet, h1, hv, if_true, storeGet, h2, if_false]
        exact storeGet_of_keysAbove hk (by omega)
      · simp [storeSet, h1, hv, storeGet]
    · by_cases h2 : a = k
      · subst h2
        by_cases hv : v = d
        · simp only [storeSet, lt_irrefl, if_false, hv, if_true]
          exact storeGet_of_keysAbove hk le_rfl
        · simp [storeSet, hv, storeGet]
      · simp only [storeSet, h1, h2, if_false, storeGet]
        exact ih hm

/-- Changing every value keeps the canonical form. -/
theorem storeMap_wf {f : Nat → β → β} {m : List (Nat × β)} (h : storeWf d m = true) :
    storeWf d (storeMap d f m) = true := by
  rw [storeWf_iff] at h ⊢
  refine ⟨?_, ?_⟩
  · refine List.Pairwise.filter _ ?_
    exact List.pairwise_map.mpr (h.1.imp (fun hxy => hxy))
  · intro c hc
    simpa using (List.mem_filter.mp hc).2

/-- What a changed store holds: `f` of what it held, where `f` keeps the unlisted value. -/
theorem storeGet_storeMap {f : Nat → β → β} (hf : ∀ k, f k d = d) {m : List (Nat × β)} (h : storeWf d m = true)
    (a : Nat) : storeGet d (storeMap d f m) a = f a (storeGet d m a) := by
  induction m with
  | nil => simp [storeMap, storeGet, hf]
  | cons c m ih =>
    obtain ⟨k, w⟩ := c
    obtain ⟨_, hk, hm⟩ := storeWf_cons.mp h
    have ih := ih hm
    by_cases h2 : a = k
    · subst h2
      by_cases hv : f a w = d
      · have hrest : storeGet d (storeMap d f m) a = d := by
          rw [ih, storeGet_of_keysAbove hk le_rfl, hf]
        simp only [storeMap, List.map_cons, List.filter_cons, hv, ne_eq, not_true_eq_false, decide_false,
          Bool.false_eq_true, if_false, storeGet, if_true] at hrest ⊢
        exact hrest
      · simp [storeMap, storeGet, hv]
    · by_cases hv : f k w = d
      · simp only [storeMap, List.map_cons, List.filter_cons, hv, ne_eq, not_true_eq_false, decide_false,
          Bool.false_eq_true, if_false, storeGet, h2] at ih ⊢
        exact ih
      · simp only [storeMap, List.map_cons, List.filter_cons, hv, ne_eq, not_false_eq_true, decide_true,
          if_true, storeGet, h2, if_false] at ih ⊢
        exact ih

/-! ### Memory -/

theorem Memory.set_wf {m : Memory} (a : Nat) (b : Byte) (h : m.wf = true) : (m.set a b).wf = true := storeSet_wf a b h

theorem Memory.get_set_self {m : Memory} (a : Nat) (b : Byte) (h : m.wf = true) : (m.set a b).get a = b :=
  storeGet_storeSet_self a b h

theorem Memory.get_set_other (m : Memory) {a a' : Nat} (b : Byte) (h : a' ≠ a) : (m.set a b).get a' = m.get a' :=
  storeGet_storeSet_other m b h

theorem Memory.write_wf {m : Memory} (bs : List Byte) (a : Nat) (h : m.wf = true) : (m.write a bs).wf = true := by
  induction bs generalizing m a with
  | nil => exact h
  | cons b bs ih => exact ih (a + 1) (Memory.set_wf a b h)

/-- A write leaves every byte outside the written range alone. -/
theorem Memory.get_write_other (m : Memory) (bs : List Byte) {a a' : Nat} (h : a' < a ∨ a + bs.length ≤ a') :
    (m.write a bs).get a' = m.get a' := by
  induction bs generalizing m a with
  | nil => rfl
  | cons b bs ih =>
    simp only [List.length_cons] at h
    rw [Memory.write, ih (m.set a b) (by omega), Memory.get_set_other m b (by omega)]

/-- A read of a written byte gives the byte written. -/
theorem Memory.get_write_inside {m : Memory} (bs : List Byte) {a : Nat} (k : Nat) (h : m.wf = true)
    (hk : k < bs.length) : (m.write a bs).get (a + k) = bs.getD k 0 := by
  induction bs generalizing m a k with
  | nil => simp at hk
  | cons b bs ih =>
    cases k with
    | zero =>
      rw [Memory.write, Memory.get_write_other _ _ (by omega)]
      simpa using Memory.get_set_self a b h
    | succ k =>
      have := ih (m := m.set a b) (a := a + 1) k (Memory.set_wf a b h) (by simpa using hk)
      rw [Memory.write, show a + (k + 1) = a + 1 + k by omega, this]
      simp

theorem Memory.length_read (m : Memory) (a n : Nat) : (m.read a n).length = n := by
  induction n generalizing a with
  | zero => rfl
  | succ n ih => simp [Memory.read, ih]

/-- The `k`-th byte read from `a` is the byte at `a + k`. -/
theorem Memory.getD_read (m : Memory) {a n k : Nat} (h : k < n) : (m.read a n).getD k 0 = m.get (a + k) := by
  induction n generalizing a k with
  | zero => omega
  | succ n ih =>
    cases k with
    | zero => simp [Memory.read]
    | succ k =>
      have := ih (a := a + 1) (k := k) (by omega)
      simp only [Memory.read, List.getD_cons_succ, this]
      congr 1; omega

/-! ### The side table -/

theorem SideTable.set_wf {t : SideTable} (i : Nat) (e : SideEntry) (h : t.wf = true) : (t.set i e).wf = true :=
  storeSet_wf i e h

theorem SideTable.get_set_self {t : SideTable} (i : Nat) (e : SideEntry) (h : t.wf = true) : (t.set i e).get i = e :=
  storeGet_storeSet_self i e h

theorem SideTable.get_set_other (t : SideTable) {i j : Nat} (e : SideEntry) (h : j ≠ i) : (t.set i e).get j = t.get j :=
  storeGet_storeSet_other t e h

theorem SideTable.invalidate_wf {t : SideTable} (i : Nat) (h : t.wf = true) : (t.invalidate i).wf = true :=
  SideTable.set_wf i _ h

theorem SideTable.invalidateBelow_wf {t : SideTable} (C : Nat) (h : t.wf = true) : (t.invalidateBelow C).wf = true :=
  storeMap_wf h

theorem SideTable.invalidateAll_wf {t : SideTable} (h : t.wf = true) : t.invalidateAll.wf = true := storeMap_wf h

theorem SideTable.get_invalidateAll {t : SideTable} (h : t.wf = true) (i : Nat) :
    t.invalidateAll.get i = ⟨false, (t.get i).handle⟩ :=
  storeGet_storeMap (d := SideTable.unlisted) (f := fun _ e => ⟨false, e.handle⟩) (fun _ => rfl) h i

theorem SideTable.get_invalidateBelow {t : SideTable} (C : Nat) (h : t.wf = true) (i : Nat) :
    (t.invalidateBelow C).get i = if i < C then ⟨false, (t.get i).handle⟩ else t.get i :=
  storeGet_storeMap (d := SideTable.unlisted) (f := fun i e => if i < C then ⟨false, e.handle⟩ else e)
    (fun k => by by_cases hk : k < C <;> simp [hk, SideTable.unlisted]) h i

end Sys2Proof.Machine
end

