-- ==== Sys2Proof/Laws/Sys.lean ====
section
/-! SUPPORT. What the primitives on the ports can do: what they leave alone, that they keep the stores canonical, and
what they are when the device is silent. -/

namespace Sys2Proof.Machine

/-- Both stores are in canonical form. -/
def Sys.MemOk (y : Sys) : Prop := y.mem.wf = true ∧ y.reg.wf = true

@[simp] theorem Sys.record_mem (y : Sys) (e : PortEvent) : (y.record e).mem = y.mem := rfl
@[simp] theorem Sys.record_reg (y : Sys) (e : PortEvent) : (y.record e).reg = y.reg := rfl
@[simp] theorem Sys.record_dev (y : Sys) (e : PortEvent) : (y.record e).dev = y.dev := rfl
@[simp] theorem Sys.record_sched (y : Sys) (e : PortEvent) : (y.record e).sched = y.sched := rfl
@[simp] theorem Sys.record_fwRunning (y : Sys) (e : PortEvent) : (y.record e).fwRunning = y.fwRunning := rfl
@[simp] theorem Sys.record_bufAnswers (y : Sys) (e : PortEvent) : (y.record e).bufAnswers = y.bufAnswers := rfl
@[simp] theorem Sys.record_draws (y : Sys) (e : PortEvent) : (y.record e).draws = y.draws := rfl
@[simp] theorem Sys.record_trace (y : Sys) (e : PortEvent) : (y.record e).trace = e :: y.trace := rfl

theorem Sys.MemOk.record {y : Sys} (h : y.MemOk) (e : PortEvent) : (y.record e).MemOk := h

/-! ### Device steps -/

@[simp] theorem Sys.breaks_mem (y : Sys) (b : Breach) : (y.breaks b).mem = y.mem := rfl
@[simp] theorem Sys.breaks_reg (y : Sys) (b : Breach) : (y.breaks b).reg = y.reg := rfl
@[simp] theorem Sys.breaks_sched (y : Sys) (b : Breach) : (y.breaks b).sched = y.sched := rfl
@[simp] theorem Sys.breaks_trace (y : Sys) (b : Breach) : (y.breaks b).trace = y.trace := rfl
@[simp] theorem Sys.breaks_breach (y : Sys) (b : Breach) : (y.breaks b).dev.breach = some (y.dev.breach.getD b) := rfl
@[simp] theorem Sys.setRing_mem (y : Sys) (u : Nat) (r : DevRing) : (y.setRing u r).mem = y.mem := rfl
@[simp] theorem Sys.setRing_reg (y : Sys) (u : Nat) (r : DevRing) : (y.setRing u r).reg = y.reg := rfl
@[simp] theorem Sys.setRing_sched (y : Sys) (u : Nat) (r : DevRing) : (y.setRing u r).sched = y.sched := rfl
@[simp] theorem Sys.setRing_trace (y : Sys) (u : Nat) (r : DevRing) : (y.setRing u r).trace = y.trace := rfl

/-- What telling the device of a ring can do: nothing, or the ring on offer is taken in and cannot be told of again. -/
theorem Sys.tell_cases (y : Sys) (u : Nat) :
    y.tell u = y ∨
    ∃ r, y.dev.offers[u]? = some (.new r) ∧
      y.tell u = { y with dev := { y.dev with rings := y.dev.rings.set u r, offers := y.dev.offers.set u .taken } } := by
  unfold Sys.tell
  split
  · next r h => exact .inr ⟨r, h, rfl⟩
  · exact .inl rfl
  · exact .inl rfl
  · exact .inl rfl

/-- Telling the device of a ring changes the device's own state only. -/
theorem Sys.tell_eq (y : Sys) (u : Nat) : y.tell u = { y with dev := (y.tell u).dev } := by
  obtain h | ⟨r, -, h⟩ := y.tell_cases u <;> rw [h]

@[simp] theorem Device.nicReset_offers (d : Device) : d.nicReset.offers = d.offers := rfl
@[simp] theorem Device.nicReset_cmds (d : Device) : d.nicReset.cmds = [] := rfl
@[simp] theorem Device.nicReset_answered (d : Device) : d.nicReset.answered = false := rfl
@[simp] theorem Device.nicReset_breach (d : Device) : d.nicReset.breach = d.breach := rfl

/-- After a reset of the NIC the device knows no ring. -/
theorem Device.nicReset_told (d : Device) : ∀ r ∈ d.nicReset.rings, r.told = false := by
  intro r hr
  obtain ⟨_, -, rfl⟩ := List.mem_map.mp hr
  rfl

/-- A queue-creation command changes the device's own state only. -/
theorem Sys.devLearn_eq (y : Sys) (c : Creator) (u : Nat) : y.devLearn c u = { y with dev := (y.devLearn c u).dev } := by
  cases c with
  | device i =>
    simp only [Sys.devLearn]
    split
    · rfl
    · split
      · rw [Sys.tell_eq]
      · rfl
  | admin v =>
    simp only [Sys.devLearn]
    split
    · rfl
    · split
      · rw [Sys.tell_eq]; rfl
      · rfl

@[simp] theorem Sys.tell_trace (y : Sys) (u : Nat) : (y.tell u).trace = y.trace := by rw [Sys.tell_eq]

/-- What a device step can do to the two stores: to memory nothing, or one byte of a completion slot; to the registers
nothing, or one byte of `DC_COMP`, `DC_DATA` or `DC_DONE`. -/
theorem Sys.devAct_stores (cfg : Config) (y : Sys) (a : DevAct) :
    ((y.devAct cfg a).mem = y.mem ∨ ∃ k b, (y.devAct cfg a).mem = y.mem.set k b) ∧
    ((y.devAct cfg a).reg = y.reg ∨
      ∃ k b, (y.devAct cfg a).reg = y.reg.set k b ∧
        ((∃ j < cfg.dcCompBytes, k = dcCompAddr cfg + j) ∨ (∃ j < cfg.dcDataBytes, k = dcDataAddr cfg + j) ∨
          k = dcDoneAddr cfg ∧ b = y.reg.get k ||| 1)) := by
  cases a with
  | learn c u => rw [Sys.devAct, Sys.devLearn_eq]; exact ⟨.inl rfl, .inl rfl⟩
  | fetch u => simp only [Sys.devAct, Sys.devFetch]; split <;> (try split) <;> exact ⟨.inl rfl, .inl rfl⟩
  | compByte u k b =>
    simp only [Sys.devAct, Sys.devCompByte]
    split
    · exact ⟨.inl rfl, .inl rfl⟩
    · split
      · exact ⟨.inl rfl, .inl rfl⟩
      · split
        · exact ⟨.inr ⟨_, _, rfl⟩, .inl rfl⟩
        · exact ⟨.inl rfl, .inl rfl⟩
  | compColor u low =>
    simp only [Sys.devAct, Sys.devCompColor]
    split
    · exact ⟨.inl rfl, .inl rfl⟩
    · split
      · exact ⟨.inl rfl, .inl rfl⟩
      · split
        · exact ⟨.inr ⟨_, _, rfl⟩, .inl rfl⟩
        · exact ⟨.inl rfl, .inl rfl⟩
  | dcCmd i => simp only [Sys.devAct, Sys.devDcCmd]; split <;> (try split) <;> exact ⟨.inl rfl, .inl rfl⟩
  | dcComp i k b =>
    simp only [Sys.devAct, Sys.devDcComp]
    split
    · exact ⟨.inl rfl, .inl rfl⟩
    · split
      · next h =>
        simp only [Bool.and_eq_true, decide_eq_true_eq] at h
        exact ⟨.inl rfl, .inr ⟨_, _, rfl, .inl ⟨k, h.2, rfl⟩⟩⟩
      · exact ⟨.inl rfl, .inl rfl⟩
  | dcData i k b =>
    simp only [Sys.devAct, Sys.devDcData]
    split
    · exact ⟨.inl rfl, .inl rfl⟩
    · split
      · next h =>
        simp only [Bool.and_eq_true, decide_eq_true_eq] at h
        exact ⟨.inl rfl, .inr ⟨_, _, rfl, .inr (.inl ⟨k, h.2, rfl⟩)⟩⟩
      · exact ⟨.inl rfl, .inl rfl⟩
  | dcDone i =>
    simp only [Sys.devAct, Sys.devDcDone]
    split
    · exact ⟨.inl rfl, .inl rfl⟩
    · split
      · exact ⟨.inl rfl, .inr ⟨_, _, rfl, .inr (.inr ⟨rfl, rfl⟩)⟩⟩
      · exact ⟨.inl rfl, .inl rfl⟩

theorem Sys.MemOk.devAct {y : Sys} {cfg : Config} (h : y.MemOk) (a : DevAct) : (y.devAct cfg a).MemOk := by
  obtain ⟨hm | ⟨k, b, hm⟩, hr | ⟨k', b', hr, -⟩⟩ := Sys.devAct_stores cfg y a
  · exact ⟨hm ▸ h.1, hr ▸ h.2⟩
  · exact ⟨hm ▸ h.1, hr ▸ Memory.set_wf _ _ h.2⟩
  · exact ⟨hm ▸ Memory.set_wf _ _ h.1, hr ▸ h.2⟩
  · exact ⟨hm ▸ Memory.set_wf _ _ h.1, hr ▸ Memory.set_wf _ _ h.2⟩

theorem Sys.MemOk.envAct {y : Sys} {cfg : Config} (h : y.MemOk) (a : EnvAct) : (y.envAct cfg a).MemOk := by
  cases a with
  | device a => exact h.devAct a
  | fwRunning b => exact h
  | requestWhileBusy w => exact h
  | doneHighBits v => exact ⟨h.1, Memory.write_wf _ _ h.2⟩

/-- A device step writes no record and takes nothing from the schedule. -/
theorem Sys.devAct_sched (cfg : Config) (y : Sys) (a : DevAct) :
    (y.devAct cfg a).sched = y.sched ∧ (y.devAct cfg a).trace = y.trace := by
  cases a with
  | learn c u => rw [Sys.devAct, Sys.devLearn_eq]; exact ⟨rfl, rfl⟩
  | fetch u => simp only [Sys.devAct, Sys.devFetch]; split <;> (try split) <;> exact ⟨rfl, rfl⟩
  | compByte u k b =>
    simp only [Sys.devAct, Sys.devCompByte]
    split
    · exact ⟨rfl, rfl⟩
    · split
      · exact ⟨rfl, rfl⟩
      · split <;> exact ⟨rfl, rfl⟩
  | compColor u low =>
    simp only [Sys.devAct, Sys.devCompColor]
    split
    · exact ⟨rfl, rfl⟩
    · split
      · exact ⟨rfl, rfl⟩
      · split <;> exact ⟨rfl, rfl⟩
  | dcCmd i => simp only [Sys.devAct, Sys.devDcCmd]; split <;> (try split) <;> exact ⟨rfl, rfl⟩
  | dcComp i k b => simp only [Sys.devAct, Sys.devDcComp]; split <;> (try split) <;> exact ⟨rfl, rfl⟩
  | dcData i k b => simp only [Sys.devAct, Sys.devDcData]; split <;> (try split) <;> exact ⟨rfl, rfl⟩
  | dcDone i => simp only [Sys.devAct, Sys.devDcDone]; split <;> (try split) <;> exact ⟨rfl, rfl⟩

theorem Sys.foldl_envAct_sched (cfg : Config) (acts : List EnvAct) (y : Sys) :
    (acts.foldl (fun z a => z.envAct cfg a) y).sched = y.sched ∧
    (acts.foldl (fun z a => z.envAct cfg a) y).trace = y.trace := by
  induction acts generalizing y with
  | nil => exact ⟨rfl, rfl⟩
  | cons a acts ih =>
    have h1 := ih (y.envAct cfg a)
    have h2 : (y.envAct cfg a).sched = y.sched ∧ (y.envAct cfg a).trace = y.trace := by
      cases a with
      | device a => exact Sys.devAct_sched cfg y a
      | fwRunning b => exact ⟨rfl, rfl⟩
      | requestWhileBusy w => exact ⟨rfl, rfl⟩
      | doneHighBits v => exact ⟨rfl, rfl⟩
    exact ⟨h1.1.trans h2.1, h1.2.trans h2.2⟩

/-! ### The turn of the surroundings -/

theorem Sys.MemOk.turn {y : Sys} {cfg : Config} (h : y.MemOk) : (y.turn cfg).2.MemOk := by
  have key : ∀ (acts : List EnvAct) (z : Sys), z.MemOk → (acts.foldl (fun z a => z.envAct cfg a) z).MemOk := by
    intro acts
    induction acts with
    | nil => exact fun z hz => hz
    | cons a acts ih => exact fun z hz => ih _ (hz.envAct a)
  unfold Sys.turn
  split
  · exact h
  · exact key _ _ h

/-- A turn uses up the first slot of the schedule, and writes no record. -/
theorem Sys.turn_sched (cfg : Config) (y : Sys) :
    (y.turn cfg).2.sched = y.sched.tail ∧ (y.turn cfg).2.trace = y.trace := by
  unfold Sys.turn
  split
  · next h => simp [h]
  · next sl rest h =>
    have := Sys.foldl_envAct_sched cfg sl.acts { y with sched := rest }
    simpa [h] using this

/-- When nobody moves in the scheduled slots, a turn only uses up a slot. -/
theorem Sys.Quiet.turn_eq {y : Sys} (cfg : Config) (h : y.Quiet) :
    (y.turn cfg).2 = { y with sched := y.sched.tail } := by
  unfold Sys.turn
  split
  · next hs => cases y; simp_all
  · next sl rest hs =>
    have : sl.acts = [] := h sl (by simp [hs])
    simp [this, hs]

theorem Sys.Quiet.tail {y : Sys} (h : y.Quiet) : Sys.Quiet { y with sched := y.sched.tail } :=
  fun sl hsl => h sl (List.mem_of_mem_tail hsl)

theorem Sys.Quiet.turn {y : Sys} {cfg : Config} (h : y.Quiet) : (y.turn cfg).2.Quiet := by
  rw [h.turn_eq cfg]; exact h.tail

/-! ### Accesses keep the stores canonical -/

theorem Sys.MemOk.readBytes {cfg : Config} {addr : Nat} (f : Nat) (rem : List Nat) (acc : List Byte) {y : Sys}
    (h : y.MemOk) : (y.readBytes cfg addr f rem acc).2.MemOk := by
  induction f generalizing rem acc y with
  | zero => exact h
  | succ f ih => exact ih _ _ h.turn

theorem Sys.MemOk.writeBytes {cfg : Config} {addr : Nat} {bs : List Byte} (f : Nat) (rem : List Nat) {y : Sys}
    (h : y.MemOk) : (y.writeBytes cfg addr bs f rem).MemOk := by
  induction f generalizing rem y with
  | zero => exact h
  | succ f ih =>
    have ht := h.turn (cfg := cfg)
    exact ih _ ⟨Memory.set_wf _ _ ht.1, ht.2⟩

theorem Sys.MemOk.memRead {cfg : Config} {addr n : Nat} {y : Sys} (h : y.MemOk) : (y.memRead cfg addr n).2.MemOk := by
  unfold Sys.memRead
  split
  · exact h.turn
  · exact h.readBytes _ _ _

theorem Sys.MemOk.memWrite {cfg : Config} {addr : Nat} {bs : List Byte} {y : Sys} (h : y.MemOk) :
    (y.memWrite cfg addr bs).MemOk := by
  unfold Sys.memWrite
  split
  · exact ⟨Memory.write_wf _ _ h.turn.1, h.turn.2⟩
  · exact h.writeBytes _ _

theorem Sys.MemOk.regRead {cfg : Config} {addr n : Nat} {y : Sys} (h : y.MemOk) : (y.regRead cfg addr n).2.MemOk :=
  h.turn

theorem Sys.MemOk.regWrite {cfg : Config} {addr : Nat} {bs : List Byte} {y : Sys} (h : y.MemOk) :
    (y.regWrite cfg addr bs).MemOk :=
  ⟨h.turn.1, Memory.write_wf _ _ h.turn.2⟩

theorem Sys.MemOk.tick {cfg : Config} {y : Sys} (h : y.MemOk) : (y.tick cfg).MemOk := h.turn

theorem Sys.MemOk.bufAlloc {len : Nat} {y : Sys} (h : y.MemOk) : (y.bufAlloc len).2.MemOk := by
  unfold Sys.bufAlloc; split <;> exact h

theorem Sys.MemOk.ring {cfg : Config} {un : QcqUnit} {y : Sys} (h : y.MemOk) : (un.ring cfg y).MemOk :=
  Sys.MemOk.regWrite (h.record _)

/-! ### Accesses use up the schedule -/

theorem Sys.readBytes_sched_le (cfg : Config) (addr f : Nat) (rem : List Nat) (acc : List Byte) (y : Sys) :
    (y.readBytes cfg addr f rem acc).2.sched.length ≤ y.sched.length := by
  induction f generalizing rem acc y with
  | zero => exact le_rfl
  | succ f ih =>
    refine (ih _ _ _).trans ?_
    rw [(Sys.turn_sched cfg y).1, List.length_tail]
    omega

/-- A ring-memory read takes no slot back. -/
theorem Sys.memRead_sched_le (cfg : Config) (addr n : Nat) (y : Sys) :
    (y.memRead cfg addr n).2.sched.length ≤ y.sched.length := by
  unfold Sys.memRead
  split
  · simp [(Sys.turn_sched cfg y).1]
  · exact Sys.readBytes_sched_le cfg addr n _ _ y

/-- A read of one byte is one turn and one read. -/
theorem Sys.memRead_one (cfg : Config) (addr : Nat) (y : Sys) :
    y.memRead cfg addr 1 =
      ([(y.turn cfg).2.mem.get addr], (y.turn cfg).2.record (.memRead addr [(y.turn cfg).2.mem.get addr])) := by
  simp [Sys.memRead, atomicAccess, Memory.read, Nat.mod_one]

/-! ### Accesses under a silent device -/

/-- What a silent device's turn leaves alone. -/
theorem Sys.Quiet.turn_fields {y : Sys} (cfg : Config) (h : y.Quiet) :
    (y.turn cfg).2.mem = y.mem ∧ (y.turn cfg).2.reg = y.reg ∧ (y.turn cfg).2.dev = y.dev ∧
    (y.turn cfg).2.fwRunning = y.fwRunning ∧ (y.turn cfg).2.trace = y.trace := by
  rw [h.turn_eq cfg]; exact ⟨rfl, rfl, rfl, rfl, rfl⟩

theorem Sys.Quiet.record {y : Sys} (h : y.Quiet) (e : PortEvent) : (y.record e).Quiet := h

/-- The byte reads under a silent device: nothing moves, and every offset in `rem` has been read. -/
theorem Sys.Quiet.readBytes {cfg : Config} {addr : Nat} (f : Nat) (rem : List Nat) (acc : List Byte) {y : Sys}
    (h : y.Quiet) (hl : rem.length = f) (hd : rem.Nodup) (hb : ∀ k ∈ rem, k < acc.length) :
    (y.readBytes cfg addr f rem acc).2.Quiet ∧ (y.readBytes cfg addr f rem acc).2.mem = y.mem ∧
    (y.readBytes cfg addr f rem acc).2.reg = y.reg ∧ (y.readBytes cfg addr f rem acc).2.trace = y.trace ∧
    (y.readBytes cfg addr f rem acc).1.length = acc.length ∧
    ∀ k < acc.length, (y.readBytes cfg addr f rem acc).1.getD k 0 =
      if k ∈ rem then y.mem.get (addr + k) else acc.getD k 0 := by
  induction f generalizing rem acc y with
  | zero =>
    have : rem = [] := List.length_eq_zero_iff.mp hl
    subst this
    exact ⟨h, rfl, rfl, rfl, rfl, fun k _ => by simp [Sys.readBytes]⟩
  | succ f ih =>
    have hpos : 0 < rem.length := by omega
    set i := (y.turn cfg).1 % rem.length with hi
    have hil : i < rem.length := Nat.mod_lt _ hpos
    set k0 := rem.getD i 0 with hk0
    have hk0e : k0 = rem[i] := by simp [hk0, List.getD_eq_getElem?_getD, hil]
    have hk0m : k0 ∈ rem := by rw [hk0e]; exact List.getElem_mem hil
    obtain ⟨tm, tr, _, _, tt⟩ := h.turn_fields cfg
    set acc' := acc.set k0 ((y.turn cfg).2.mem.get (addr + k0)) with hacc
    have hmem : ∀ k, k ∈ rem.eraseIdx i ↔ k ∈ rem ∧ k ≠ k0 := by
      intro k
      have : rem.eraseIdx i = rem.erase k0 := by
        rw [hk0e]; exact (hd.erase_getElem (i := i) hil).symm
      rw [this, hd.mem_erase_iff]; tauto
    obtain ⟨q, m, r, t, l, v⟩ := ih (rem.eraseIdx i) acc' (y := (y.turn cfg).2) h.turn
      (by rw [List.length_eraseIdx_of_lt hil]; omega)
      (hd.sublist (List.eraseIdx_sublist rem i))
      (fun k hk => by simpa [hacc] using hb k ((hmem k).mp hk).1)
    have e : y.readBytes cfg addr (f + 1) rem acc =
        (y.turn cfg).2.readBytes cfg addr f (rem.eraseIdx i) acc' := rfl
    rw [e]
    refine ⟨q, m.trans tm, r.trans tr, t.trans tt, by simpa [hacc] using l, fun k hk => ?_⟩
    rw [v k (by simpa [hacc] using hk), tm]
    by_cases hkk : k = k0
    · have : k0 < acc.length := hb k0 hk0m
      subst hkk
      simp [hmem, hk0m, hacc, tm, List.getD_eq_getElem?_getD, hk]
    · have : acc'.getD k 0 = acc.getD k 0 := by
        simp [hacc, List.getD_eq_getElem?_getD, List.getElem?_set_ne (Ne.symm hkk)]
      simp only [hmem, hkk, ne_eq, not_false_eq_true, and_true, this]

/-- The byte writes under a silent device: exactly the bytes of the range change. -/
theorem Sys.Quiet.writeBytes {cfg : Config} {addr : Nat} {bs : List Byte} (f : Nat) (rem : List Nat) {y : Sys}
    (h : y.Quiet) (hl : rem.length = f) (hd : rem.Nodup) (hw : y.MemOk) :
    (y.writeBytes cfg addr bs f rem).Quiet ∧ (y.writeBytes cfg addr bs f rem).reg = y.reg ∧
    (y.writeBytes cfg addr bs f rem).trace = y.trace ∧ (y.writeBytes cfg addr bs f rem).dev = y.dev ∧
    (∀ k ∈ rem, (y.writeBytes cfg addr bs f rem).mem.get (addr + k) = bs.getD k 0) ∧
    ∀ a, (∀ k ∈ rem, a ≠ addr + k) → (y.writeBytes cfg addr bs f rem).mem.get a = y.mem.get a := by
  induction f generalizing rem y with
  | zero =>
    have : rem = [] := List.length_eq_zero_iff.mp hl
    subst this
    exact ⟨h, rfl, rfl, rfl, fun k hk => by simp at hk, fun a _ => rfl⟩
  | succ f ih =>
    have hpos : 0 < rem.length := by omega
    set i := (y.turn cfg).1 % rem.length with hi
    have hil : i < rem.length := Nat.mod_lt _ hpos
    set k0 := rem.getD i 0 with hk0
    have hk0e : k0 = rem[i] := by simp [hk0, List.getD_eq_getElem?_getD, hil]
    have hk0m : k0 ∈ rem := by rw [hk0e]; exact List.getElem_mem hil
    obtain ⟨tm, tr, td, _, tt⟩ := h.turn_fields cfg
    have hmem : ∀ k, k ∈ rem.eraseIdx i ↔ k ∈ rem ∧ k ≠ k0 := by
      intro k
      have : rem.eraseIdx i = rem.erase k0 := by
        rw [hk0e]; exact (hd.erase_getElem (i := i) hil).symm
      rw [this, hd.mem_erase_iff]; tauto
    set z : Sys := { (y.turn cfg).2 with mem := (y.turn cfg).2.mem.set (addr + k0) (bs.getD k0 0) } with hz
    have hzq : z.Quiet := h.turn (cfg := cfg)
    have hzw : z.MemOk := ⟨Memory.set_wf _ _ hw.turn.1, hw.turn.2⟩
    obtain ⟨q, r, t, d, inn, out⟩ := ih (rem.eraseIdx i) (y := z) hzq
      (by rw [List.length_eraseIdx_of_lt hil]; omega)
      (hd.sublist (List.eraseIdx_sublist rem i)) hzw
    have e : y.writeBytes cfg addr bs (f + 1) rem = z.writeBytes cfg addr bs f (rem.eraseIdx i) := rfl
    rw [e]
    refine ⟨q, r.trans tr, t.trans tt, d.trans td, fun k hk => ?_, fun a ha => ?_⟩
    · by_cases hkk : k = k0
      · rw [out (addr + k) (fun k' hk' he => ((hmem k').mp hk').2 (by omega))]
        rw [hkk]; exact Memory.get_set_self _ _ hw.turn.1
      · exact inn k ((hmem k).mpr ⟨hk, hkk⟩)
    · rw [out a (fun k' hk' => ha k' ((hmem k').mp hk').1), hz]
      show ((y.turn cfg).2.mem.set _ _).get a = _
      rw [Memory.get_set_other _ _ (ha k0 hk0m), tm]

/-- `MemRead` under a silent device: the bytes in memory, and nothing changes but the schedule and the record. -/
theorem Sys.Quiet.memRead {cfg : Config} {addr n : Nat} {y : Sys} (h : y.Quiet) :
    (y.memRead cfg addr n).1 = y.mem.read addr n ∧ (y.memRead cfg addr n).2.Quiet ∧
    (y.memRead cfg addr n).2.mem = y.mem ∧ (y.memRead cfg addr n).2.reg = y.reg ∧
    (y.memRead cfg addr n).2.trace = .memRead addr (y.mem.read addr n) :: y.trace := by
  unfold Sys.memRead
  split
  · obtain ⟨tm, tr, _, _, tt⟩ := h.turn_fields cfg
    exact ⟨by simp only [tm], h.turn, tm, tr, by simp [tm, tt]⟩
  · obtain ⟨q, m, r, t, l, v⟩ := h.readBytes (cfg := cfg) (addr := addr) n (List.range n) (List.replicate n 0)
      (by simp) List.nodup_range (by simp)
    generalize y.readBytes cfg addr n (List.range n) (List.replicate n 0) = w at q m r t l v ⊢
    have l' : w.1.length = n := by simpa using l
    have key : w.1 = y.mem.read addr n := by
      refine List.ext_getElem (by simp [l', Memory.length_read]) (fun k h1 h2 => ?_)
      have hk : k < n := by omega
      have e1 := v k (by simpa using hk)
      have e2 := Memory.getD_read y.mem (a := addr) hk
      simp only [List.mem_range, hk, if_true] at e1
      rw [← e2] at e1
      simpa only [List.getD_eq_getElem?_getD, List.getElem?_eq_getElem h1, List.getElem?_eq_getElem h2,
        Option.getD_some] using e1
    exact ⟨key, q, m, r, by simp [key, t]⟩

/-- `MemWrite` under a silent device: exactly the written bytes change. -/
theorem Sys.Quiet.memWrite {cfg : Config} {addr : Nat} {bs : List Byte} {y : Sys} (h : y.Quiet) (hw : y.MemOk) :
    (y.memWrite cfg addr bs).Quiet ∧ (y.memWrite cfg addr bs).reg = y.reg ∧
    (y.memWrite cfg addr bs).trace = .memWrite addr bs :: y.trace ∧
    (∀ k < bs.length, (y.memWrite cfg addr bs).mem.get (addr + k) = bs.getD k 0) ∧
    ∀ a, (a < addr ∨ addr + bs.length ≤ a) → (y.memWrite cfg addr bs).mem.get a = y.mem.get a := by
  unfold Sys.memWrite
  split
  · obtain ⟨tm, tr, _, _, tt⟩ := h.turn_fields cfg
    refine ⟨h.turn, tr, by simp [tt], fun k hk => ?_, fun a ha => ?_⟩
    · exact Memory.get_write_inside bs k hw.turn.1 hk
    · show ((y.turn cfg).2.mem.write addr bs).get a = _
      rw [Memory.get_write_other _ _ ha, tm]
  · obtain ⟨q, r, t, _, inn, out⟩ := h.writeBytes (cfg := cfg) (addr := addr) (bs := bs) bs.length
      (List.range bs.length) (by simp) List.nodup_range hw
    refine ⟨q, r, by simp [t], fun k hk => inn k (by simpa using hk), fun a ha => ?_⟩
    exact out a (fun k hk => by have := List.mem_range.mp hk; omega)

/-- `RegRead` under a silent device. -/
theorem Sys.Quiet.regRead {cfg : Config} {addr n : Nat} {y : Sys} (h : y.Quiet) :
    (y.regRead cfg addr n).1 = y.reg.read addr n ∧ (y.regRead cfg addr n).2.Quiet ∧
    (y.regRead cfg addr n).2.mem = y.mem ∧ (y.regRead cfg addr n).2.reg = y.reg ∧
    (y.regRead cfg addr n).2.dev = y.dev ∧
    (y.regRead cfg addr n).2.trace = .regRead addr (y.reg.read addr n) :: y.trace := by
  obtain ⟨tm, tr, td, _, tt⟩ := h.turn_fields cfg
  exact ⟨by simp [Sys.regRead, tr], h.turn, tm, tr, td, by simp [Sys.regRead, tr, tt]⟩

/-- `RegWrite` under a silent device. -/
theorem Sys.Quiet.regWrite {cfg : Config} {addr : Nat} {bs : List Byte} {y : Sys} (h : y.Quiet) :
    (y.regWrite cfg addr bs).Quiet ∧ (y.regWrite cfg addr bs).mem = y.mem ∧
    (y.regWrite cfg addr bs).reg = y.reg.write addr bs ∧
    (y.regWrite cfg addr bs).dev = y.dev.observe cfg (y.doneBit cfg) addr bs ∧
    (y.regWrite cfg addr bs).trace = .regWrite addr bs :: y.trace := by
  obtain ⟨tm, tr, td, _, tt⟩ := h.turn_fields cfg
  exact ⟨h.turn, tm, by simp [Sys.regWrite, tr], by simp [Sys.regWrite, Sys.doneBit, td, tr], by simp [Sys.regWrite, tt]⟩

/-- `tick()` under a silent device. -/
theorem Sys.Quiet.tick {cfg : Config} {y : Sys} (h : y.Quiet) :
    (y.tick cfg).Quiet ∧ (y.tick cfg).mem = y.mem ∧ (y.tick cfg).reg = y.reg ∧ (y.tick cfg).dev = y.dev ∧
    (y.tick cfg).trace = .tick :: y.trace := by
  obtain ⟨tm, tr, td, _, tt⟩ := h.turn_fields cfg
  exact ⟨h.turn, tm, tr, td, by simp [Sys.tick, tt]⟩

/-! ### The device's view of the units -/

/-- Noting consumptions and bringing the view up to date change the device's view only. -/
theorem Sys.note_eq (cfg : Config) (un : QcqUnit) (y : Sys) : y.note cfg un = { y with dev := (y.note cfg un).dev } := rfl

@[simp] theorem Sys.note_mem (cfg : Config) (un : QcqUnit) (y : Sys) : (y.note cfg un).mem = y.mem := rfl
@[simp] theorem Sys.note_reg (cfg : Config) (un : QcqUnit) (y : Sys) : (y.note cfg un).reg = y.reg := rfl
@[simp] theorem Sys.note_sched (cfg : Config) (un : QcqUnit) (y : Sys) : (y.note cfg un).sched = y.sched := rfl
@[simp] theorem Sys.note_trace (cfg : Config) (un : QcqUnit) (y : Sys) : (y.note cfg un).trace = y.trace := rfl
@[simp] theorem Sys.note_fwRunning (cfg : Config) (un : QcqUnit) (y : Sys) : (y.note cfg un).fwRunning = y.fwRunning := rfl
@[simp] theorem Sys.note_bufAnswers (cfg : Config) (un : QcqUnit) (y : Sys) : (y.note cfg un).bufAnswers = y.bufAnswers := rfl
@[simp] theorem Sys.note_draws (cfg : Config) (un : QcqUnit) (y : Sys) : (y.note cfg un).draws = y.draws := rfl
@[simp] theorem Sys.note_breach (cfg : Config) (un : QcqUnit) (y : Sys) :
    (y.note cfg un).dev.breach = y.dev.breach := rfl
@[simp] theorem Sys.note_cmds (cfg : Config) (un : QcqUnit) (y : Sys) : (y.note cfg un).dev.cmds = y.dev.cmds := rfl

theorem Sys.sync_eq (cfg : Config) (units : List QcqUnit) (y : Sys) :
    y.sync cfg units =
      { y with dev := { y.dev with rings := (y.sync cfg units).dev.rings, offers := (y.sync cfg units).dev.offers } } := by
  have key : ∀ (us : List QcqUnit) (z : Sys), us.foldl (fun z un => z.note cfg un) z =
      { z with dev := { z.dev with rings := (us.foldl (fun z un => z.note cfg un) z).dev.rings } } := by
    intro us
    induction us with
    | nil => exact fun z => rfl
    | cons un us ih =>
      intro z
      rw [List.foldl_cons]
      have := ih (z.note cfg un)
      generalize us.foldl (fun z un => z.note cfg un) (z.note cfg un) = w at this ⊢
      rw [this]
      rfl
  unfold Sys.sync
  have := key units y
  generalize units.foldl (fun z un => z.note cfg un) y = w at this ⊢
  rw [this]
  rfl

@[simp] theorem Sys.sync_mem (cfg : Config) (units : List QcqUnit) (y : Sys) : (y.sync cfg units).mem = y.mem := by
  rw [Sys.sync_eq]
@[simp] theorem Sys.sync_reg (cfg : Config) (units : List QcqUnit) (y : Sys) : (y.sync cfg units).reg = y.reg := by
  rw [Sys.sync_eq]
@[simp] theorem Sys.sync_fwRunning (cfg : Config) (units : List QcqUnit) (y : Sys) : (y.sync cfg units).fwRunning = y.fwRunning := by
  rw [Sys.sync_eq]
@[simp] theorem Sys.sync_sched (cfg : Config) (units : List QcqUnit) (y : Sys) : (y.sync cfg units).sched = y.sched := by
  rw [Sys.sync_eq]
@[simp] theorem Sys.sync_bufAnswers (cfg : Config) (units : List QcqUnit) (y : Sys) : (y.sync cfg units).bufAnswers = y.bufAnswers := by
  rw [Sys.sync_eq]
@[simp] theorem Sys.sync_draws (cfg : Config) (units : List QcqUnit) (y : Sys) : (y.sync cfg units).draws = y.draws := by
  rw [Sys.sync_eq]
@[simp] theorem Sys.sync_trace (cfg : Config) (units : List QcqUnit) (y : Sys) : (y.sync cfg units).trace = y.trace := by
  rw [Sys.sync_eq]
@[simp] theorem Sys.sync_cmds (cfg : Config) (units : List QcqUnit) (y : Sys) :
    (y.sync cfg units).dev.cmds = y.dev.cmds := by
  rw [Sys.sync_eq]
@[simp] theorem Sys.sync_answered (cfg : Config) (units : List QcqUnit) (y : Sys) :
    (y.sync cfg units).dev.answered = y.dev.answered := by
  rw [Sys.sync_eq]
@[simp] theorem Sys.sync_breach (cfg : Config) (units : List QcqUnit) (y : Sys) :
    (y.sync cfg units).dev.breach = y.dev.breach := by
  rw [Sys.sync_eq]

theorem State.sync_eq (s : State) : s.sync = { s with sys := s.sys.sync s.cfg s.units } := rfl

theorem Sys.Quiet.note {y : Sys} (h : y.Quiet) (cfg : Config) (un : QcqUnit) : (y.note cfg un).Quiet := h

theorem Sys.MemOk.note {y : Sys} (h : y.MemOk) (cfg : Config) (un : QcqUnit) : (y.note cfg un).MemOk := h

theorem Sys.MemOk.sync {y : Sys} (h : y.MemOk) (cfg : Config) (units : List QcqUnit) : (y.sync cfg units).MemOk := by
  rw [Sys.sync_eq]; exact h

/-- The pending test reads one byte, whatever the surroundings do first (spec/41_completion_ring.md R164). -/
theorem QcqUnit.pending_eq (cfg : Config) (un : QcqUnit) (y : Sys) :
    un.pending cfg y =
      (((((y.note cfg un).turn cfg).2.mem.get (un.colorAddr un.cq.tail)).getLsbD 7 == un.cq.doneColor),
        ((y.note cfg un).turn cfg).2.record
          (.memRead (un.colorAddr un.cq.tail) [((y.note cfg un).turn cfg).2.mem.get (un.colorAddr un.cq.tail)])) := by
  simp [QcqUnit.pending, Sys.memRead_one]

/-- The pending test under a silent device is the test of memory. -/
theorem Sys.Quiet.pending {y : Sys} (h : y.Quiet) (cfg : Config) (un : QcqUnit) :
    (un.pending cfg y).1 = un.tailPending y ∧ (un.pending cfg y).2.Quiet ∧ (un.pending cfg y).2.mem = y.mem ∧
    (un.pending cfg y).2.reg = y.reg ∧
    (un.pending cfg y).2.trace =
      .memRead (un.colorAddr un.cq.tail) [y.mem.get (un.colorAddr un.cq.tail)] :: y.trace := by
  obtain ⟨tm, tr, _, _, tt⟩ := (h.note cfg un).turn_fields cfg
  rw [QcqUnit.pending_eq]
  exact ⟨by simp [tm, QcqUnit.tailPending], (h.note cfg un).turn, by simp [tm], by simp [tr], by simp [tm, tt]⟩

theorem Sys.MemOk.pending {y : Sys} (h : y.MemOk) (cfg : Config) (un : QcqUnit) : (un.pending cfg y).2.MemOk :=
  (h.note cfg un).memRead

end Sys2Proof.Machine
end

