-- ==== Sys2Proof/Laws/Duties.lean ====
section
/-! SUPPORT. The requester's book (spec/20_memory.md R87): what a request can do to it, and that it lists only what the
requester wrote. -/

namespace Sys2Proof.Machine

/-- What a request can do to the book: Q.ADVHEAD posts the slot at the head, Q.DBELL announces, Q.INIT forgets, and every
other request leaves it. -/
theorem Duties.onRequest_cases (cfg : Config) (a0 : Word64) (d : Duties) (i : Instr) (u : UnitId) (un : QcqUnit) :
    (i = .qAdvHead u ∧ d.onRequest cfg a0 i u un = d.post ⟨u, un.qSlot un.q.head, un.q.descSize.toNat⟩) ∨
    (i = .qDbell u ∧ d.onRequest cfg a0 i u un = d.announce u) ∨
    (i = .qInit u ∧ d.onRequest cfg a0 i u un = d.forget u) ∨ d.onRequest cfg a0 i u un = d := by
  unfold Duties.onRequest
  split
  · next h => exact .inl ⟨h.1, rfl⟩
  · split
    · next h => exact .inr (.inl ⟨h.1, rfl⟩)
    · split
      · next h => exact .inr (.inr (.inl ⟨h.1, rfl⟩))
      · exact .inr (.inr (.inr rfl))

/-- No request writes memory: the book lists no new address as written. -/
theorem Duties.onRequest_written (cfg : Config) (a0 : Word64) (d : Duties) (i : Instr) (u : UnitId) (un : QcqUnit) :
    ∀ a ∈ (d.onRequest cfg a0 i u un).written, a ∈ d.written := by
  intro a ha
  obtain ⟨-, h⟩ | ⟨-, h⟩ | ⟨-, h⟩ | h := Duties.onRequest_cases cfg a0 d i u un <;> rw [h] at ha
  · exact ha
  · exact List.mem_of_mem_filter ha
  · exact ha
  · exact ha

theorem State.requestDuties_written (s : State) (w : Word32) : ∀ a ∈ (s.requestDuties w).written, a ∈ s.duties.written := by
  unfold State.requestDuties
  split
  · exact fun _ h => h
  · split
    · exact fun _ h => h
    · split
      · exact fun _ h => h
      · exact Duties.onRequest_written _ _ _ _ _ _

/-- The record shows that the requester wrote the byte at `a`. -/
def Sys.RequesterWrote (y : Sys) (a : Nat) : Prop :=
  ∃ b bs, PortEvent.requesterWrite b bs ∈ y.trace ∧ b ≤ a ∧ a < b + bs.length

/-- Every address that the book lists as written is one that the requester wrote. -/
def State.BookTrue (s : State) : Prop := ∀ a ∈ s.duties.written, s.sys.RequesterWrote a

/-- A move of the outside keeps the book true. -/
theorem State.BookTrue.hostEvent {s : State} (h : s.BookTrue) (e : HostEvent) : (s.hostEvent e).BookTrue := by
  cases e with
  | setArg i v => fin_cases i <;> exact h
  | setCmd c => exact h
  | request w =>
    simp only [State.hostEvent, State.request]
    split
    · exact h
    · intro a ha
      have := h a (State.requestDuties_written s w a ha)
      simpa [State.sync, Sys.RequesterWrote] using this
  | memWrite addr bs =>
    simp only [State.hostEvent, State.requesterWrites]
    split
    · intro a ha
      simp only [Duties.wrote, HandSlot.addrs, List.mem_append, List.mem_map, List.mem_range] at ha
      obtain ⟨k, hk, rfl⟩ | ha := ha
      · exact ⟨addr.toNat, bs, by simp, by omega, by omega⟩
      · obtain ⟨b, cs, hm, h1⟩ := h a ha
        exact ⟨b, cs, by simp [hm], h1⟩
    · exact h
  | dcData k b => simp only [State.hostEvent]; split <;> exact h
  | fwRunning b => exact h
  | deviceInfo k b => simp only [State.hostEvent]; split <;> exact h
  | device a =>
    intro x hx
    have := h x hx
    simpa [State.hostEvent, Sys.RequesterWrote, (Sys.devAct_sched s.cfg _ a).2, State.sync] using this
  | ringTold u =>
    intro x hx
    have := h x hx
    simpa [State.hostEvent, Sys.RequesterWrote, State.sync] using this
  | deviceReset => exact h
  | bufAnswer a => exact h
  | resetInput => exact h

end Sys2Proof.Machine
end

