-- ==== Sys2Proof/Laws/Ops.lean ====
section
/-! SUPPORT. What the shared control operations can answer, said once: the unit check, the precondition, the ring
check, the end of an operation; and the index arithmetic of spec/40_queue.md R153 in closed form. -/

namespace Sys2Proof.Machine

/-! ### How an operation ends -/

theorem State.raise_eq_next {s t : State} {X : ResultCode} {v : Word64} :
    s.raise X v = .next t ↔ t = s.finish X v := by
  simp [State.raise, eq_comm]

theorem State.done_eq_next {s t : State} {v : Word64} : s.done v = .next t ↔ t = s.finish .ok v := by
  simp [State.done, eq_comm]

theorem State.require_true (s : State) (k : Result) : s.require true k = k := rfl

theorem State.require_false (s : State) (k : Result) : s.require false k = s.raise .badState 0 := rfl

/-- A precondition answers BadState or lets the operation go on. -/
theorem State.require_cases {s t : State} {p : Bool} {k : Result} (h : s.require p k = .next t) :
    (p = false ∧ t = s.finish .badState 0) ∨ (p = true ∧ k = .next t) := by
  cases p
  · exact .inl ⟨rfl, State.raise_eq_next.mp h⟩
  · exact .inr ⟨rfl, h⟩

theorem requireRing_true (k : Result) : requireRing true k = k := rfl

theorem requireRing_eq_next {p : Bool} {k : Result} {t : State} :
    requireRing p k = .next t ↔ p = true ∧ k = .next t := by
  cases p <;> simp [requireRing]

/-- The unit check lets the operation go on with the unit it acts on. -/
theorem State.onUnit_of_actsOn {i : Instr} {u : UnitId} {s : State} {un : QcqUnit} (h : ActsOn i u s un)
    (k : QcqUnit → Result) : s.onUnit i u k = k un := by
  simp [State.onUnit, h.1, h.2]

/-- The unit check answers IllegalRequest or finds the unit. -/
theorem State.onUnit_cases {i : Instr} {u : UnitId} {s : State} {k : QcqUnit → Result} {r : Result}
    (h : s.onUnit i u k = r) :
    r = s.illegal ∨ ∃ un, ActsOn i u s un ∧ k un = r := by
  unfold State.onUnit at h
  split at h
  · exact .inl h.symm
  · next un hu =>
    split at h
    · next hr => exact .inr ⟨un, ⟨hu, hr⟩, h⟩
    · exact .inl h.symm

/-- An operation on a unit that does not exist or has the wrong role is illegal. -/
theorem State.onUnit_of_not_wf {i : Instr} {u : UnitId} {s : State} (k : QcqUnit → Result) (hu : i.unit? = some u)
    (h : i.wf s.roles = false) : s.onUnit i u k = s.illegal := by
  unfold State.onUnit
  simp only [Instr.wf, hu, State.roles, List.getElem?_map] at h
  split
  · rfl
  · next un hs => simp only [hs, Option.map_some] at h; simp [h]

/-! ### Index arithmetic -/

theorem modNat_eq {a : Int} {n : Nat} (h0 : 0 ≤ a) (h1 : a < n) : modNat a n = a.toNat := by
  rw [modNat, Int.emod_eq_of_lt h0 h1]

theorem modNat_neg {a : Int} {n : Nat} (h0 : a < 0) (h1 : -a ≤ n) : modNat a n = (a + n).toNat := by
  rw [modNat, ← Int.add_emod_right, Int.emod_eq_of_lt (by omega) (by omega)]

theorem modNat_lt {a : Int} {n : Nat} (h : 0 < n) : modNat a n < n := by
  have h1 := Int.emod_lt_of_pos a (show (0 : Int) < n by exact_mod_cast h)
  have h2 := Int.emod_nonneg a (show (n : Int) ≠ 0 by exact_mod_cast h.ne')
  unfold modNat; omega

/-- The difference of two indices below the capacity, modulo the capacity (spec/40_queue.md R153). -/
theorem modNat_sub {a b n : Nat} (ha : a < n) (hb : b < n) :
    modNat ((a : Int) - (b : Int)) n = if b ≤ a then a - b else a + n - b := by
  split
  · rw [modNat_eq (by omega) (by omega)]; omega
  · rw [modNat_neg (by omega) (by omega)]; omega

/-- `in_flight` in closed form (spec/40_queue.md R153). -/
theorem QcqUnit.inFlight_eq {un : QcqUnit} (hh : un.q.head.toNat < un.cap) (ht : un.q.tail.toNat < un.cap) :
    un.inFlight = if un.q.tail.toNat ≤ un.q.head.toNat then un.q.head.toNat - un.q.tail.toNat
      else un.q.head.toNat + un.cap - un.q.tail.toNat :=
  modNat_sub hh ht

theorem QcqUnit.inFlight_lt {un : QcqUnit} (h : 0 < un.cap) : un.inFlight < un.cap := modNat_lt h

/-- `next` in closed form, for a capacity of at most 65536 (spec/40_queue.md R153). -/
theorem nextIndex_toNat {i : Word16} {C : Nat} (hi : i.toNat < C) (hC : C ≤ 65536) :
    (nextIndex i C).toNat = if i.toNat + 1 = C then 0 else i.toNat + 1 := by
  unfold nextIndex
  rw [BitVec.toNat_ofNat]
  split
  · next h => rw [h]; simp
  · next h =>
    rw [Nat.mod_eq_of_lt (show i.toNat + 1 < C by omega), Nat.mod_eq_of_lt (by omega)]

theorem nextIndex_lt {i : Word16} {C : Nat} (hi : i.toNat < C) (hC : C ≤ 65536) : (nextIndex i C).toNat < C := by
  rw [nextIndex_toNat hi hC]; split <;> omega

end Sys2Proof.Machine
end

