-- ==== Sys2Proof/Laws/PerInstr.lean ====
section
/-! SUPPORT. The family OpCode: the request word of an operation carries the operation code of the operation's own row of
spec/opcode_table.json (spec/30_encoding.md R103). -/

namespace Sys2Proof.Laws.OpCode

/-- The word's `op` field is that of the operation's row. -/
def Statement (i : Instr) : Prop := (opRows[i.row]?).map (fun r => opOf r.value) = some (opOf (encode i))

theorem qInit (u : UnitId) : Statement (.qInit u) := by
  simp only [Statement, encode, opOf_requestWord, Instr.row]; decide
theorem qSpace (u : UnitId) : Statement (.qSpace u) := by
  simp only [Statement, encode, opOf_requestWord, Instr.row]; decide
theorem qHasSpace (u : UnitId) (n : Word16) : Statement (.qHasSpace u n) := by
  simp only [Statement, encode, opOf_requestWord, Instr.row]; decide
theorem qAdvHead (u : UnitId) : Statement (.qAdvHead u) := by
  simp only [Statement, encode, opOf_requestWord, Instr.row]; decide
theorem qAdvTail (u : UnitId) : Statement (.qAdvTail u) := by
  simp only [Statement, encode, opOf_requestWord, Instr.row]; decide
theorem qDbell (u : UnitId) : Statement (.qDbell u) := by
  simp only [Statement, encode, opOf_requestWord, Instr.row]; decide
theorem cqInit (u : UnitId) : Statement (.cqInit u) := by
  simp only [Statement, encode, opOf_requestWord, Instr.row]; decide
theorem cqBind (u : UnitId) : Statement (.cqBind u) := by
  simp only [Statement, encode, opOf_requestWord, Instr.row]; decide
theorem cqPend (u : UnitId) : Statement (.cqPend u) := by
  simp only [Statement, encode, opOf_requestWord, Instr.row]; decide
theorem cqNext (u : UnitId) : Statement (.cqNext u) := by
  simp only [Statement, encode, opOf_requestWord, Instr.row]; decide
theorem qcqDown (u : UnitId) : Statement (.qcqDown u) := by
  simp only [Statement, encode, opOf_requestWord, Instr.row]; decide
theorem dcPost : Statement .dcPost := by
  simp only [Statement, encode, opOf_requestWord, Instr.row]; decide
theorem dcWait (n : Word16) : Statement (.dcWait n) := by
  simp only [Statement, encode, opOf_requestWord, Instr.row]; decide
theorem dcStatus : Statement .dcStatus := by
  simp only [Statement, encode, opOf_requestWord, Instr.row]; decide
theorem dcGo (n : Word16) : Statement (.dcGo n) := by
  simp only [Statement, encode, opOf_requestWord, Instr.row]; decide
theorem diCheck : Statement .diCheck := by
  simp only [Statement, encode, opOf_requestWord, Instr.row]; decide
theorem aqPostWait (u : UnitId) : Statement (.aqPostWait u) := by
  simp only [Statement, encode, opOf_requestWord, Instr.row]; decide
theorem nqPoll (u : UnitId) (p : Bool) : Statement (.nqPoll u p) := by
  simp only [Statement, encode, opOf_requestWord, Instr.row]; decide
theorem txXmit (u : UnitId) : Statement (.txXmit u) := by
  simp only [Statement, encode, opOf_requestWord, Instr.row]; decide
theorem txPoll (u : UnitId) : Statement (.txPoll u) := by
  simp only [Statement, encode, opOf_requestWord, Instr.row]; decide
theorem rxFill (u : UnitId) (n : Word16) : Statement (.rxFill u n) := by
  simp only [Statement, encode, opOf_requestWord, Instr.row]; decide
theorem rxPoll (u : UnitId) : Statement (.rxPoll u) := by
  simp only [Statement, encode, opOf_requestWord, Instr.row]; decide
theorem qcqFlush (u : UnitId) : Statement (.qcqFlush u) := by
  simp only [Statement, encode, opOf_requestWord, Instr.row]; decide
theorem reset : Statement .reset := by
  simp only [Statement, encode, opOf_requestWord, Instr.row]; decide

end Sys2Proof.Laws.OpCode
end

