-- ==== Sys2Proof/Tests/Slice0.lean ====
section
/-! SUPPORT. The model's own tests. Expected results come from spec/95_test_vectors.md (its section is named in each
comment) or from the worked examples of the rules. The theorems named witness_ show, for every obligation with
hypotheses, a state and operands that meet them all. -/

namespace Sys2Proof.Tests

open Sys2Proof Sys2Proof.Machine

/-! ### Builders -/

/-- Unit `u` of configuration T after reset. -/
def unitT (u : Nat) : QcqUnit :=
  State.reset.units.getD u (QcqUnit.initial Config.default (UnitConfig.test .admin 0 0 0))

/-- Unit `u` of T, valid and bound: capacity, the two slot sizes, head, tail, CQ tail, colour, side table. -/
def ringT (u C ds cds head tail cqTail : Nat) (color : Bool) (side : SideTable) : QcqUnit :=
  { unitT u with
    q := { valid := true, capacity := BitVec.ofNat 17 C, descSize := BitVec.ofNat 32 ds, sgDescSize := 0
           head := BitVec.ofNat 16 head, tail := BitVec.ofNat 16 tail }
    cq := { valid := true, bound := true, descSize := BitVec.ofNat 32 cds, tail := BitVec.ofNat 16 cqTail
            doneColor := color }
    side := side }

/-- The reset state with unit `u` replaced. -/
def withUnit (u : Nat) (un : QcqUnit) : State := { State.reset with units := State.reset.units.set u un }

/-- Ring memory, device registers and the schedule of a state. -/
def withMem (a : Nat) (bs : List Byte) (s : State) : State :=
  { s with sys := { s.sys with mem := s.sys.mem.write a bs } }
def withReg (a : Nat) (bs : List Byte) (s : State) : State :=
  { s with sys := { s.sys with reg := s.sys.reg.write a bs } }
def withSched (sl : List (List EnvAct)) (s : State) : State :=
  { s with sys := { s.sys with sched := sl.map (fun a => { acts := a, pick := 0 }) } }
def withArgs (a0 a1 a2 : Word64) (s : State) : State := { s with a0 := a0, a1 := a1, a2 := a2 }

/-- The state after an operation that completes. -/
def after (i : Instr) (s : State) : Option State :=
  match exec i s with
  | .next t => some t
  | .fault _ => none
  | .refused _ => none

/-- `R0` and `R1` after an operation that completes. -/
def results (i : Instr) (s : State) : Option (Byte × Word64) := (after i s).map (fun t => (t.r0, t.r1))

/-- Something of unit `u` after an operation that completes. -/
def unitAfter {β : Type} (i : Instr) (s : State) (u : Nat) (f : QcqUnit → β) : Option β :=
  (after i s).bind (fun t => (t.units[u]?).map f)

theorem exists_next {i : Instr} {s : State} (h : (after i s).isSome = true) : ∃ t, exec i s = .next t := by
  unfold after at h
  split at h
  · next t ht => exact ⟨t, ht⟩
  · simp at h
  · simp at h

theorem quiet_of_empty {s : State} (h : s.sys.sched = []) : s.Quiet := by
  intro sl hsl
  rw [h] at hsl
  simp at hsl

/-- Sixteen bytes of a completion: all zero but the ones given. -/
def comp16 (b0 b1 b2 b3 : Byte) (b8 b12 b13 b14 b15 : Byte) : List Byte :=
  [b0, b1, b2, b3, 0, 0, 0, 0, b8, 0, 0, 0, b12, b13, b14, b15]

/-- The fixtures: an admin, a notify, a TX and an RX unit, and their states. -/
def adminU : QcqUnit := ringT 0 4 64 16 0 0 0 true []
def notifyU : QcqUnit := ringT 1 4 16 16 0 0 0 true []
/-- Slots 6, 7, 0 and 1 in flight (spec/95_test_vectors.md section 2.7). -/
def txU : QcqUnit := ringT 2 8 16 16 2 6 0 true [(0, ⟨true, 0xC0⟩), (1, ⟨true, 0xC1⟩), (6, ⟨true, 0xC6⟩), (7, ⟨true, 0xC7⟩)]
def txFullU : QcqUnit := ringT 2 4 16 16 3 0 0 true [(0, ⟨true, 1⟩), (1, ⟨true, 2⟩), (2, ⟨true, 3⟩)]
def rxU : QcqUnit := ringT 3 4 16 16 1 0 0 true [(0, ⟨true, 0x20000⟩)]
def rxEmptyU : QcqUnit := ringT 3 4 16 16 0 0 0 true []
def adminS : State := { withUnit 0 adminU with ctxCmd := (List.replicate 64 (0 : Byte)).set 0 0x21 }
def notifyS : State := withUnit 1 notifyU
def txS : State := withUnit 2 txU
def rxS : State := withUnit 3 rxU
def postedS : State := { State.reset with dcState := .posted }
def doneS : State := { State.reset with dcState := .done }

/-! ### Well-formedness and decoding (spec/95_test_vectors.md section 2.1) -/

theorem test_wf_unit_exists : (Instr.qInit 3).wf State.reset.roles = true ∧ (Instr.qInit 4).wf State.reset.roles = false ∧
    (Instr.qSpace 255).wf State.reset.roles = false := by decide

theorem test_wf_roles : (Instr.aqPostWait 1).wf State.reset.roles = false ∧
    (Instr.nqPoll 0 true).wf State.reset.roles = false ∧ (Instr.txXmit 3).wf State.reset.roles = false ∧
    (Instr.txPoll 3).wf State.reset.roles = false ∧ (Instr.rxFill 2 1514).wf State.reset.roles = false ∧
    (Instr.rxPoll 2).wf State.reset.roles = false ∧ (Instr.qcqFlush 0).wf State.reset.roles = false ∧
    (Instr.qcqFlush 2).wf State.reset.roles = true ∧ (Instr.qcqFlush 3).wf State.reset.roles = true ∧
    (Instr.cqPend 2).wf State.reset.roles = true := by decide

theorem test_decode_queue : decode 0x00000101 = .ok (.qInit 1) ∧ decode 0x00000302 = .ok (.qSpace 3) ∧
    decode 0xFFFF0303 = .ok (.qHasSpace 3 65535) ∧ decode 0x00000004 = .ok (.qAdvHead 0) ∧
    decode 0x00000205 = .ok (.qAdvTail 2) ∧ decode 0x00000006 = .ok (.qDbell 0) := by decide

theorem test_decode_completion : decode 0x00000108 = .ok (.cqInit 1) ∧ decode 0x00000109 = .ok (.cqBind 1) ∧
    decode 0x0000020A = .ok (.cqPend 2) ∧ decode 0x0000000B = .ok (.cqNext 0) ∧
    decode 0x0000020C = .ok (.qcqDown 2) := by decide

theorem test_decode_devcmd : decode 0x00000010 = .ok .dcPost ∧ decode 0xFFFF0011 = .ok (.dcWait 65535) ∧
    decode 0x00000012 = .ok .dcStatus ∧ decode 0x00020013 = .ok (.dcGo 2) ∧ decode 0x00000014 = .ok .diCheck := by decide

theorem test_decode_protocols : decode 0x00000018 = .ok (.aqPostWait 0) ∧ decode 0x0001011C = .ok (.nqPoll 1 true) ∧
    decode 0x0000011C = .ok (.nqPoll 1 false) ∧ decode 0x00000220 = .ok (.txXmit 2) ∧
    decode 0x00000221 = .ok (.txPoll 2) ∧ decode 0x05EA0322 = .ok (.rxFill 3 1514) ∧
    decode 0x00000323 = .ok (.rxPoll 3) ∧ decode 0x00000224 = .ok (.qcqFlush 2) ∧ decode 0x0000003F = .ok .reset := by decide

theorem test_decode_reserved : decode 0x00000000 = .error .reservedOp ∧ decode 0x00000007 = .error .reservedOp ∧
    decode 0x0000000D = .error .reservedOp ∧ decode 0x00000015 = .error .reservedOp ∧
    decode 0x00000025 = .error .reservedOp ∧ decode 0x00000040 = .error .reservedOp ∧
    decode 0x000000FF = .error .reservedOp := by decide

theorem test_decode_must_be_zero : decode 0x0000013F = .error .mustBeZero ∧ decode 0x0001003F = .error .mustBeZero ∧
    decode 0x00000110 = .error .mustBeZero ∧ decode 0x00020111 = .error .mustBeZero ∧
    decode 0x00010101 = .error .mustBeZero ∧ decode 0x0002011C = .error .mustBeZero := by decide

theorem test_decode_table_word : decodeTableWord 32 0x05EA0322 = some (.rxFill 3 1514) ∧
    decodeTableWord 32 0x15 = none := by decide

theorem test_encode : encode (.rxFill 3 1514) = 0x05EA0322 ∧ encode (.nqPoll 1 true) = 0x0001011C ∧
    encode (.dcWait 2) = 0x00020011 := by decide

/-- Section 2.1: illegal, not BadState; `R1` is the word. -/
theorem test_illegal_request :
    (match step (State.reset.withFetchWord 32 0x00000402) with
      | .next t => (t.r0, t.r1, t.busy)
      | _ => (0, 0, true)) = (9, 0x402, false) := by decide

/-! ### Queue (S1, S2, section 2.2) -/

theorem test_qinit_space : results (.qInit 1) (withArgs 65536 64 0 State.reset) = some (0, 0) ∧
    results (.qSpace 1) (withUnit 1 (ringT 1 65536 64 16 5 65530 0 true [])) = some (0, 65524) := by decide

theorem test_qinit_rejects : results (.qInit 0) (withArgs 0x100000004 64 0 State.reset) = some (1, 0x100000004) ∧
    results (.qInit 0) (withArgs 12 64 0 State.reset) = some (1, 12) ∧
    results (.qInit 0) (withArgs 3 64 0 adminS) = some (8, 0) := by decide

theorem test_qhasspace : results (.qHasSpace 0 15) (withUnit 0 (ringT 0 16 64 16 0 0 0 true [])) = some (0, 1) ∧
    results (.qHasSpace 0 1) (withUnit 0 (ringT 0 16 64 16 0 1 0 true [])) = some (0, 0) := by decide

theorem test_qadvhead : unitAfter (.qAdvHead 0) (withUnit 0 (ringT 0 65536 64 16 65535 7 0 true [])) 0 (fun un => un.q.head) =
      some 0 ∧ results (.qAdvHead 0) (withUnit 0 (ringT 0 4 64 16 3 0 0 true [])) = some (2, 0) := by decide

theorem test_qadvtail : results (.qAdvTail 0) (withUnit 0 (ringT 0 65536 64 16 3 65535 0 true [])) = some (0, 65535) ∧
    results (.qAdvTail 0) (withUnit 0 (ringT 0 4 64 16 0 0 0 true [])) = some (8, 0) := by decide

theorem test_qdbell : (after (.qDbell 3) (withUnit 3 (ringT 3 16 16 16 5 0 0 true []))).map (fun t => t.sys.trace) =
    some [.regWrite 0xF0001018 [0x05, 0, 0, 0x03, 0, 0, 0, 0], .wmb] := by decide

theorem test_doorbell_value : doorbellValue Config.default 0x1234 5 0xABCDEF = 0x0000ABCDEF051234 ∧
    doorbellValue Config.default 0xFFFF 7 0xFFFFFF = 0x0000FFFFFF07FFFF := by decide

/-- A hand-driven unit, idle. -/
def handS : State := withUnit 0 adminU

/-- R87: slot 0 written before Q.ADVHEAD, then Q.DBELL; and slot 1 announced with one byte of it unwritten. -/
theorem test_descriptor_duty :
    let s1 := { handS with duties := handS.duties.wrote 0x100000 64 }
    let s2 := { s1 with duties := s1.requestDuties 0x00000004 }
    let s3 := { s2 with duties := s2.requestDuties 0x00000006 }
    let s4 := { withUnit 0 adminU.advHead with duties := s3.duties.wrote 0x100040 63 }
    let s5 := { s4 with duties := s4.requestDuties 0x00000004 }
    s3.duties = Duties.initial ∧ (s5.requestDuties 0x00000006).broken = [⟨0, 0x100040, 64⟩] := by decide +kernel

/-! ### Completion ring (S3, section 2.3) -/

theorem test_cqinit : unitAfter (.cqInit 1) (withArgs 16 0 0 State.reset) 1 (fun un => un.cq) =
    some { valid := true, bound := false, descSize := 16, tail := 0, doneColor := true } := by decide

theorem test_cqbind : results (.cqBind 1)
      (withUnit 1 { ringT 1 16 64 16 0 0 0 true [] with cq := { (ringT 1 16 64 16 0 0 0 true []).cq with bound := false } }) =
      some (0, 16) ∧ results (.cqBind 1) (withUnit 1 (ringT 1 16 64 16 0 0 0 true [])) = some (8, 0) := by decide

theorem test_cqpend : results (.cqPend 0) (withMem 0x10103F [0x80] (withUnit 0 (ringT 0 4 64 16 0 0 3 true []))) = some (0, 1) ∧
    results (.cqPend 0) (withMem 0x10103F [0x7F] (withUnit 0 (ringT 0 4 64 16 0 0 3 false []))) = some (0, 1) ∧
    results (.cqPend 0) (withMem 0x10100F [0x7F] adminS) = some (0, 0) := by decide

theorem test_cqpend_address : (after (.cqPend 0) (withUnit 0 (ringT 0 4 64 32 0 0 2 true []))).map (fun t => t.sys.trace) =
    some [.memRead 0x10105F [0]] := by decide

theorem test_cqnext : unitAfter (.cqNext 0) (withUnit 0 (ringT 0 65536 64 16 0 0 65535 false [])) 0
      (fun un => (un.cq.tail, un.cq.doneColor)) = some (0, true) ∧
    unitAfter (.cqNext 0) (withUnit 0 (ringT 0 4 64 16 0 0 2 false [])) 0 (fun un => (un.cq.tail, un.cq.doneColor)) =
      some (3, false) := by decide

theorem test_qcqdown : results (.qcqDown 2) txS = some (8, 0) ∧
    unitAfter (.qcqDown 0) adminS 0 (fun un => (un.q.valid, un.cq.valid, un.cq.bound)) = some (false, false, false) := by decide

/-! ### Device command channel (S4, S9, section 2.4) -/

/-- The device reads its oldest command, writes all of `DC_COMP` with the status `b`, and sets the done bit. -/
def answer (b : Byte) : List EnvAct :=
  (.device (.dcCmd 0) :: (List.range 16).map (fun k => .device (.dcComp 0 k (if k = 0 then b else 0)))) ++
    [.device (.dcDone 0)]

/-- A command that the device has been triggered to execute and has not read. -/
def unread : DcCommand := { cmd := none, compLeft := List.range 16, created := false }

/-- A command that the device has read and answered in full, but for the done bit. -/
def answered : DcCommand := { cmd := some [], compLeft := [], created := false }

/-- The state with the device's own state changed. -/
def withDev (f : Device → Device) (s : State) : State := { s with sys := { s.sys with dev := f s.sys.dev } }

/-- Before each of the 18 register writes of a post nothing happens; the first poll sees nothing; the device answers in
the tick. -/
def attempt (b : Byte) : List (List EnvAct) := List.replicate 19 [] ++ [answer b, [], [], [], [], [], []]

theorem test_dcpost : (after .dcPost { State.reset with ctxCmd := (List.replicate 64 (0 : Byte)).set 5 0x06 }).map
      (fun t => (t.dcState, t.sys.trace.length, t.sys.trace.take 2, t.sys.trace.getD 16 .tick)) =
    some (.posted, 18, [.regWrite 0xF0000800 [1, 0, 0, 0], .regWrite 0xF0000804 [0, 0, 0, 0]],
      .regWrite 0xF000080C [0, 6, 0, 0]) := by decide

/-- S9: the device answers in the first tick (one command is executing). -/
theorem test_dcwait : results (.dcWait 2)
      (withSched [[], answer 0] (withDev (fun d => { d with cmds := [unread] }) postedS)) =
      some (0, 1) ∧ results (.dcWait 2) postedS = some (3, 2) := by decide

/-- R267: no done bit before the command is read and all of `DC_COMP` is written. R268: nothing more after it. -/
theorem test_device_answers :
    let s := withDev (fun d => { d with cmds := [unread] }) postedS
    let run := fun acts : List EnvAct => acts.foldl (fun z a => z.envAct Config.default a) s.sys
    (run (.device (.dcDone 0) :: (answer 7).take 16 ++ [.device (.dcDone 0)])).doneBit Config.default = false ∧
    (run (answer 7)).doneBit Config.default = true ∧ (run (answer 7)).dev.cmds = [] ∧
    (run (answer 7 ++ [.device (.dcComp 0 0 9)])).reg.get 0xF0000848 = 7 ∧
    (run [.device (.dcComp 0 0 9)]).reg.get 0xF0000848 = 0 := by decide +kernel

/-- U18: the older of two commands is answered after the newer doorbell; the run goes no further. -/
theorem test_late_answer :
    let s := withDev (fun d => { d with cmds := [unread, unread] }) postedS
    let y := (answer 0).foldl (fun z a => z.envAct Config.default a) s.sys
    (match step { s with sys := y, req := 0x14, busy := true } with
      | .fault f => some f
      | _ => none) = some .lateAnswer := by decide +kernel

/-- R268, U18: a command the block gave up may set the done bit at any later moment, here after the answer to a newer one,
between the clearing of the bit and the doorbell of the next post; the doorbell then finds it set, and the run ends. -/
theorem test_older_command_done :
    let s := withDev (fun d => { d with cmds := [answered], answered := true }) State.reset
    let y := s.sys.devAct Config.default (.dcDone 0)
    y.doneBit Config.default = true ∧ y.dev.cmds = [] ∧ y.dev.breach = none ∧
    (y.dev.trigger Config.default (y.doneBit Config.default)).breach = some .lateAnswer ∧
    (y.devAct Config.default (.dcDone 0)) = y := by decide

/-- U5: bits 31:1 of `DC_DONE` may read as anything, and DC.WAIT ignores them. -/
theorem test_done_high_bits : results (.dcWait 0) (withSched [[.doneHighBits 0x7FFFFFFF]] postedS) = some (3, 0) ∧
    (after (.dcWait 0) (withSched [[.doneHighBits 5]] postedS)).map (fun t => t.sys.trace) =
      some [.regRead 0xF0000804 [0x0A, 0, 0, 0]] := by decide

theorem test_dcwait_bit0 : results (.dcWait 0) (withReg 0xF0000804 [0x01, 0, 0, 0x80] postedS) = some (0, 0) ∧
    results (.dcWait 0) (withReg 0xF0000804 [0xFE, 0xFF, 0xFF, 0xFF] postedS) = some (3, 0) := by decide

theorem test_dcstatus : (after .dcStatus (withReg 0xF0000848 [0x0E, 0x11, 0x22, 0x33, 0x44] doneS)).map
    (fun t => (t.r0, t.r1, t.dcState, t.ctxComp.take 5)) = some (0, 14, .idle, [0x0E, 0x11, 0x22, 0x33, 0x44]) := by decide

/-- S4: busy once, then success; a status of the rejected class at once. -/
theorem test_dcgo : results (.dcGo 2) (withSched (attempt 9 ++ attempt 0) State.reset) = some (0, 2) ∧
    results (.dcGo 2) (withSched (attempt 14) { State.reset with ctxCmd := (List.replicate 64 (0 : Byte)).set 0 7 }) =
      some (5, 0x070E) := by decide +kernel

theorem test_dcgo_budget : (after (.dcGo 2) (withSched (attempt 9)
      { State.reset with cfg := { Config.default with retryBudget := 1 }, ctxCmd := (List.replicate 64 (0 : Byte)).set 0 7 })).map
    (fun t => (t.r0, t.r1, t.dcState, t.dcGate)) = some (4, 0x0709, .idle, false) := by decide +kernel

theorem test_dicheck : results .diCheck (withReg 0xF0000000 [0x49, 0x56, 0x45, 0x44, 0xFF, 0x00, 0x80, 0x77] State.reset) =
      some (0, 0x8000FF) ∧
    results .diCheck (withReg 0xF0000000 [0x49, 0x56, 0x45, 0x45, 1, 2, 3, 0] State.reset) = some (7, 0x45455649) := by decide

/-! ### Admin queue (S5, section 2.5) -/

theorem test_aq_rejected : (after (.aqPostWait 0) (withMem 0x101000 (comp16 0x0E 0 0 0 0 0 0 0 0x80) adminS)).map
    (fun t => (t.r0, t.r1, t.ctxComp.take 1, t.sys.mem.get 0x100000)) = some (5, 0x210E, [0x0E], 0x21) := by decide +kernel

theorem test_aq_failures : results (.aqPostWait 0) { adminS with sys := { adminS.sys with fwRunning := false } } = some (6, 0) ∧
    results (.aqPostWait 0) (withUnit 0 (ringT 0 4 64 16 3 0 0 true [])) = some (2, 0) ∧
    (after (.aqPostWait 0) adminS).map (fun t => (t.r0, t.r1, t.sys.reg.read 0xF0001000 2)) = some (3, 3, [1, 0]) := by decide +kernel

/-! ### Notify queue (S6, section 2.6) -/

theorem test_newness : isNewEvent 32767 0 = true ∧ isNewEvent 32768 0 = false ∧ isNewEvent 0 65535 = true ∧
    isNewEvent 32767 65535 = false ∧ isNewEvent 100 100 = false ∧ isNewEvent 99 100 = false := by decide

/-- R266, U10: a notify ring of four slots takes four events; a fifth before one is consumed ends the run. -/
theorem test_notify_overflow :
    let r : DevRing := { DevRing.untold with told := true, role := .notify, cqBase := 0x111000, cqSize := 16, cap := 4 }
    let s := withDev (fun d => { d with rings := d.rings.set 1 r }) notifyS
    let event := fun (y : Sys) (id : Byte) =>
      (y.devAct Config.default (.compByte 1 0 id)).devAct Config.default (.compColor 1 0)
    let y := [1, 2, 3, 4].foldl event s.sys
    y.mem.get 0x11103F = 0x80 ∧ y.dev.breach = none ∧ (event y 5).dev.breach = some .notifyOverflow ∧
    (event y 5).mem = y.mem ∧ (event (y.note Config.default notifyU.consume) 5).mem.get 0x11100F = 0 ∧
    (event (y.note Config.default notifyU.consume) 5).dev.breach = none ∧ (event s.sys 2).dev.rings = s.sys.dev.rings := by
  decide

/-- R200, R265: the device takes a ring in by a command it has read, one ring for each command, only one that lies as R82
says, and never twice; and by no command without one (P1 of spec/95_test_vectors.md: told from outside). -/
theorem test_device_learns :
    let s := (withDev (fun d => { d with cmds := [{ unread with cmd := some [] }] }) notifyS).sync
    let y := s.sys.devAct Config.default (.learn (.device 0) 1)
    let used := y.setRing 1 { y.dev.rings.getD 1 DevRing.untold with produced := 3 }
    (y.dev.rings.map (fun r => (r.told, r.cqBase, r.cap))) =
      [(false, 0, 0), (true, 0x111000, 4), (false, 0, 0), (false, 0, 0)] ∧
    y.dev.cmds.map (fun c => c.created) = [true] ∧
    ((used.sync Config.default s.units).devAct Config.default (.learn (.device 0) 1)).dev.rings = used.dev.rings ∧
    (((used.sync Config.default s.units).tell 1).dev.rings = used.dev.rings) ∧
    (notifyS.sync.sys.devAct Config.default (.learn (.device 0) 1)).dev.rings = notifyS.sys.dev.rings ∧
    (notifyS.hostEvent (.ringTold 1)).sys.dev.rings = y.dev.rings ∧
    (ringT 1 512 16 16 0 0 0 true []).laidOut Config.default = false := by decide

/-- R265: a ring created anew is not the ring the device knew; it starts at 0 when the device is told of it. -/
theorem test_ring_recreated :
    let y := (notifyS.hostEvent (.ringTold 1)).sys
    let used := y.setRing 1 { y.dev.rings.getD 1 DevRing.untold with produced := 3 }
    let down := used.sync Config.default (notifyS.units.set 1 notifyU.down)
    let up := down.sync Config.default notifyS.units
    (down.dev.rings.map (fun r => (r.told, r.produced))).getD 1 (false, 0) = (true, 3) ∧
    (up.dev.rings.map (fun r => r.told)).getD 1 true = false ∧
    ((up.tell 1).dev.rings.map (fun r => (r.told, r.produced))).getD 1 (false, 9) = (true, 0) := by decide

/-- R265, R266: a reset of the NIC does not put a ring in use on offer again. -/
theorem test_nic_reset :
    let s := notifyS.hostEvent (.ringTold 1)
    let t := s.hostEvent .deviceReset
    (s.sys.dev.rings.map (fun r => r.told)).getD 1 false = true ∧
    (t.hostEvent (.ringTold 1)).sys.dev.rings.all (fun r => !r.told) = true ∧
    t.sys.dev.rings.length = 4 ∧ t.sys.dev.offers[1]? = some .taken := by decide

/-- R269, R312: an admin command creates one queue, while the device executes it. -/
theorem test_admin_creates :
    let r : DevRing := { DevRing.untold with told := true, role := .admin, cap := 4, fetched := 1 }
    let s := (withDev (fun d => { d with rings := d.rings.set 0 r }) notifyS).sync
    let y := s.sys.devAct Config.default (.learn (.admin 0) 1)
    (y.dev.rings.map (fun r => (r.told, r.created))).take 2 = [(true, 1), (true, 0)] ∧
    r.mayCreate = true ∧ { r with created := 1 }.mayCreate = false ∧ { r with produced := 1 }.mayCreate = false := by decide

/-- Section 2.6: two new records with codes 1 and 2. -/
def twoEvents : State :=
  withMem 0x111000 (comp16 1 0 0 0 1 0 0 0 0x80) (withMem 0x111010 (comp16 2 0 0 0 2 0 0 0 0x80) notifyS)

theorem test_nq_dispatch : (after (.nqPoll 1 true) twoEvents).map (fun t => (t.r1, t.sys.trace.filter PortEvent.isPulse)) =
    some (0x0000000200000002, [.notifyReset, .notifyLinkChange]) := by decide

theorem test_nq_drain : (after (.nqPoll 1 false) twoEvents).map (fun t => (t.r1, t.sys.trace.filter PortEvent.isPulse)) =
      some (0x0000000200000002, []) ∧
    unitAfter (.nqPoll 1 false) twoEvents 1 (fun un => (un.lastSeenId, un.cq.tail)) = some (2, 2) := by decide

/-! ### Fast path (S8, section 2.7) -/

theorem test_tx_descriptor : (after (.txXmit 2) (withArgs 0x123456780 1514 0x00640003
      (withUnit 2 (ringT 2 16 16 16 0 0 0 true [])))).map (fun t => t.sys.mem.read 0x120000 16) =
    some [0x80, 0x67, 0x45, 0x23, 0x01, 0, 0, 0, 0xEA, 0x05, 0x03, 0x00, 0x64, 0, 0, 0] := by decide

theorem test_tx_full : results (.txXmit 2) (withUnit 2 txFullU) = some (2, 0) ∧
    (after (.txXmit 2) (withArgs 0x10000 60 0 (withUnit 2 (ringT 2 16 16 16 0 0 0 true [])))).map
      (fun t => (t.r1, t.sys.reg.read 0xF0001010 8)) = some (0, [1, 0, 0, 2, 0, 0, 0, 0]) := by decide

/-- Section 2.7: one completion with index 0 retires slots 6, 7, 0. -/
theorem test_tx_poll : (after (.txPoll 2) (withMem 0x121000 (comp16 0 0 0 0 0 0 0 0 0x80) txS)).map
      (fun t => (t.r0, t.r1, t.sys.handBacks)) = some (0, 3, [.bufRetire 0xC0, .bufRetire 0xC7, .bufRetire 0xC6]) ∧
    unitAfter (.txPoll 2) (withMem 0x121000 (comp16 0 0 0 0 0 0 0 0 0x80) txS) 2 (fun un => un.q.tail) = some 1 := by decide

theorem test_tx_bad_index : results (.txPoll 2) (withMem 0x121000 (comp16 0 0 3 0 0 0 0 0 0x80) txS) = some (10, 3) ∧
    results (.txPoll 2) (withMem 0x121000 (comp16 0 0 8 0 0 0 0 0 0x80) txS) = some (10, 8) := by decide

theorem test_rx_fill : (after (.rxFill 3 1514) { withUnit 3 rxEmptyU with
      sys := { State.reset.sys with bufAnswers := [some 0x20000, none] } }).map
      (fun t => (t.r1, t.sys.mem.read 0x130000 16, t.sys.reg.read 0xF0001018 4)) =
    some (1, [0, 0, 2, 0, 0, 0, 0, 0, 0xEA, 0x05, 0, 0, 0, 0, 0, 0], [1, 0, 0, 3]) := by decide

theorem test_rx_fill_nothing : (after (.rxFill 3 0) { withUnit 3 rxEmptyU with
      sys := { State.reset.sys with bufAnswers := [none] } }).map (fun t => (t.r0, t.r1, t.sys.trace)) =
    some (0, 0, [.bufAlloc 0 none]) := by decide

theorem test_rx_poll : (after (.rxPoll 3) (withMem 0x131000 (comp16 0 0 9 0 0 0x40 0 0x15 0x80) rxS)).map
      (fun t => (t.r1, t.sys.handBacks)) = some (1, [.bufDeliver 0x20000 64 true]) ∧
    (after (.rxPoll 3) (withMem 0x131000 (comp16 0 0 0 0 0 0x40 0 0x08 0x80) rxS)).map (fun t => t.sys.handBacks) =
      some [.bufDeliver 0x20000 64 false] := by decide

theorem test_rx_nothing_in_flight : (after (.rxPoll 3) (withMem 0x131000 (comp16 0 0 0 0 0 0 0 0 0x80)
      (withUnit 3 rxEmptyU))).map (fun t => (t.r0, t.r1, t.sys.handBacks)) = some (10, 0, []) := by decide

theorem test_flush : (after (.qcqFlush 2) txS).map (fun t => (t.r1, t.sys.handBacks)) =
      some (4, [.bufCancel 0xC1, .bufCancel 0xC0, .bufCancel 0xC7, .bufCancel 0xC6]) ∧
    (after (.qcqFlush 3) rxS).map (fun t => (t.r1, t.sys.handBacks)) = some (1, [.bufRelease 0x20000]) := by decide

/-- Section 2.8. -/
theorem test_reset : unitAfter .reset txS 2 (fun un => (un.q.valid, un.cq.valid, un.side.get 6, un.cq.doneColor)) =
      some (false, false, ⟨false, 0xC6⟩, true) ∧
    (after .reset { txS with req := 0x3F, dcState := .timedOut }).map (fun t => (t.dcState, t.sys.trace, t.req)) =
      some (.idle, [], 0) := by decide

/-- An operation runs from the reset state; the block then waits. -/
theorem test_first_step : (match step (State.reset.withFetchWord 32 0x00000014) with
      | .next t => (t.r0, t.busy)
      | _ => (0, true)) = (7, false) := by decide

/-! ### Witnesses: every obligation's hypotheses can be met together -/

/-- The registers of a valid, bound unit are in order for the default bounds. -/
def inOrder (un : QcqUnit) : Bool :=
  isPow2 un.q.capacity.toNat && decide (4 ≤ un.q.capacity.toNat) && decide (un.q.capacity.toNat ≤ 65536) &&
  decide (un.q.head.toNat < un.q.capacity.toNat) && decide (un.q.tail.toNat < un.q.capacity.toNat) &&
  decide (un.cq.tail.toNat < un.cap) && un.q.valid && un.cq.valid && un.cq.bound && un.side.wf

theorem inv_of_inOrder {un : QcqUnit} (h : inOrder un = true) : un.Inv Config.default := by
  simp only [inOrder, Bool.and_eq_true, decide_eq_true_eq] at h
  obtain ⟨⟨⟨⟨⟨⟨⟨⟨⟨h1, h2⟩, h3⟩, h4⟩, h5⟩, h6⟩, h7⟩, h8⟩, h9⟩, h10⟩ := h
  exact ⟨fun _ => ⟨h1, h2, h3, h4, h5⟩, ⟨fun _ => ⟨h8, h7, h6⟩, fun _ h => by simp [h9] at h⟩, h10⟩

theorem witness_decode : decode 0x05EA0322 = .ok (.rxFill 3 1514) ∧
    (∃ r ∈ opRows, r.holds 0x0000003F = true) ∧ (∀ r ∈ opRows, opOf 0x00000015 ≠ opOf r.value) := by decide

theorem witness_step : State.reset.goesOn = true ∧ { State.reset with req := 0x14, busy := true }.goesOn = true ∧
    (withDev (fun d => d.breaks .lateAnswer) State.reset).configOk = true ∧
    (withDev (fun d => d.breaks .lateAnswer) State.reset).sys.dev.breach = some .lateAnswer ∧
    decode (0x14 : Word32) = .ok .diCheck ∧ decode (BitVec.ofNat 32 0x05EA0322) = .ok (.rxFill 3 1514) ∧
    { State.reset with cfg := { Config.default with retryBudget := 0 } }.configOk = false := by decide

theorem witness_request_port : State.reset.busy = false ∧ { State.reset with busy := true }.busy = true ∧
    State.reset.goesOn = true ∧ State.reset.inbox = [] ∧
    { State.reset with inbox := [.setArg 0 4, .request 1] }.inbox = .setArg 0 4 :: [.request 1] ∧
    handS.busy = false ∧ handS.units[(0 : UnitId).toNat]? = some adminU ∧ adminU.q.valid = true ∧ adminU.space ≠ 0 ∧
    decode 0x00000004 = .ok (.qAdvHead 0) ∧ decode 0x00000006 = .ok (.qDbell 0) ∧
    (∀ u, decode 0x00000004 ≠ .ok (.qDbell u)) ∧ State.reset.units.all (fun un => !un.q.valid) = true ∧ (0x100000 : Addr).toNat + [1, 2].length ≤ 2 ^ handS.cfg.addrW := by
  decide

theorem witness_illegal : { State.reset with req := 0x15, busy := true }.goesOn = true ∧
    decode (0x15 : Word32) = .error .reservedOp ∧ decode (0x13F : Word32) = .error .mustBeZero ∧
    (Instr.qSpace 4).wf State.reset.roles = false ∧ (Instr.rxFill 2 1514).wf State.reset.roles = false := by decide

/-- The rows of the precondition table that are false at reset, and the others in the states that make them false. -/
theorem witness_preconditions :
    [Instr.qSpace 0, .qHasSpace 0 1, .qAdvHead 0, .qAdvTail 0, .qDbell 0, .cqBind 0, .cqPend 0, .cqNext 0, .dcWait 2,
      .dcStatus, .aqPostWait 0, .nqPoll 1 true, .txXmit 2, .txPoll 2, .rxFill 3 1514, .rxPoll 3, .qcqFlush 2].all
        (fun i => i.wf State.reset.roles && !precondition State.reset i) = true ∧
    precondition adminS (.qInit 0) = false ∧ precondition adminS (.qAdvTail 0) = false ∧
    precondition adminS (.cqInit 0) = false ∧ precondition txS (.qcqDown 2) = false ∧
    precondition postedS .dcPost = false ∧ precondition { State.reset with dcGate := true } (.dcGo 2) = false := by decide

/-- Operations of every family complete: ResultCodeMatrix, InputsPersist, OtherUnitsUnchanged, ChannelTransitions,
RegisterOnlyOperationsTouchNoPort, NonStoringOperationsKeepMemory, RegisterSpaceFrame. -/
theorem witness_completions : (∃ t, exec (.qSpace 2) txS = .next t) ∧ (∃ t, exec (.cqPend 2) txS = .next t) ∧
    (∃ t, exec (.qDbell 2) txS = .next t) ∧ (∃ t, exec .dcStatus doneS = .next t) ∧ (∃ t, exec .reset txS = .next t) ∧
    (∃ t, exec (.dcWait 1) postedS = .next t) ∧ txS.Quiet ∧ doneS.Quiet ∧ postedS.Quiet ∧
    touchesNoPort (.qSpace 2) = true ∧ storesDescriptor (.cqPend 2) = false ∧
    Instr.qSpace 2 ≠ .reset ∧ (∀ u, (Instr.qSpace 2).unit? = some u → u.toNat ≠ 0) ∧
    mayWriteRegister txS (.qDbell 2) 0xF0001018 = false ∧ mayWriteRegister State.reset .dcPost 0xF0000848 = false :=
  ⟨exists_next (by decide), exists_next (by decide), exists_next (by decide), exists_next (by decide),
    exists_next (by decide), exists_next (by decide), quiet_of_empty rfl, quiet_of_empty rfl, quiet_of_empty rfl, rfl, rfl,
    by decide, (by intro u hu; obtain rfl : 2 = u := by simpa [Instr.unit?] using hu
                   decide), by decide, by decide⟩

theorem witness_storing : ActsOn (.aqPostWait 0) 0 adminS adminU ∧ ActsOn (.txXmit 2) 2 txS txU ∧
    ActsOn (.rxFill 3 9) 3 rxS rxU ∧ adminU.Inv Config.default ∧ txU.Inv Config.default ∧ rxU.Inv Config.default ∧
    adminS.Quiet ∧ adminS.MemInv ∧ (∃ t, exec (.aqPostWait 0) adminS = .next t) ∧ (∃ t, exec (.txXmit 2) txS = .next t) ∧
    ∃ t, exec (.rxFill 3 9) { rxS with sys := { rxS.sys with bufAnswers := [some 1, some 2] } } = .next t :=
  ⟨⟨by decide, by decide⟩, ⟨by decide, by decide⟩, ⟨by decide, by decide⟩, inv_of_inOrder (by decide),
    inv_of_inOrder (by decide), inv_of_inOrder (by decide), quiet_of_empty rfl, ⟨by decide, by decide⟩,
    exists_next (by decide +kernel), exists_next (by decide +kernel), exists_next (by decide +kernel)⟩

theorem witness_qinit : ActsOn (.qInit 0) 0 (withArgs 65536 64 0 State.reset) (unitT 0) ∧ (unitT 0).q.valid = false ∧
    legalCapacity Config.default 65536 = true ∧ legalCapacity Config.default 4 = true ∧
    legalCapacity Config.default 3 = false ∧ legalCapacity Config.default 0x100000000 = false ∧
    (unitT 0).side.wf = true ∧ Config.default.capMin = 4 ∧ Config.default.capMax = 65536 :=
  ⟨⟨by decide, by decide⟩, by decide, by decide, by decide, by decide, by decide, by decide, rfl, rfl⟩

/-- SpaceReports, AdvanceHead, AdvanceTail (both clauses of each), IndexLaws, DoorbellOperation, DoorbellValueFields. -/
theorem witness_ring : txS.units[(2 : UnitId).toNat]? = some txU ∧ txU.q.valid = true ∧
    ((4 : Nat) : Int) = ((txU.q.head.toNat : Int) - txU.q.tail.toNat) % txU.q.capacity.toNat ∧
    txU.space ≠ 0 ∧ txU.inFlight ≠ 0 ∧ txFullU.space = 0 ∧ rxEmptyU.inFlight = 0 ∧
    (ringT 0 65536 64 16 65535 0 0 true []).space = 0 ∧ (ringT 0 65536 64 16 5 65530 0 true []).inFlight = 11 ∧
    txU.Inv Config.default ∧ (ringT 0 65536 64 16 5 65530 65535 true []).Inv Config.default ∧
    Config.default.dbIndexW = 16 ∧ Config.default.dbRingW = 3 ∧ Config.default.dbQidW = 24 ∧
    Config.default.dbIndexShift = 0 ∧ Config.default.dbRingShift = 16 ∧ Config.default.dbQidShift = 24 :=
  ⟨by decide, by decide, by decide, by decide, by decide, by decide, by decide, by decide, by decide,
    inv_of_inOrder (by decide), inv_of_inOrder (by decide), rfl, rfl, rfl, rfl, rfl, rfl⟩

/-- CqInitInstallsTheRing, CqBindBinds, PendingTest, CqNextConsumes (last slot and another), QcqDownTearsDown,
ColorFlipsOncePerRevolution. -/
theorem witness_completion_ring : State.reset.units[(1 : UnitId).toNat]? = some (unitT 1) ∧ (unitT 1).cq.valid = false ∧
    { notifyU with cq := { notifyU.cq with bound := false } }.cq.valid = true ∧
    { notifyU with cq := { notifyU.cq with bound := false } }.q.valid = true ∧
    notifyS.units[(1 : UnitId).toNat]? = some notifyU ∧ notifyU.cq.valid = true ∧ notifyU.cq.bound = true ∧
    notifyU.cqFits Config.default = true ∧ (ringT 1 4 16 16 0 0 3 true []).cq.tail.toNat + 1 = (ringT 1 4 16 16 0 0 3 true []).q.capacity.toNat ∧
    notifyU.side.wf = true ∧ (∀ i, (notifyU.side.get i).valid = false) ∧ 0 < notifyU.cap ∧ notifyU.cap ≤ 65536 ∧
    notifyU.cq.tail = 0 :=
  ⟨by decide, by decide, by decide, by decide, by decide, by decide, by decide, by decide, by decide, by decide,
    fun _ => rfl, by decide, by decide, by decide⟩

/-- The notify ring of notifyU as the device knows it, with `n` completions written. -/
def notifyR (n : Nat) : DevRing :=
  { DevRing.untold with told := true, role := .notify, cqBase := 0x111000, cqSize := 16, cap := 4, produced := n }

/-- ColorFlipsOncePerRevolution, the clauses about the device: nothing produced, and one completion produced and shown; a
device step on the ring; a note; a ring on offer, and one taken. -/
theorem witness_color_protocol :
    ((notifyR 0).isRingOf notifyU ∧ (notifyR 0).Shown Config.default notifyS.sys.mem ∧
      notifyU.hasConsumed Config.default 0) ∧
    (notifyR 1).Shown Config.default (notifyS.sys.mem.set 0x11100F 0x80) ∧
    (let y := (withDev (fun d => { d with rings := d.rings.set 1 (notifyR 0) }) notifyS).sys
     y.mem.wf = true ∧ y.dev.rings[1]? = some (notifyR 0) ∧ (notifyR 0).told = true ∧ (notifyR 0).role = .notify ∧
      ((y.devAct Config.default (.compColor 1 0)).dev.rings.map (fun r => r.produced)).getD 1 0 = 1 ∧
      ∀ w ∈ y.dev.rings.eraseIdx 1, w.told = false) ∧
    ((notifyR 0).note Config.default notifyU.consume).consumed = 1 ∧ notifyU.stands = true ∧
    notifyS.sync.sys.dev.offers.map (fun o => match o with | .new _ => 1 | .nothing => 0 | .taken => 2) = [0, 1, 0, 0] ∧
    (notifyS.hostEvent (.ringTold 1)).sys.dev.offers[1]? = some .taken :=
  ⟨⟨⟨by decide, by decide, by decide, by decide, by decide⟩, by intro i hi; revert i; decide, by decide, by decide⟩,
    by intro i hi; revert i; decide, by decide, by decide, by decide, by decide, by decide⟩

/-- R7, R82: other widths and sizes run; equal ring bases, unequal gaps and an index too wide do not. -/
theorem test_config_checks :
    configOk { Config.default with idxW := 10, capMax := 1024, capMin := 2, addrW := 48, dcCmdBytes := 32, dcCompBytes := 8 }
      UnitConfig.defaults = true ∧
    configOk Config.default (UnitConfig.test .tx 9 0x120000 0xF0001020 :: UnitConfig.defaults) = false ∧
    configOk Config.default [{ UnitConfig.test .tx 2 0x120000 0xF0001010 with cqBasePa := 0x122000 }] = false ∧
    configOk Config.default [UnitConfig.test .tx 2 0x120000 0xF0001010] = true ∧
    configOk { Config.default with idxW := 8 } UnitConfig.defaults = false ∧
    configOk { Config.default with dbQidW := 1 } UnitConfig.defaults = false := by decide

/-- DcPostWrites, DcWaitEnds, SilentDeviceTimesOut (its three cases), DcStatusReports, DcGoEnds, StatusClasses. -/
theorem witness_devcmd : State.reset.dcState = .idle ∧ doneS.dcState = .done ∧ postedS.dcState = .posted ∧
    State.reset.dcGate = false ∧ State.reset.configOk = true ∧ State.reset.MemInv ∧ State.reset.Quiet ∧
    doneS.configOk = true ∧ postedS.sys.doneBit Config.default = false ∧
    (withReg 0xF0000804 [1, 0, 0, 0] postedS).sys.doneBit Config.default = true ∧ rcOk Config.default.rc = true ∧
    doneS.dcGate = false ∧ (∃ t, exec (.dcWait 0) postedS = .next t) ∧ ∃ t, exec (.dcGo 0) State.reset = .next t :=
  ⟨rfl, rfl, rfl, rfl, by decide, ⟨by decide, by decide⟩, quiet_of_empty rfl, by decide, by decide, by decide, by decide,
    rfl, exists_next (by decide), exists_next (by decide +kernel)⟩

/-- DiCheckReports: both answers. -/
theorem witness_dicheck : (State.reset.Quiet ∧ (0 : Word32) ≠ Config.default.devInfoSignature) ∧
    BitVec.ofNat 32 (leNat ((withReg 0xF0000000 [0x49, 0x56, 0x45, 0x44] State.reset).sys.reg.read 0xF0000000 4)) =
      Config.default.devInfoSignature :=
  ⟨⟨quiet_of_empty rfl, by decide⟩, by decide⟩

/-- An admin ring whose answer stands at the completion ring's tail. -/
def adminAnsweredS : State := withMem 0x101000 (comp16 0x0E 0 0 0 0 0 0 0 0x80) adminS

/-- AdminFailsFast (both clauses), AdminOutcomes, AdminCompletes. -/
theorem witness_admin : ActsOn (.aqPostWait 0) 0 adminAnsweredS adminU ∧ adminU.adminReady Config.default = true ∧
    { adminS with sys := { adminS.sys with fwRunning := false } }.sys.fwRunning = false ∧
    adminAnsweredS.sys.fwRunning = true ∧ (ringT 0 4 64 16 3 0 0 true []).space = 0 ∧
    (ringT 0 4 64 16 3 0 0 true []).adminReady Config.default = true ∧ 1 ≤ adminU.space ∧ adminU.qFits Config.default = true ∧ adminU.cqFits Config.default = true ∧
    adminAnsweredS.Quiet ∧ adminAnsweredS.MemInv ∧ 1 ≤ adminAnsweredS.cfg.dcCompBytes ∧
    adminU.qSlot adminU.q.head + adminAnsweredS.cfg.dcCmdBytes ≤ adminU.cqSlot adminU.cq.tail ∧ adminU.tailPending adminAnsweredS.sys = true :=
  ⟨⟨by decide, by decide⟩, by decide, by decide, by decide, by decide, by decide, by decide, by decide, by decide,
    quiet_of_empty rfl, ⟨by decide, by decide⟩, by decide, by decide, by decide⟩

def oneEventS : State := withMem 0x111000 (comp16 1 0 0 0 1 0 0 0 0x80) notifyS

/-- NewnessTest, OneEventIsDrained, NotifyDrainEnds, DrainingHasNoSideEffects. -/
theorem witness_notify : (1 : Nat) = ((0 : Word16).toNat + 65536 - (65535 : Word16).toNat) % 65536 ∧
    ActsOn (.nqPoll 1 true) 1 oneEventS notifyU ∧ notifyU.notifyReady Config.default = true ∧ notifyU.cqFits Config.default = true ∧
    1 ≤ notifyU.cap ∧ oneEventS.Quiet ∧ notifyU.tailPending oneEventS.sys = true ∧
    notifyU.consume.tailPending oneEventS.sys = false ∧ notifyU.Inv Config.default ∧
    isNewEvent (eventId Config.default.event (oneEventS.sys.mem.read 0x111000 16)) notifyU.lastSeenId = true ∧
    ∃ t, exec (.nqPoll 1 false) oneEventS = .next t :=
  ⟨by decide, ⟨by decide, by decide⟩, by decide, by decide, by decide, quiet_of_empty rfl, by decide, by decide,
    inv_of_inOrder (by decide), by decide, exists_next (by decide)⟩

/-- EmptyPollsReportNothing: its three cases. -/
theorem witness_empty_polls : ActsOn (.nqPoll 1 true) 1 notifyS notifyU ∧ notifyU.tailPending notifyS.sys = false ∧
    ActsOn (.txPoll 2) 2 txS txU ∧ txU.txReady Config.default = true ∧ txU.cqFits Config.default = true ∧
    txU.tailPending txS.sys = false ∧ ActsOn (.rxPoll 3) 3 rxS rxU ∧ rxU.rxReady Config.default = true ∧
    rxU.cqFits Config.default = true ∧ rxU.tailPending rxS.sys = false ∧ notifyS.Quiet ∧ txS.Quiet ∧ rxS.Quiet :=
  ⟨⟨by decide, by decide⟩, by decide, ⟨by decide, by decide⟩, by decide, by decide, by decide, ⟨by decide, by decide⟩,
    by decide, by decide, by decide, quiet_of_empty rfl, quiet_of_empty rfl, quiet_of_empty rfl⟩

/-- TransmitPosts: both clauses; DescriptorLayouts. -/
theorem witness_transmit : ActsOn (.txXmit 2) 2 txS txU ∧ txU.txReady Config.default = true ∧ txU.space ≠ 0 ∧
    txU.qFits Config.default = true ∧ txU.side.wf = true ∧ txS.MemInv ∧ ActsOn (.txXmit 2) 2 (withUnit 2 txFullU) txFullU ∧
    txFullU.txReady Config.default = true ∧ txFullU.space = 0 ∧ 16 ≤ txU.q.descSize.toNat :=
  ⟨⟨by decide, by decide⟩, by decide, by decide, by decide, by decide, ⟨by decide, by decide⟩, ⟨by decide, by decide⟩,
    by decide, by decide, by decide⟩

def txDoneS (ci : Byte) : State := withMem 0x121000 (comp16 0 0 ci 0 0 0 0 0 0x80) txS

/-- CoalescedCompletionRetires with three descriptors, and with one (the boundary `d = 0`). -/
theorem witness_coalesced : ActsOn (.txPoll 2) 2 (txDoneS 0) txU ∧ txU.tailPending (txDoneS 0).sys = true ∧
    txU.consume.tailPending (txDoneS 0).sys = false ∧ (txDoneS 0).Quiet ∧ txU.Inv Config.default ∧
    (0 : Word16) = txIndex Config.default.txComp ((txDoneS 0).sys.mem.read 0x121000 16) ∧
    (2 : Nat) = modNat (((0 : Word16).toNat : Int) - txU.q.tail.toNat) txU.cap ∧ 2 < txU.inFlight ∧
    (6 : Word16) = txIndex Config.default.txComp ((txDoneS 6).sys.mem.read 0x121000 16) ∧
    (0 : Nat) = modNat (((6 : Word16).toNat : Int) - txU.q.tail.toNat) txU.cap ∧ (0 : Nat) < txU.inFlight :=
  ⟨⟨by decide, by decide⟩, by decide, by decide, quiet_of_empty rfl, inv_of_inOrder (by decide), by decide, by decide,
    by decide, by decide, by decide, by decide⟩

def rxDoneS (un : QcqUnit) : State := withMem 0x131000 (comp16 0 0 0 0 0 0x40 0 0 0x80) (withUnit 3 un)

/-- BadCompletionReported: an index past the capacity, one equal to the head, and an RX completion with nothing in flight. -/
theorem witness_bad_completion : txU.tailPending (txDoneS 8).sys = true ∧
    (8 : Word16) = txIndex Config.default.txComp ((txDoneS 8).sys.mem.read 0x121000 16) ∧ txU.cap ≤ (8 : Word16).toNat ∧
    (2 : Word16) = txIndex Config.default.txComp ((txDoneS 2).sys.mem.read 0x121000 16) ∧
    txU.inFlight ≤ modNat (((2 : Word16).toNat : Int) - txU.q.tail.toNat) txU.cap ∧
    ActsOn (.rxPoll 3) 3 (rxDoneS rxEmptyU) rxEmptyU ∧ rxEmptyU.rxReady Config.default = true ∧ rxEmptyU.cqFits Config.default = true ∧
    rxEmptyU.tailPending (rxDoneS rxEmptyU).sys = true ∧ rxEmptyU.inFlight = 0 ∧ (rxDoneS rxEmptyU).Quiet :=
  ⟨by decide, by decide, by decide, by decide, by decide, ⟨by decide, by decide⟩, by decide, by decide, by decide,
    by decide, quiet_of_empty rfl⟩

/-- PollsEnd, ReceiveDelivers. -/
theorem witness_receive : ActsOn (.rxPoll 3) 3 (rxDoneS rxU) rxU ∧ rxU.Inv Config.default ∧
    rxU.tailPending (rxDoneS rxU).sys = true ∧ rxU.consume.tailPending (rxDoneS rxU).sys = false ∧ rxU.inFlight ≠ 0 ∧
    rxU.side.wf = true ∧ rxStatus Config.default.rxComp ((rxDoneS rxU).sys.mem.read 0x131000 16) = 0 ∧
    rxCsum Config.default.rxComp ((rxDoneS rxU).sys.mem.read 0x131000 16) &&& Config.default.rxCsumBadMask = 0 ∧
    ActsOn (.txPoll 2) 2 txS txU :=
  ⟨⟨by decide, by decide⟩, inv_of_inOrder (by decide), by decide, by decide, by decide, by decide, by decide, by decide,
    ⟨by decide, by decide⟩⟩

/-- ReceiveFill, with answers ready for every free slot, with a failure before that, and on a full ring;
FlushReturnsEveryBuffer. -/
theorem witness_fill_flush : ActsOn (.rxFill 3 1514) 3 rxS rxU ∧ rxU.rxReady Config.default = true ∧ rxU.qFits Config.default = true ∧
    rxU.Inv Config.default ∧
    [some (0x20800 : Handle), some 0x21000, none] = [0x20800, 0x21000].map some ++ [none] ∧
    ([0x20800, 0x21000] : List Handle).length = rxU.space ∧
    [some (0x20800 : Handle), none, some 0x21000] = [0x20800].map some ++ none :: [some 0x21000] ∧
    ([0x20800] : List Handle).length < rxU.space ∧ rxS.Quiet ∧ rxS.MemInv ∧ (ringT 3 4 16 16 3 0 0 true []).space = 0 ∧
    ActsOn (.qcqFlush 2) 2 txS txU ∧ txU.q.valid = true ∧ ActsOn (.qcqFlush 3) 3 rxS rxU :=
  ⟨⟨by decide, by decide⟩, by decide, by decide, inv_of_inOrder (by decide), by decide, by decide, by decide,
    by decide, quiet_of_empty rfl, ⟨by decide, by decide⟩, by decide, ⟨by decide, by decide⟩, by decide,
    ⟨by decide, by decide⟩⟩

/-- A device that has read a command and written its answer, but not the done bit. -/
def answeringS : State := withDev (fun d => { d with cmds := [answered] }) postedS

/-- DeviceKeepsTheDoneBit: its clauses. -/
theorem witness_device : (withReg 0xF0000804 [1, 0, 0, 0] postedS).configOk = true ∧
    (withReg 0xF0000804 [1, 0, 0, 0] postedS).MemInv ∧
    (withReg 0xF0000804 [1, 0, 0, 0] postedS).sys.doneBit Config.default = true ∧ State.reset.sys.dev.pending = 0 ∧
    (withDev (fun d => { d with answered := true }) postedS).sys.dev.answered = true ∧
    answeringS.sys.doneBit Config.default = false ∧
    (answeringS.sys.devAct Config.default (.dcDone 0)).doneBit Config.default = true ∧
    (let r : DevRing := { DevRing.untold with told := true, role := .notify, cap := 4, produced := 4 }
     (withDev (fun d => { d with rings := [r] }) postedS).sys.dev.rings[0]? = some r ∧ r.told = true ∧
      r.role = .notify ∧ r.consumed + r.cap ≤ r.produced) :=
  ⟨by decide, ⟨by decide, by decide⟩, by decide, rfl, rfl, by decide, by decide, by decide⟩

/-- StepKeepsMemoryCanonical, StepKeepsRingsInOrder: a step of the reset state, which meets both invariants. -/
theorem witness_invariants : State.reset.MemInv ∧ State.reset.RingInv ∧
    ∃ t, step (State.reset.withFetchWord 32 0x3F) = .next t := by
  refine ⟨⟨by decide, by decide⟩, ?_, ?_⟩
  · intro un hun
    have h : ∀ un ∈ State.reset.units, un.q.valid = false ∧ un.cq.bound = false ∧ un.cq.tail = 0 ∧ un.side.wf = true := by
      decide
    obtain ⟨h1, h2, h3, h4⟩ := h un hun
    exact ⟨fun h => by simp [h1] at h, ⟨fun h => by simp [h2] at h, fun _ _ => h3⟩, h4⟩
  · exact ⟨_, show step _ = .next _ from rfl⟩

/-- FastPathKeepsOwnership: a TX and an RX unit whose side tables match the slots in flight, and their operations. -/
theorem witness_ownership : txFullU.SideInv ∧ rxEmptyU.SideInv ∧ txFullU.Inv Config.default ∧
    (∃ t, exec (.txXmit 2) (withUnit 2 txFullU) = .next t) ∧ (∃ t, exec (.txPoll 2) (withUnit 2 txFullU) = .next t) ∧
    (∃ t, exec (.rxPoll 3) (withUnit 3 rxEmptyU) = .next t) ∧ (∃ t, exec (.qcqFlush 2) (withUnit 2 txFullU) = .next t) ∧
    ∃ t, exec (.rxFill 3 9) { withUnit 3 rxEmptyU with sys := { State.reset.sys with bufAnswers := [some 1, none] } } =
      .next t := by
  refine ⟨?_, ?_, inv_of_inOrder (by decide), exists_next (by decide), exists_next (by decide), exists_next (by decide),
    exists_next (by decide), exists_next (by decide)⟩
  · intro i
    have h : ∀ i < 4, ((txFullU.side.get i).valid = true ↔
        (i < txFullU.cap ∧ modNat ((i : Int) - (txFullU.q.tail.toNat : Int)) txFullU.cap < txFullU.inFlight)) := by decide
    by_cases hi : i < 4
    · exact h i hi
    · have hc : txFullU.cap = 4 := by decide
      have h0 : i ≠ 0 ∧ i ≠ 1 ∧ i ≠ 2 := by omega
      refine ⟨fun hv => ?_, fun hv => absurd hv.1 (by omega)⟩
      simp [txFullU, ringT, SideTable.get, storeGet, h0, SideTable.unlisted] at hv
  · intro i
    have hf : rxEmptyU.inFlight = 0 := by decide
    exact ⟨fun hv => by simp [rxEmptyU, ringT, SideTable.get, storeGet, SideTable.unlisted] at hv,
      fun hv => absurd hv.2 (by omega)⟩

end Sys2Proof.Tests
end

section
/-! PROOFS (family 10_state.md). What holds of every state an operation completes in, by one rule for each control operation
of Sys2Proof/Machine/Ops.lean and Operands.lean. -/

namespace Sys2Proof.Machine

/-- Every state that the answer `r` completes in satisfies `P`. -/
def EndsIn (P : State → Prop) (r : Result) : Prop := ∀ t, r = .next t → P t

variable {P : State → Prop} {s : State}

theorem EndsIn.raise {X : ResultCode} {v : Word64} (h : P (s.finish X v)) : EndsIn P (s.raise X v) := by
  intro t ht
  rw [State.raise_eq_next.mp ht]
  exact h

theorem EndsIn.done {v : Word64} (h : P (s.finish .ok v)) : EndsIn P (s.done v) := EndsIn.raise h

theorem EndsIn.fault (f : Fault) : EndsIn P (.fault f) := by
  intro t ht
  cases ht

theorem EndsIn.require {p : Bool} {k : Result} (h : P (s.finish .badState 0)) (hk : p = true → EndsIn P k) :
    EndsIn P (s.require p k) := by
  intro t ht
  obtain ⟨-, rfl⟩ | ⟨hp, ht⟩ := State.require_cases ht
  · exact h
  · exact hk hp t ht

theorem EndsIn.requireRing {p : Bool} {k : Result} (hk : EndsIn P k) : EndsIn P (requireRing p k) :=
  fun t ht => hk t (requireRing_eq_next.mp ht).2

theorem EndsIn.onUnit {i : Instr} {u : UnitId} {k : QcqUnit → Result}
    (h : P (s.finish .illegalRequest (s.req.zeroExtend 64))) (hk : ∀ un, ActsOn i u s un → EndsIn P (k un)) :
    EndsIn P (s.onUnit i u k) := by
  intro t ht
  obtain hill | ⟨un, hun, ht⟩ := State.onUnit_cases ht
  · exact EndsIn.raise h t hill.symm
  · exact hk un hun t ht

theorem EndsIn.ite {c : Prop} [Decidable c] {r r' : Result} (h : c → EndsIn P r) (h' : ¬ c → EndsIn P r') :
    EndsIn P (if c then r else r') := by
  by_cases hc : c
  · rw [if_pos hc]; exact h hc
  · rw [if_neg hc]; exact h' hc

theorem EndsIn.endPoll {u : UnitId} {e : Option PollEnd}
    (h : ∀ d, e = some d → P (((s.setUnit u d.un).withSys d.sys).finish d.code d.info)) : EndsIn P (s.endPoll u e) := by
  cases e with
  | none => exact .fault _
  | some d => exact .raise (h d rfl)

end Sys2Proof.Machine
end

section
/-! PROOFS (family 10_state.md). The ring of a unit and its side table (spec/10_state.md R36, spec/45_txrx.md R252): how far
a slot lies past the tail, and how posting and retiring move the slots in flight. -/

namespace Sys2Proof.Machine

/-- How many slots slot `i` lies past the tail (spec/40_queue.md R153). -/
def QcqUnit.ahead (un : QcqUnit) (i : Nat) : Nat := modNat ((i : Int) - (un.q.tail.toNat : Int)) un.cap

theorem QcqUnit.ahead_head (un : QcqUnit) : un.ahead un.q.head.toNat = un.inFlight := rfl

theorem QcqUnit.inFlightSlot_iff {un : QcqUnit} {i : Nat} : un.InFlightSlot i ↔ i < un.cap ∧ un.ahead i < un.inFlight :=
  Iff.rfl

theorem QcqUnit.ahead_eq {un : QcqUnit} {i : Nat} (hi : i < un.cap) (ht : un.q.tail.toNat < un.cap) :
    un.ahead i = if un.q.tail.toNat ≤ i then i - un.q.tail.toNat else i + un.cap - un.q.tail.toNat :=
  modNat_sub hi ht

@[simp] theorem QcqUnit.cap_own (un : QcqUnit) (h : Handle) : (un.own h).cap = un.cap := rfl
@[simp] theorem QcqUnit.own_tail (un : QcqUnit) (h : Handle) : (un.own h).q.tail = un.q.tail := rfl
@[simp] theorem QcqUnit.own_head (un : QcqUnit) (h : Handle) : (un.own h).q.head = nextIndex un.q.head un.cap := rfl
@[simp] theorem QcqUnit.own_side (un : QcqUnit) (h : Handle) : (un.own h).side = un.side.set un.q.head.toNat ⟨true, h⟩ := rfl
@[simp] theorem QcqUnit.cap_retire (un : QcqUnit) : un.retire.cap = un.cap := rfl
@[simp] theorem QcqUnit.retire_tail (un : QcqUnit) : un.retire.q.tail = nextIndex un.q.tail un.cap := rfl
@[simp] theorem QcqUnit.retire_head (un : QcqUnit) : un.retire.q.head = un.q.head := rfl
@[simp] theorem QcqUnit.retire_side (un : QcqUnit) : un.retire.side = un.side.invalidate un.q.tail.toNat := rfl

/-- A Queue whose indices are in order and whose side table holds exactly the slots in flight. -/
structure QcqUnit.Owned (un : QcqUnit) : Prop where
  cap_le : un.cap ≤ 65536
  head_lt : un.q.head.toNat < un.cap
  tail_lt : un.q.tail.toNat < un.cap
  side_wf : un.side.wf = true
  sideInv : un.SideInv

theorem QcqUnit.Inv.owned {un : QcqUnit} {cfg : Config} (h : un.Inv cfg) (hv : un.q.valid = true) (hs : un.SideInv)
    (hcap : cfg.capMax ≤ 65536) : un.Owned := by
  obtain ⟨hq, -, hwf⟩ := h
  obtain ⟨-, -, hmax, hhead, htail⟩ := hq hv
  exact ⟨hmax.trans hcap, hhead, htail, hwf, hs⟩

namespace QcqUnit.Owned

variable {un : QcqUnit} (h : un.Owned)
include h

theorem consume : un.consume.Owned := ⟨h.cap_le, h.head_lt, h.tail_lt, h.side_wf, h.sideInv⟩

/-! ### Posting -/

theorem inFlight_own (hs : 0 < un.space) (b : Handle) : (un.own b).inFlight = un.inFlight + 1 := by
  have hnext := nextIndex_toNat h.head_lt h.cap_le
  have hlt := nextIndex_lt h.head_lt h.cap_le
  have hold := inFlight_eq h.head_lt h.tail_lt
  have hnew : (un.own b).inFlight = _ := inFlight_eq (un := un.own b) hlt h.tail_lt
  simp only [space] at hs
  simp only [cap_own, own_tail, own_head, hnext] at hnew
  have := h.head_lt
  have := h.tail_lt
  split_ifs at hnew hold <;> omega

theorem space_own (hs : 0 < un.space) (b : Handle) : (un.own b).space = un.space - 1 := by
  simp only [space, h.inFlight_own hs b, cap_own]
  omega

/-- Posting puts the slot at the head, and no other, in flight. -/
theorem inFlightSlot_own (hs : 0 < un.space) (b : Handle) (i : Nat) :
    (un.own b).InFlightSlot i ↔ i = un.q.head.toNat ∨ un.InFlightSlot i := by
  have hahead : (un.own b).ahead i = un.ahead i := rfl
  have hhead := h.head_lt
  have htail := h.tail_lt
  rw [inFlightSlot_iff, inFlightSlot_iff, h.inFlight_own hs b, hahead, cap_own, inFlight_eq hhead htail]
  by_cases hi : i < un.cap
  · rw [ahead_eq hi htail]
    split_ifs <;> omega
  · omega

theorem own (hs : 0 < un.space) (b : Handle) : (un.own b).Owned where
  cap_le := h.cap_le
  head_lt := nextIndex_lt h.head_lt h.cap_le
  tail_lt := h.tail_lt
  side_wf := SideTable.set_wf _ _ h.side_wf
  sideInv i := by
    rw [h.inFlightSlot_own hs b, own_side]
    by_cases hi : i = un.q.head.toNat
    · simp [hi, SideTable.get_set_self _ _ h.side_wf]
    · simp [hi, SideTable.get_set_other _ _ hi, h.sideInv i]

/-! ### Retiring -/

/-- Retiring brings every slot but the tail one slot nearer. -/
theorem ahead_retire {i : Nat} (hi : i < un.cap) (hne : i ≠ un.q.tail.toNat) : un.ahead i = un.retire.ahead i + 1 := by
  have hnext := nextIndex_toNat h.tail_lt h.cap_le
  have hnew := ahead_eq (un := un.retire) hi (nextIndex_lt h.tail_lt h.cap_le)
  have htail := h.tail_lt
  rw [ahead_eq hi htail, hnew, retire_tail, cap_retire, hnext]
  split_ifs <;> omega

theorem head_ne_tail (hs : un.inFlight ≠ 0) : un.q.head.toNat ≠ un.q.tail.toNat := by
  intro heq
  rw [inFlight_eq h.head_lt h.tail_lt, heq] at hs
  simp at hs

theorem inFlight_ne_zero (hne : un.q.tail ≠ un.q.head) : un.inFlight ≠ 0 := by
  have hne' : un.q.tail.toNat ≠ un.q.head.toNat := fun heq => hne (BitVec.eq_of_toNat_eq heq)
  rw [inFlight_eq h.head_lt h.tail_lt]
  have := h.tail_lt
  split_ifs <;> omega

theorem inFlight_retire (hs : un.inFlight ≠ 0) : un.inFlight = un.retire.inFlight + 1 :=
  h.ahead_retire h.head_lt (h.head_ne_tail hs)

/-- The retired slot goes to the far end of the ring, past everything in flight. -/
theorem inFlight_retire_le_ahead_tail (hs : un.inFlight ≠ 0) : un.retire.inFlight ≤ un.retire.ahead un.q.tail.toNat := by
  have hnext := nextIndex_toNat h.tail_lt h.cap_le
  have hnew := ahead_eq (un := un.retire) h.tail_lt (nextIndex_lt h.tail_lt h.cap_le)
  have hlt : un.inFlight < un.cap := inFlight_lt (by have := h.tail_lt; omega)
  have hless := h.inFlight_retire hs
  rw [hnew, retire_tail, cap_retire, hnext]
  split_ifs <;> omega

/-- Retiring takes the slot at the tail, and no other, out of flight. -/
theorem inFlightSlot_retire (hs : un.inFlight ≠ 0) (i : Nat) :
    un.retire.InFlightSlot i ↔ i ≠ un.q.tail.toNat ∧ un.InFlightSlot i := by
  have hless := h.inFlight_retire hs
  rw [inFlightSlot_iff, inFlightSlot_iff, cap_retire]
  by_cases hi : i = un.q.tail.toNat
  · have hfar := h.inFlight_retire_le_ahead_tail hs
    subst hi
    omega
  · by_cases hc : i < un.cap
    · have hnear := h.ahead_retire hc hi
      omega
    · omega

theorem retire (hs : un.inFlight ≠ 0) : un.retire.Owned where
  cap_le := h.cap_le
  head_lt := h.head_lt
  tail_lt := nextIndex_lt h.tail_lt h.cap_le
  side_wf := SideTable.invalidate_wf _ h.side_wf
  sideInv i := by
    rw [h.inFlightSlot_retire hs, retire_side, SideTable.invalidate]
    by_cases hi : i = un.q.tail.toNat
    · simp [hi, SideTable.get_set_self _ _ h.side_wf]
    · simp [hi, SideTable.get_set_other _ _ hi, h.sideInv i]

end QcqUnit.Owned

theorem QcqUnit.inFlightSlot_of_not_badIndex {un : QcqUnit} {ci : Word16} (h : un.badIndex ci = false) :
    un.InFlightSlot ci.toNat := by
  simpa [QcqUnit.badIndex, QcqUnit.InFlightSlot] using h

/-! ### The loops of the fast path -/

theorem fillLoop_owned (cfg : Config) (mtu : Word16) (n : Nat) {c : Carry} (h : c.un.Owned) (hn : n ≤ c.un.space) :
    (fillLoop cfg mtu n c).un.Owned := by
  induction n generalizing c with
  | zero => exact h
  | succ n ih =>
    have hs : 0 < c.un.space := by omega
    rw [fillLoop]
    split
    · exact h
    · next b _ => exact ih (h.own hs b) (by simp only [h.space_own hs b]; omega)

theorem retireUntil_owned {ci : Word16} {fuel : Nat} {c c1 : Carry} (hr : retireUntil ci fuel c = some c1)
    (h : c.un.Owned) (hci : c.un.InFlightSlot ci.toNat) : c1.un.Owned := by
  induction fuel generalizing c with
  | zero => cases hr
  | succ fuel ih =>
    have hs : c.un.inFlight ≠ 0 := by
      rw [QcqUnit.inFlightSlot_iff] at hci
      omega
    rw [retireUntil] at hr
    split at hr
    · cases hr
      exact h.retire hs
    · next hne =>
      have hne' : ci.toNat ≠ c.un.q.tail.toNat := fun heq => hne (BitVec.eq_of_toNat_eq heq.symm)
      exact ih hr (h.retire hs) ((h.inFlightSlot_retire hs _).mpr ⟨hne', hci⟩)

theorem txPollLoop_owned {cfg : Config} {fuel : Nat} {c : Carry} {d : PollEnd} (h : c.un.Owned)
    (hr : txPollLoop cfg fuel c = some d) : d.un.Owned := by
  induction fuel generalizing c with
  | zero => cases hr
  | succ fuel ih =>
    simp only [txPollLoop] at hr
    split at hr
    · cases hr
      exact h
    · split at hr
      · cases hr
        exact h.consume
      · next hbad =>
        split at hr
        · cases hr
        · next c1 hc1 =>
          have hci := QcqUnit.inFlightSlot_of_not_badIndex (Bool.eq_false_iff.mpr hbad)
          exact ih (retireUntil_owned hc1 h.consume hci) hr

theorem rxPollLoop_owned {cfg : Config} {fuel : Nat} {c : Carry} {d : PollEnd} (h : c.un.Owned)
    (hr : rxPollLoop cfg fuel c = some d) : d.un.Owned := by
  induction fuel generalizing c with
  | zero => cases hr
  | succ fuel ih =>
    simp only [rxPollLoop] at hr
    split at hr
    · cases hr
      exact h
    · split at hr
      · cases hr
        exact h.consume
      · next hs => exact ih (h.consume.retire hs) hr

theorem flushLoop_owned {fuel : Nat} {c c1 : Carry} (h : c.un.Owned) (hr : flushLoop fuel c = some c1) : c1.un.Owned := by
  induction fuel generalizing c with
  | zero =>
    rw [flushLoop] at hr
    split at hr
    · cases hr
      exact h
    · cases hr
  | succ fuel ih =>
    rw [flushLoop] at hr
    split at hr
    · cases hr
      exact h
    · next hne => exact ih (h.retire (h.inFlight_ne_zero hne)) hr

/-! ### The operations of the fast path -/

/-- Unit `u`, where it exists, has its side table in step with its ring. -/
def State.OwnsAt (u : UnitId) (s : State) : Prop := ∀ un, s.units[u.toNat]? = some un → un.Owned

variable {s : State} {u : UnitId}

theorem State.OwnsAt.setUnit {un : QcqUnit} (h : un.Owned) : (s.setUnit u un).OwnsAt u := by
  intro un' hun'
  rw [State.setUnit_units, List.getElem?_set_self'] at hun'
  obtain ⟨-, -, rfl⟩ := Option.map_eq_some_iff.mp hun'
  exact h

/-- An operation on unit `u` behind a precondition: only what it does to a unit in step is left to show. -/
theorem State.OwnsAt.onUnit {i : Instr} {p : QcqUnit → Bool} {k : QcqUnit → Result} (hs : s.OwnsAt u)
    (hk : ∀ un : QcqUnit, un.Owned → EndsIn (State.OwnsAt u) (k un)) :
    EndsIn (State.OwnsAt u) (s.onUnit i u fun un => s.require (p un) (k un)) :=
  .onUnit hs fun un hun => .require hs fun _ => hk un (hs un hun.1)

theorem execTxXmit_ownsAt (hs : s.OwnsAt u) : EndsIn (State.OwnsAt u) (execTxXmit u s) :=
  hs.onUnit fun _ h => .ite (fun _ => .raise hs) fun hspace =>
    .requireRing (.done (State.OwnsAt.setUnit (h.own (by omega) s.a0)))

theorem execRxFill_ownsAt (mtu : Word16) (hs : s.OwnsAt u) : EndsIn (State.OwnsAt u) (execRxFill u mtu s) :=
  hs.onUnit fun _ h => .requireRing (.done (State.OwnsAt.setUnit (fillLoop_owned _ _ _ h le_rfl)))

theorem execTxPoll_ownsAt (hs : s.OwnsAt u) : EndsIn (State.OwnsAt u) (execTxPoll u s) :=
  hs.onUnit fun _ h => .requireRing (.endPoll fun _ hd => State.OwnsAt.setUnit (txPollLoop_owned h hd))

theorem execRxPoll_ownsAt (hs : s.OwnsAt u) : EndsIn (State.OwnsAt u) (execRxPoll u s) :=
  hs.onUnit fun _ h => .requireRing (.endPoll fun _ hd => State.OwnsAt.setUnit (rxPollLoop_owned h hd))

theorem execQcqFlush_ownsAt (hs : s.OwnsAt u) : EndsIn (State.OwnsAt u) (execQcqFlush u s) := by
  refine hs.onUnit fun un h => ?_
  split
  · exact .fault _
  · next c hc => exact .done (State.OwnsAt.setUnit (flushLoop_owned h hc))

end Sys2Proof.Machine

open Sys2Proof Sys2Proof.Machine

/-- Settles O59: each operation of the fast path posts only into a free slot and retires only slots in flight. -/
theorem fastPathKeepsOwnership : Obligations.FastPathKeepsOwnership := by
  intro u mtu i s t un un' hi hun hv hinv hside hcap hexec hun'
  have hs : s.OwnsAt u := by
    intro un₁ hun₁
    cases hun.symm.trans hun₁
    exact hinv.owned hv hside hcap
  have hends : EndsIn (State.OwnsAt u) (exec i s) := by
    obtain rfl | rfl | rfl | rfl | rfl := hi
    · exact execTxXmit_ownsAt hs
    · exact execTxPoll_ownsAt hs
    · exact execRxFill_ownsAt mtu hs
    · exact execRxPoll_ownsAt hs
    · exact execQcqFlush_ownsAt hs
  exact (hends t hexec un' hun').sideInv

end

section
/-! PROOFS (family 10_state.md). The device-command channel (spec/10_state.md R40) and the reset values (R60). -/

namespace Sys2Proof.Machine

theorem DcState.mayPost_iff {d : DcState} : d.mayPost = true ↔ d = .idle ∨ d = .done := by
  simp [DcState.mayPost]

/-- DC.GO leaves the channel idle or timed out (spec/42_devcmd.md R187). -/
theorem goLoop_dcState (cfg : Config) (cmd : List Byte) (limit more attempts : Nat) (comp : List Byte) (y : Sys) :
    (goLoop cfg cmd limit more attempts comp y).dcState = .idle ∨
    (goLoop cfg cmd limit more attempts comp y).dcState = .timedOut := by
  induction more generalizing attempts comp y with
  | zero =>
    rw [goLoop]
    split
    · exact .inr rfl
    · dsimp only
      split <;> exact .inl rfl
  | succ more ih =>
    rw [goLoop]
    split
    · exact .inr rfl
    · dsimp only
      split
      · exact .inl rfl
      · exact .inl rfl
      · exact ih _ _ _

/-- An operation on a unit leaves the device-command channel alone. -/
theorem exec_unit_dcState (s : State) {i : Instr} {u : UnitId} (hu : i.unit? = some u) :
    EndsIn (fun t => t.dcState = s.dcState) (exec i s) := by
  cases i with
  | qInit u =>
    exact .onUnit rfl fun _ _ => .require rfl fun _ => .ite (fun _ => .done rfl) fun _ => .raise rfl
  | qSpace u => exact .onUnit rfl fun _ _ => .require rfl fun _ => .done rfl
  | qHasSpace u n => exact .onUnit rfl fun _ _ => .require rfl fun _ => .done rfl
  | qAdvHead u =>
    exact .onUnit rfl fun _ _ => .require rfl fun _ => .ite (fun _ => .raise rfl) fun _ => .done rfl
  | qAdvTail u =>
    exact .onUnit rfl fun _ _ => .require rfl fun _ => .ite (fun _ => .raise rfl) fun _ => .done rfl
  | qDbell u => exact .onUnit rfl fun _ _ => .require rfl fun _ => .done rfl
  | cqInit u => exact .onUnit rfl fun _ _ => .require rfl fun _ => .done rfl
  | cqBind u => exact .onUnit rfl fun _ _ => .require rfl fun _ => .done rfl
  | cqPend u =>
    exact .onUnit rfl fun _ _ => .require rfl fun _ => .requireRing <| .ite (fun _ => .done rfl) fun _ => .done rfl
  | cqNext u => exact .onUnit rfl fun _ _ => .require rfl fun _ => .done rfl
  | qcqDown u => exact .onUnit rfl fun _ _ => .require rfl fun _ => .done rfl
  | aqPostWait u =>
    exact .onUnit rfl fun _ _ => .require rfl fun _ => .ite (fun _ => .raise rfl) fun _ => .ite (fun _ => .raise rfl) fun _ =>
      .requireRing <| .ite (fun _ => .raise rfl) fun _ => .ite (fun _ => .raise rfl) fun _ => .done rfl
  | nqPoll u p =>
    refine .onUnit rfl fun _ _ => .require rfl fun _ => .requireRing ?_
    split
    · exact .fault _
    · exact .done rfl
  | txXmit u =>
    exact .onUnit rfl fun _ _ => .require rfl fun _ => .ite (fun _ => .raise rfl) fun _ => .requireRing (.done rfl)
  | txPoll u => exact .onUnit rfl fun _ _ => .require rfl fun _ => .requireRing (.endPoll fun _ _ => rfl)
  | rxFill u mtu => exact .onUnit rfl fun _ _ => .require rfl fun _ => .requireRing (.done rfl)
  | rxPoll u => exact .onUnit rfl fun _ _ => .require rfl fun _ => .requireRing (.endPoll fun _ _ => rfl)
  | qcqFlush u =>
    refine .onUnit rfl fun _ _ => .require rfl fun _ => ?_
    split
    · exact .fault _
    · exact .done rfl
  | _ => cases hu

theorem exec_dcPost_dcState (s : State) :
    EndsIn (fun t => t.dcState = s.dcState ∨ (s.dcState = .idle ∨ s.dcState = .done) ∧ t.dcState = .posted)
      (exec .dcPost s) :=
  .require (.inl rfl) fun h => .done (.inr ⟨DcState.mayPost_iff.mp h, rfl⟩)

theorem exec_dcWait_dcState (n : Word16) (s : State) :
    EndsIn (fun t => t.dcState = s.dcState ∨ s.dcState = .posted ∧ (t.dcState = .done ∨ t.dcState = .timedOut))
      (exec (.dcWait n) s) :=
  .require (.inl rfl) fun h => .ite (fun _ => .done (.inr ⟨beq_iff_eq.mp h, .inl rfl⟩)) fun _ =>
    .raise (.inr ⟨beq_iff_eq.mp h, .inr rfl⟩)

theorem exec_dcStatus_dcState (s : State) :
    EndsIn (fun t => t.dcState = s.dcState ∨ s.dcState = .done ∧ t.dcState = .idle) (exec .dcStatus s) :=
  .require (.inl rfl) fun h => .done (.inr ⟨beq_iff_eq.mp h, rfl⟩)

theorem exec_dcGo_dcState (n : Word16) (s : State) :
    EndsIn (fun t => t.dcState = s.dcState ∨
      (s.dcState = .idle ∨ s.dcState = .done) ∧ (t.dcState = .idle ∨ t.dcState = .timedOut)) (exec (.dcGo n) s) :=
  .require (.inl rfl) fun h => .raise (.inr ⟨DcState.mayPost_iff.mp (Bool.and_eq_true_iff.mp h).2, goLoop_dcState ..⟩)

theorem exec_diCheck_dcState (s : State) : EndsIn (fun t => t.dcState = s.dcState) (exec .diCheck s) :=
  .ite (fun _ => .raise rfl) fun _ => .done rfl

theorem exec_reset_dcState (s : State) : EndsIn (fun t => t.dcState = .idle) (exec .reset s) := .done rfl

end Sys2Proof.Machine

open Sys2Proof Sys2Proof.Machine

/-- Settles O37: only the four operations of the channel and RESET write `DC.state`, each behind its precondition. -/
theorem channelTransitions : Obligations.ChannelTransitions := by
  intro i s t hexec
  cases hu : i.unit? with
  | some u => exact .inl (exec_unit_dcState s hu t hexec)
  | none =>
    cases i with
    | dcPost => exact (exec_dcPost_dcState s t hexec).imp_right fun h => .inl ⟨rfl, h⟩
    | dcWait n => exact (exec_dcWait_dcState n s t hexec).imp_right fun h => .inr (.inl ⟨⟨n, rfl⟩, h⟩)
    | dcStatus => exact (exec_dcStatus_dcState s t hexec).imp_right fun h => .inr (.inr (.inl ⟨rfl, h⟩))
    | dcGo n => exact (exec_dcGo_dcState n s t hexec).imp_right fun h => .inr (.inr (.inr (.inl ⟨⟨n, rfl⟩, h⟩)))
    | diCheck => exact .inl (exec_diCheck_dcState s t hexec)
    | reset => exact .inr (.inr (.inr (.inr (.inr ⟨rfl, exec_reset_dcState s t hexec⟩))))
    | _ => cases hu

/-- Settles O16: every unit of State.reset is `QcqUnit.initial` of its configuration, which has an empty side table. -/
theorem resetValues : Obligations.ResetValues := by
  refine ⟨rfl, rfl, rfl, rfl, rfl, rfl, fun un hun => ?_⟩
  obtain ⟨c, -, rfl⟩ : ∃ c ∈ UnitConfig.defaults, QcqUnit.initial Config.default c = un := List.mem_map.mp hun
  exact ⟨rfl, rfl, rfl, rfl, rfl, rfl, rfl, rfl, rfl, rfl, rfl, rfl, fun _ => rfl⟩

end

section
/-! PROOFS (family 20_memory.md). Frames of the two address spaces under a silent device: a condition on ring memory and one
on device register space outlive every access that writes only addresses they do not depend on. -/

namespace Sys2Proof.Machine

/-! ### Conditions on a store -/

/-- The condition `p` survives every write of the byte at `a`. -/
def Memory.KeptAt (p : Memory → Prop) (a : Nat) : Prop := ∀ m b, p m → p (m.set a b)

theorem Memory.keptAt_true (a : Nat) : Memory.KeptAt (fun _ => True) a := fun _ _ _ => trivial

/-- What a store holds at one address does not depend on any other. -/
theorem Memory.keptAt_get {a a' : Nat} (b : Byte) (h : a ≠ a') : Memory.KeptAt (fun m => m.get a = b) a' :=
  fun m b' hm => (Memory.get_set_other m b' h).trans hm

theorem Memory.write_of_keptAt {p : Memory → Prop} {m : Memory} {a : Nat} {bs : List Byte} (hm : p m)
    (h : ∀ k < bs.length, Memory.KeptAt p (a + k)) : p (m.write a bs) := by
  induction bs generalizing m a with
  | nil => exact hm
  | cons b bs ih =>
    refine ih (h 0 (by simp) m b hm) fun k hk => ?_
    rw [Nat.add_right_comm]
    exact h (k + 1) (by simpa using hk)

/-- The device is silent, ring memory satisfies `p` and device register space `q`. -/
def Sys.Holds (p q : Memory → Prop) (y : Sys) : Prop := y.Quiet ∧ p y.mem ∧ q y.reg

namespace Sys.Holds

variable {p q : Memory → Prop} {cfg : Config} {y : Sys}

/-! ### Accesses -/

theorem record (h : y.Holds p q) (e : PortEvent) : (y.record e).Holds p q := h

theorem note (h : y.Holds p q) (un : QcqUnit) : (y.note cfg un).Holds p q := h

theorem turn (h : y.Holds p q) : (y.turn cfg).2.Holds p q := by
  refine ⟨h.1.turn, ?_⟩
  rw [h.1.turn_eq cfg]
  exact h.2

theorem tick (h : y.Holds p q) : (y.tick cfg).Holds p q := h.turn

theorem bufAlloc (h : y.Holds p q) (len : Nat) : (y.bufAlloc len).2.Holds p q := by
  unfold Sys.bufAlloc
  split <;> exact h

theorem readBytes (h : y.Holds p q) (addr f : Nat) (rem : List Nat) (acc : List Byte) :
    (y.readBytes cfg addr f rem acc).2.Holds p q := by
  induction f generalizing rem acc y with
  | zero => exact h
  | succ f ih => exact ih h.turn _ _

theorem memRead (h : y.Holds p q) (addr n : Nat) : (y.memRead cfg addr n).2.Holds p q := by
  unfold Sys.memRead
  split
  · exact h.turn
  · exact h.readBytes _ _ _ _

theorem writeBytes {addr : Nat} {bs : List Byte} {f : Nat} {rem : List Nat} (h : y.Holds p q) (hf : f = rem.length)
    (hp : ∀ k ∈ rem, Memory.KeptAt p (addr + k)) : (y.writeBytes cfg addr bs f rem).Holds p q := by
  induction f generalizing rem y with
  | zero => exact h
  | succ f ih =>
    have hi : (y.turn cfg).1 % rem.length < rem.length := Nat.mod_lt _ (by omega)
    have hk : rem.getD ((y.turn cfg).1 % rem.length) 0 ∈ rem := by
      rw [List.getD_eq_getElem _ _ hi]
      exact List.getElem_mem hi
    obtain ⟨hquiet, hmem, hreg⟩ := h.turn (cfg := cfg)
    exact ih ⟨hquiet, hp _ hk _ _ hmem, hreg⟩ (by rw [List.length_eraseIdx_of_lt hi]; omega)
      fun k hk => hp k (List.mem_of_mem_eraseIdx hk)

theorem memWrite {addr : Nat} {bs : List Byte} (h : y.Holds p q)
    (hp : ∀ k < bs.length, Memory.KeptAt p (addr + k)) : (y.memWrite cfg addr bs).Holds p q := by
  unfold Sys.memWrite
  split
  · obtain ⟨hquiet, hmem, hreg⟩ := h.turn (cfg := cfg)
    exact ⟨hquiet, Memory.write_of_keptAt hmem hp, hreg⟩
  · exact h.writeBytes (by simp) fun k hk => hp k (List.mem_range.mp hk)

theorem regRead (h : y.Holds p q) (addr n : Nat) : (y.regRead cfg addr n).2.Holds p q := h.turn

theorem regWrite {addr : Nat} {bs : List Byte} (h : y.Holds p q)
    (hq : ∀ k < bs.length, Memory.KeptAt q (addr + k)) : (y.regWrite cfg addr bs).Holds p q := by
  obtain ⟨hquiet, hmem, hreg⟩ := h.turn (cfg := cfg)
  exact ⟨hquiet, hmem, Memory.write_of_keptAt hreg hq⟩

/-! ### Steps of the colour protocol and the doorbell -/

theorem pending (h : y.Holds p q) (un : QcqUnit) : (un.pending cfg y).2.Holds p q := (h.note un).memRead _ _

theorem readComp (h : y.Holds p q) (un : QcqUnit) : (un.readComp cfg y).2.Holds p q := (h.record _).memRead _ _

theorem ring {un : QcqUnit} (h : y.Holds p q)
    (hq : ∀ k < mailboxBytes, Memory.KeptAt q (un.conf.dbAddr.toNat + k)) : (un.ring cfg y).Holds p q :=
  regWrite (h.record .wmb) hq

theorem waitPending (h : y.Holds p q) (un : QcqUnit) (left ticks : Nat) :
    (un.waitPending cfg left ticks y).sys.Holds p q := by
  induction left generalizing ticks y with
  | zero =>
    rw [QcqUnit.waitPending]
    split <;> exact h.pending un
  | succ left ih =>
    rw [QcqUnit.waitPending]
    split
    · exact h.pending un
    · exact ih (h.pending un).tick _

/-! ### The device-command channel -/

theorem postWords {cmd : List Byte} {n k : Nat} (h : y.Holds p q)
    (hq : ∀ j < 4 * (k + n), Memory.KeptAt q (dcCmdAddr cfg + j)) : (y.postWords cfg cmd n k).Holds p q := by
  induction n generalizing k y with
  | zero => exact h
  | succ n ih =>
    refine ih (h.regWrite fun j hj => ?_) fun j hj => hq j (by omega)
    have hj : j < 4 := by simpa [cmdWord] using hj
    rw [Nat.add_assoc]
    exact hq _ (by omega)

theorem post {cmd : List Byte} (h : y.Holds p q) (hq : ∀ a, isDcRegister cfg a = true → Memory.KeptAt q a) :
    (y.post cfg cmd).Holds p q := by
  have hcmd : ∀ j < cfg.dcCmdBytes, Memory.KeptAt q (dcCmdAddr cfg + j) :=
    fun j hj => hq _ (by simp [isDcRegister, hj])
  have hdone : ∀ j < 4, Memory.KeptAt q (dcDoneAddr cfg + j) := fun j hj => hq _ (by simp [isDcRegister, hj])
  have hbell : ∀ j < 4, Memory.KeptAt q (dcDoorbellAddr cfg + j) := fun j hj => hq _ (by simp [isDcRegister, hj])
  have hwords := h.postWords (cmd := cmd) (n := cfg.dcCmdBytes / 4) (k := 0) fun j hj => hcmd j (by omega)
  exact (hwords.regWrite (bs := [0, 0, 0, 0]) hdone).regWrite (bs := [1, 0, 0, 0]) hbell

theorem waitDone (h : y.Holds p q) (left ticks : Nat) : (y.waitDone cfg left ticks).sys.Holds p q := by
  induction left generalizing ticks y with
  | zero =>
    rw [Sys.waitDone]
    split <;> exact h.regRead _ _
  | succ left ih =>
    rw [Sys.waitDone]
    split
    · exact h.regRead _ _
    · exact ih (h.regRead _ _).tick _

theorem readCompWords (h : y.Holds p q) (n k : Nat) : (y.readCompWords cfg n k).2.Holds p q := by
  induction n generalizing k y with
  | zero => exact h
  | succ n ih => exact ih (h.regRead _ _) _

theorem readStatus (h : y.Holds p q) : (y.readStatus cfg).sys.Holds p q := (h.regRead _ _).readCompWords _ _

theorem goLoop {cmd : List Byte} (h : y.Holds p q) (hq : ∀ a, isDcRegister cfg a = true → Memory.KeptAt q a)
    (limit more attempts : Nat) (comp : List Byte) :
    (Machine.goLoop cfg cmd limit more attempts comp y).sys.Holds p q := by
  induction more generalizing attempts comp y with
  | zero =>
    have hwait := (h.post (cmd := cmd) hq).waitDone (cfg := cfg) limit 0
    rw [Machine.goLoop]
    split
    · exact hwait
    · dsimp only
      split <;> exact hwait.readStatus
  | succ more ih =>
    have hwait := (h.post (cmd := cmd) hq).waitDone (cfg := cfg) limit 0
    rw [Machine.goLoop]
    split
    · exact hwait
    · dsimp only
      split
      · exact hwait.readStatus
      · exact hwait.readStatus
      · exact ih hwait.readStatus _ _

/-! ### The polling loops -/

theorem retireUntil {ci : Word16} {fuel : Nat} {c c1 : Carry} (h : c.sys.Holds p q)
    (hr : Machine.retireUntil ci fuel c = some c1) : c1.sys.Holds p q := by
  induction fuel generalizing c with
  | zero => cases hr
  | succ fuel ih =>
    rw [Machine.retireUntil] at hr
    split at hr
    · cases hr
      exact h.record _
    · exact ih (c := ⟨c.un.retire, c.count + 1, c.sys.bufRetire c.un.tailHandle⟩) h hr

theorem txPollLoop {fuel : Nat} {c : Carry} {d : PollEnd} (h : c.sys.Holds p q)
    (hr : Machine.txPollLoop cfg fuel c = some d) : d.sys.Holds p q := by
  induction fuel generalizing c with
  | zero => cases hr
  | succ fuel ih =>
    have hread := (h.pending (cfg := cfg) c.un).readComp (cfg := cfg) c.un
    simp only [Machine.txPollLoop] at hr
    split at hr
    · cases hr
      exact h.pending c.un
    · split at hr
      · cases hr
        exact hread
      · split at hr
        · cases hr
        · next c1 hc1 => exact ih (retireUntil hread hc1) hr

theorem rxPollLoop {fuel : Nat} {c : Carry} {d : PollEnd} (h : c.sys.Holds p q)
    (hr : Machine.rxPollLoop cfg fuel c = some d) : d.sys.Holds p q := by
  induction fuel generalizing c with
  | zero => cases hr
  | succ fuel ih =>
    have hread := (h.pending (cfg := cfg) c.un).readComp (cfg := cfg) c.un
    simp only [Machine.rxPollLoop] at hr
    split at hr
    · cases hr
      exact h.pending c.un
    · split at hr
      · cases hr
        exact hread
      · exact ih (hread.record _) hr

theorem flushBuffer (h : y.Holds p q) (un : QcqUnit) : (un.flushBuffer y).Holds p q := by
  unfold QcqUnit.flushBuffer
  split
  · split <;> exact h.record _
  · exact h

theorem flushLoop {fuel : Nat} {c c1 : Carry} (h : c.sys.Holds p q) (hr : Machine.flushLoop fuel c = some c1) :
    c1.sys.Holds p q := by
  induction fuel generalizing c with
  | zero =>
    rw [Machine.flushLoop] at hr
    split at hr
    · cases hr
      exact h
    · cases hr
  | succ fuel ih =>
    rw [Machine.flushLoop] at hr
    split at hr
    · cases hr
      exact h
    · exact ih (h.flushBuffer c.un) hr

theorem dispatchEvent (h : y.Holds p q) (process : Bool) (code : Word16) :
    (y.dispatchEvent cfg process code).Holds p q := by
  unfold Sys.dispatchEvent
  split
  · split
    · exact h.record _
    · split
      · exact h.record _
      · exact h
  · exact h

theorem notifyLoop {process : Bool} {fuel count fresh : Nat} {un : QcqUnit} {d : DrainEnd} (h : y.Holds p q)
    (hr : Machine.notifyLoop cfg process fuel un count fresh y = some d) : d.sys.Holds p q := by
  induction fuel generalizing un count fresh y with
  | zero => cases hr
  | succ fuel ih =>
    have hread := (h.pending (cfg := cfg) un).readComp (cfg := cfg) un
    simp only [Machine.notifyLoop] at hr
    split at hr
    · cases hr
      exact h.pending un
    · split at hr
      · exact ih (hread.dispatchEvent _ _) hr
      · exact ih hread hr

end Sys.Holds

end Sys2Proof.Machine
end

section
/-! PROOFS (family 20_memory.md). Posting: the slots from the head on that an operation fills (spec/20_memory.md R80,
spec/40_queue.md R154). -/

namespace Sys2Proof.Machine

/-! ### Lengths of descriptors -/

@[simp] theorem length_placeAt (bs : List Byte) (off : Nat) (f : List Byte) : (placeAt bs off f).length = bs.length := by
  induction f generalizing bs off with
  | nil => rfl
  | cons b f ih => simp [placeAt, ih]

@[simp] theorem length_firstBytes (n : Nat) (bs : List Byte) : (firstBytes n bs).length = n := by simp [firstBytes]

@[simp] theorem length_txDesc (L : TxDescLayout) (ds : Nat) (addr : Handle) (len flags vlan : Word16) :
    (txDesc L ds addr len flags vlan).length = ds := by
  simp [txDesc]

@[simp] theorem length_rxDesc (L : RxDescLayout) (ds : Nat) (addr : Handle) (len : Word16) :
    (rxDesc L ds addr len).length = ds := by
  simp [rxDesc]

/-! ### Slots from the head on -/

/-- The head after `k` slots have been posted. -/
def QcqUnit.headAfter (un : QcqUnit) (k : Nat) : Word16 := (nextIndex · un.cap)^[k] un.q.head

theorem QcqUnit.headAfter_own (un : QcqUnit) (b : Handle) (k : Nat) : (un.own b).headAfter k = un.headAfter (k + 1) := rfl

/-- Slot by slot, the ring order of spec/40_queue.md R154. -/
theorem QcqUnit.headAfter_eq {un : QcqUnit} (hh : un.q.head.toNat < un.cap) (hcap : un.cap ≤ 65536) (k : Nat) :
    un.headAfter k = BitVec.ofNat 16 ((un.q.head.toNat + k) % un.cap) := by
  induction k with
  | zero => simp [QcqUnit.headAfter, Nat.mod_eq_of_lt hh]
  | succ k ih =>
    have hlt : (un.q.head.toNat + k) % un.cap < 2 ^ 16 := (Nat.mod_lt _ (by omega)).trans_le hcap
    calc un.headAfter (k + 1) = nextIndex (un.headAfter k) un.cap := Function.iterate_succ_apply' _ _ _
      _ = BitVec.ofNat 16 ((un.q.head.toNat + (k + 1)) % un.cap) := by
        rw [ih, nextIndex, BitVec.toNat_ofNat, Nat.mod_eq_of_lt hlt, Nat.mod_add_mod, Nat.add_assoc]

/-- The condition `p` survives every write into the `n` slots from the head on. -/
def QcqUnit.SlotsKept (p : Memory → Prop) (un : QcqUnit) (n : Nat) : Prop :=
  ∀ k < n, ∀ j < un.q.descSize.toNat, Memory.KeptAt p (un.qSlot (un.headAfter k) + j)

/-- A byte outside the slots of the ring order is none that posting them writes. -/
theorem QcqUnit.slotsKept_get {un : QcqUnit} {n a : Nat} (b : Byte) (hh : un.q.head.toNat < un.cap)
    (hcap : un.cap ≤ 65536)
    (ha : ∀ j ∈ ringOrder un.q.head.toNat n un.cap,
      a < un.qSlot (BitVec.ofNat 16 j) ∨ un.qSlot (BitVec.ofNat 16 j) + un.q.descSize.toNat ≤ a) :
    un.SlotsKept (fun m => m.get a = b) n := by
  intro k hk j hj
  have hout := ha _ (List.mem_map.mpr ⟨k, List.mem_range.mpr hk, rfl⟩)
  rw [QcqUnit.headAfter_eq hh hcap]
  exact Memory.keptAt_get b (by omega)

/-- What is kept through `n + 1` slots is kept through the slot at the head. -/
theorem QcqUnit.SlotsKept.head {p : Memory → Prop} {un : QcqUnit} {n : Nat} (h : un.SlotsKept p (n + 1)) :
    ∀ j < un.q.descSize.toNat, Memory.KeptAt p (un.qSlot un.q.head + j) :=
  h 0 n.succ_pos

theorem QcqUnit.SlotsKept.own {p : Memory → Prop} {un : QcqUnit} {n : Nat} (h : un.SlotsKept p (n + 1)) (b : Handle) :
    (un.own b).SlotsKept p n :=
  fun k hk => h (k + 1) (by omega)

theorem QcqUnit.slotsKept_of_forall {p : Memory → Prop} (h : ∀ a, Memory.KeptAt p a) (un : QcqUnit) (n : Nat) :
    un.SlotsKept p n :=
  fun _ _ _ _ => h _

/-! ### The loop of RX.FILL -/

/-- One round of RX.FILL with the buffer `b` (spec/45_txrx.md R240). -/
def Carry.fill (cfg : Config) (mtu : Word16) (b : Handle) (c : Carry) : Carry :=
  ⟨c.un.own b, c.count + 1, (c.sys.bufAlloc mtu.toNat).2.memWrite cfg (c.un.qSlot c.un.q.head)
    (rxDesc cfg.rxDesc c.un.q.descSize.toNat b mtu)⟩

theorem fillLoop_succ (cfg : Config) (mtu : Word16) (n : Nat) (c : Carry) :
    fillLoop cfg mtu (n + 1) c = { c with sys := (c.sys.bufAlloc mtu.toNat).2 } ∨
    ∃ b, fillLoop cfg mtu (n + 1) c = fillLoop cfg mtu n (c.fill cfg mtu b) := by
  rw [fillLoop]
  split
  · exact .inl rfl
  · next b _ => exact .inr ⟨b, rfl⟩

theorem fillLoop_conf (cfg : Config) (mtu : Word16) (n : Nat) (c : Carry) :
    (fillLoop cfg mtu n c).un.conf = c.un.conf := by
  induction n generalizing c with
  | zero => rfl
  | succ n ih =>
    obtain h | ⟨b, h⟩ := fillLoop_succ cfg mtu n c <;> rw [h]
    exact ih _

theorem le_fillLoop_count (cfg : Config) (mtu : Word16) (n : Nat) (c : Carry) :
    c.count ≤ (fillLoop cfg mtu n c).count := by
  induction n generalizing c with
  | zero => exact le_rfl
  | succ n ih =>
    obtain h | ⟨b, h⟩ := fillLoop_succ cfg mtu n c <;> rw [h]
    exact (Nat.le_succ _).trans (ih (c.fill cfg mtu b))

theorem fillLoop_count_le (cfg : Config) (mtu : Word16) (n : Nat) (c : Carry) :
    (fillLoop cfg mtu n c).count ≤ c.count + n := by
  induction n generalizing c with
  | zero => exact le_rfl
  | succ n ih =>
    obtain h | ⟨b, h⟩ := fillLoop_succ cfg mtu n c <;> rw [h]
    · exact Nat.le_add_right _ _
    · exact (ih (c.fill cfg mtu b)).trans_eq (Nat.succ_add_eq_add_succ _ _)

/-- RX.FILL's loop writes only the slots it counts. -/
theorem Sys.Holds.fillLoop {p q : Memory → Prop} {cfg : Config} {mtu : Word16} {n : Nat} {c : Carry}
    (h : c.sys.Holds p q) (hp : c.un.SlotsKept p ((fillLoop cfg mtu n c).count - c.count)) :
    (fillLoop cfg mtu n c).sys.Holds p q := by
  induction n generalizing c with
  | zero => exact h
  | succ n ih =>
    obtain hf | ⟨b, hf⟩ := fillLoop_succ cfg mtu n c <;> rw [hf] at hp ⊢
    · exact h.bufAlloc _
    · have hcount : (Machine.fillLoop cfg mtu n (c.fill cfg mtu b)).count - c.count =
          (Machine.fillLoop cfg mtu n (c.fill cfg mtu b)).count - (c.fill cfg mtu b).count + 1 :=
        (Nat.sub_add_cancel (Nat.le_sub_of_add_le' (le_fillLoop_count cfg mtu n (c.fill cfg mtu b)))).symm
      rw [hcount] at hp
      have hwrite : (c.fill cfg mtu b).sys.Holds p q :=
        (h.bufAlloc _).memWrite fun k hk => hp.head k (by simpa using hk)
      exact ih hwrite (hp.own b)

end Sys2Proof.Machine
end

section
/-! PROOFS (family 20_memory.md). What each operation of the block keeps of the two address spaces under a silent device
(spec/20_memory.md R72, R81). -/

namespace Sys2Proof.Machine

variable {p q : Memory → Prop} {s : State} {u : UnitId}

theorem QcqUnit.adminReady_iff {cfg : Config} {un : QcqUnit} :
    un.adminReady cfg = true ↔ un.q.valid = true ∧ un.cq.valid = true ∧ un.cq.bound = true ∧
      un.q.descSize.toNat = cfg.dcCmdBytes ∧ un.cq.descSize.toNat = cfg.dcCompBytes := by
  simp [QcqUnit.adminReady, and_assoc]

theorem QcqUnit.valid_of_txReady {cfg : Config} {un : QcqUnit} (h : un.txReady cfg = true) : un.q.valid = true := by
  simp only [QcqUnit.txReady, Bool.and_eq_true] at h
  exact h.1.1.1.1

theorem QcqUnit.valid_of_rxReady {cfg : Config} {un : QcqUnit} (h : un.rxReady cfg = true) : un.q.valid = true := by
  simp only [QcqUnit.rxReady, Bool.and_eq_true] at h
  exact h.1.1.1.1

/-- The mailbox of the unit an operation acts on. -/
theorem State.inMailbox_of_actsOn {i : Instr} {un : QcqUnit} (h : ActsOn i u s un) {k : Nat} (hk : k < mailboxBytes) :
    s.inMailbox u (un.conf.dbAddr.toNat + k) = true := by
  simp [State.inMailbox, h.1, hk]

/-! ### The operations that post -/

section posting

variable (hs : s.sys.Holds p q) (hq : ∀ a, s.inMailbox u a = true → Memory.KeptAt q a)
include hs hq

theorem execAqPostWait_holds (hp : ∀ un, ActsOn (.aqPostWait u) u s un → un.q.valid = true → un.SlotsKept p 1) :
    EndsIn (fun t => t.sys.Holds p q) (execAqPostWait u s) := by
  refine .onUnit hs fun un hun => .require hs fun hready => .ite (fun _ => .raise hs) fun _ =>
    .ite (fun _ => .raise hs) fun _ => .requireRing ?_
  obtain ⟨hvalid, -, -, hsize, -⟩ := QcqUnit.adminReady_iff.mp hready
  have hwrite : (s.sys.memWrite s.cfg (un.qSlot un.q.head) (firstBytes s.cfg.dcCmdBytes s.ctxCmd)).Holds p q :=
    hs.memWrite fun k hk => (hp un hun hvalid).head k (by simpa [hsize] using hk)
  have hring : (un.advHead.ring s.cfg _).Holds p q :=
    hwrite.ring fun k hk => hq _ (State.inMailbox_of_actsOn hun hk)
  have hwait := hring.waitPending (cfg := s.cfg) un.advHead s.cfg.adminqTimeoutTicks 0
  have hread := hwait.readComp (cfg := s.cfg) un.advHead
  exact .ite (fun _ => .raise hwait) fun _ => .ite (fun _ => .raise hread) fun _ => .done hread

theorem execTxXmit_holds (hp : ∀ un, ActsOn (.txXmit u) u s un → un.q.valid = true → un.SlotsKept p 1) :
    EndsIn (fun t => t.sys.Holds p q) (execTxXmit u s) := by
  refine .onUnit hs fun un hun => .require hs fun hready => .ite (fun _ => .raise hs) fun _ => .requireRing (.done ?_)
  have hslot := (hp un hun (QcqUnit.valid_of_txReady hready)).head
  exact (hs.memWrite fun k hk => hslot k (by simpa using hk)).ring fun k hk => hq _ (State.inMailbox_of_actsOn hun hk)

/-- RX.FILL writes as many slots as it reports. -/
theorem execRxFill_holds (mtu : Word16) :
    EndsIn (fun t => (∀ un, ActsOn (.rxFill u mtu) u s un → un.q.valid = true → un.SlotsKept p t.r1.toNat) →
      t.sys.Holds p q) (execRxFill u mtu s) := by
  refine .onUnit (fun _ => hs) fun un hun => .require (fun _ => hs) fun hready => .requireRing (.done fun hp => ?_)
  have hfill : (fillLoop s.cfg mtu un.space ⟨un, 0, s.sys⟩).sys.Holds p q := by
    refine hs.fillLoop (c := ⟨un, 0, s.sys⟩) ?_
    have hle := fillLoop_count_le s.cfg mtu un.space ⟨un, 0, s.sys⟩
    have hspace : un.space < 2 ^ 64 := by
      have := un.q.capacity.isLt
      simp only [QcqUnit.space, QcqUnit.cap]
      omega
    have hslots := hp un hun (QcqUnit.valid_of_rxReady hready)
    rwa [State.finish_r1, BitVec.toNat_ofNat, Nat.mod_eq_of_lt (by dsimp only at hle; omega)] at hslots
  rw [State.finish_sys, State.withSys_sys]
  split
  · refine hfill.ring fun k hk => hq _ ?_
    rw [fillLoop_conf]
    exact State.inMailbox_of_actsOn hun hk
  · exact hfill

end posting

/-! ### Every operation -/

/-- The operations that touch no port leave all of the surroundings as they are. -/
theorem exec_sys_of_touchesNoPort {i : Instr} (hi : touchesNoPort i = true) :
    EndsIn (fun t => t.sys = s.sys) (exec i s) := by
  cases i with
  | qInit u =>
    exact .onUnit rfl fun _ _ => .require rfl fun _ => .ite (fun _ => .done rfl) fun _ => .raise rfl
  | qSpace u => exact .onUnit rfl fun _ _ => .require rfl fun _ => .done rfl
  | qHasSpace u n => exact .onUnit rfl fun _ _ => .require rfl fun _ => .done rfl
  | qAdvHead u =>
    exact .onUnit rfl fun _ _ => .require rfl fun _ => .ite (fun _ => .raise rfl) fun _ => .done rfl
  | qAdvTail u =>
    exact .onUnit rfl fun _ _ => .require rfl fun _ => .ite (fun _ => .raise rfl) fun _ => .done rfl
  | cqInit u => exact .onUnit rfl fun _ _ => .require rfl fun _ => .done rfl
  | cqBind u => exact .onUnit rfl fun _ _ => .require rfl fun _ => .done rfl
  | cqNext u => exact .onUnit rfl fun _ _ => .require rfl fun _ => .done rfl
  | qcqDown u => exact .onUnit rfl fun _ _ => .require rfl fun _ => .done rfl
  | reset => exact .done rfl
  | _ => cases hi

/-- Under a silent device an operation keeps a condition on ring memory unless it posts, and a condition on device register
space that depends on no byte it may write. -/
theorem exec_holds {i : Instr} (hs : s.sys.Holds p q)
    (hp : storesDescriptor i = true → ∀ a, Memory.KeptAt p a)
    (hq : ∀ a, mayWriteRegister s i a = true → Memory.KeptAt q a) :
    EndsIn (fun t => t.sys.Holds p q) (exec i s) := by
  cases hport : touchesNoPort i with
  | true =>
    intro t ht
    rw [exec_sys_of_touchesNoPort hport t ht]
    exact hs
  | false =>
    cases i with
    | qDbell u =>
      exact .onUnit hs fun un hun => .require hs fun _ =>
        .done (hs.ring fun k hk => hq _ (State.inMailbox_of_actsOn hun hk))
    | cqPend u =>
      exact .onUnit hs fun un _ => .require hs fun _ => .requireRing <|
        .ite (fun _ => .done (hs.pending un)) fun _ => .done (hs.pending un)
    | dcPost => exact .require hs fun _ => .done (hs.post hq)
    | dcWait n =>
      exact .require hs fun _ => .ite (fun _ => .done (hs.waitDone _ _)) fun _ => .raise (hs.waitDone _ _)
    | dcStatus => exact .require hs fun _ => .done hs.readStatus
    | dcGo n => exact .require hs fun _ => .raise (hs.goLoop hq _ _ _ _)
    | diCheck => exact .ite (fun _ => .raise (hs.regRead _ _)) fun _ => .done ((hs.regRead _ _).regRead _ _)
    | aqPostWait u => exact execAqPostWait_holds hs hq fun un _ _ => un.slotsKept_of_forall (hp rfl) 1
    | nqPoll u process =>
      refine .onUnit hs fun un _ => .require hs fun _ => .requireRing ?_
      split
      · exact .fault _
      · next d hd => exact .done (hs.notifyLoop hd)
    | txXmit u => exact execTxXmit_holds hs hq fun un _ _ => un.slotsKept_of_forall (hp rfl) 1
    | txPoll u =>
      exact .onUnit hs fun un _ => .require hs fun _ => .requireRing <|
        .endPoll fun d hd => hs.txPollLoop (c := ⟨un, 0, s.sys⟩) hd
    | rxFill u mtu =>
      exact fun t ht => execRxFill_holds hs hq mtu t ht fun un _ _ => un.slotsKept_of_forall (hp rfl) _
    | rxPoll u =>
      exact .onUnit hs fun un _ => .require hs fun _ => .requireRing <|
        .endPoll fun d hd => hs.rxPollLoop (c := ⟨un, 0, s.sys⟩) hd
    | qcqFlush u =>
      refine .onUnit hs fun un _ => .require hs fun _ => ?_
      split
      · exact .fault _
      · next c hc => exact .done (hs.flushLoop (c := ⟨un, 0, s.sys⟩) hc)
    | _ => cases hport

end Sys2Proof.Machine

open Sys2Proof Sys2Proof.Machine

/-- Settles O12: these operations end with registers of the block changed only. -/
theorem registerOnlyOperationsTouchNoPort : Obligations.RegisterOnlyOperationsTouchNoPort :=
  fun _ _ t hi hexec => exec_sys_of_touchesNoPort hi t hexec

/-- Settles O13: being the old ring memory is kept, as nothing that does not post writes ring memory. -/
theorem nonStoringOperationsKeepMemory : Obligations.NonStoringOperationsKeepMemory := by
  intro i s t hi hquiet hexec
  have hs : s.sys.Holds (fun m => m = s.sys.mem) (fun _ => True) := ⟨hquiet, rfl, trivial⟩
  have hstores : storesDescriptor i ≠ true := by simp [hi]
  obtain ⟨-, hmem, -⟩ := exec_holds hs (fun h => absurd h hstores) (fun a _ => Memory.keptAt_true a) t hexec
  exact hmem

/-- Settles O14: holding the old byte at an address outside the slots is kept by every write into them. -/
theorem storingOperationsWriteTheirSlots : Obligations.StoringOperationsWriteTheirSlots := by
  intro u mtu s t un i n hi hun hinv hcap hquiet _ hexec a ha
  have hs : s.sys.Holds (fun m => m.get a = s.sys.mem.get a) (fun _ => True) := ⟨hquiet, rfl, trivial⟩
  have hq : ∀ a, s.inMailbox u a = true → Memory.KeptAt (fun _ => True) a := fun a _ => Memory.keptAt_true a
  have hslots : ∀ un', ActsOn i u s un' → un'.q.valid = true →
      un'.SlotsKept (fun m => m.get a = s.sys.mem.get a) n := by
    intro un' hun' hvalid
    cases hun.1.symm.trans hun'.1
    obtain ⟨-, -, hmax, hhead, -⟩ := hinv.1 hvalid
    exact QcqUnit.slotsKept_get _ hhead (hmax.trans hcap) ha
  have hends : t.sys.Holds (fun m => m.get a = s.sys.mem.get a) (fun _ => True) := by
    obtain ⟨rfl, rfl⟩ | ⟨rfl, rfl⟩ | ⟨rfl, rfl⟩ := hi
    · exact execAqPostWait_holds hs hq hslots t hexec
    · exact execTxXmit_holds hs hq hslots t hexec
    · exact execRxFill_holds hs hq mtu t hexec hslots
  exact hends.2.1

/-- Settles O15: holding the old byte at an address is kept by every write of the registers R81 names, none of which is
there. -/
theorem registerSpaceFrame : Obligations.RegisterSpaceFrame := by
  intro i s t hquiet hexec a ha
  have hs : s.sys.Holds (fun _ => True) (fun r => r.get a = s.sys.reg.get a) := ⟨hquiet, trivial, rfl⟩
  have hkept : ∀ a', mayWriteRegister s i a' = true → Memory.KeptAt (fun r => r.get a = s.sys.reg.get a) a' :=
    fun a' ha' => Memory.keptAt_get _ (by rintro rfl; simp [ha] at ha')
  obtain ⟨-, -, hreg⟩ := exec_holds hs (fun _ => Memory.keptAt_true) hkept t hexec
  exact hreg

end

section
/-! PROOFS (family 30_encoding.md). The request word (spec/30_encoding.md R101 to R105): which words the decoder
accepts, format by format, and which words a row of spec/opcode_table.json holds, mask by mask. -/

namespace Sys2Proof

/-! ### Fields of a word -/

theorem eq_requestWord {w : Word32} {imm : Word16} {u : UnitId} {op : Byte} (himm : immOf w = imm)
    (hunit : unitOf w = u) (hop : opOf w = op) : requestWord imm u op = w := by
  rw [← himm, ← hunit, ← hop, requestWord_fields]

theorem opOf_eq_of_toNat {w : Word32} {n : Nat} (h : (opOf w).toNat = n) : opOf w = BitVec.ofNat 8 n := by
  rw [← h, BitVec.ofNat_toNat, BitVec.setWidth_eq]

/-- An immediate whose bits 15:1 are zero is its bit 0 (spec/30_encoding.md R104). -/
theorem eq_bit0_of_high_zero {n : Word16} (h : n.extractLsb' 1 15 = 0) : n = if n.getLsbD 0 then 1 else 0 := by
  apply BitVec.eq_of_getLsbD_eq
  intro k hk
  cases k with
  | zero => cases n.getLsbD 0 <;> rfl
  | succ k =>
    have hbit : n.getLsbD (k + 1) = false := by
      have hk' := congrArg (·.getLsbD k) h
      simpa [show k < 15 by omega, Nat.add_comm] using hk'
    rw [hbit]
    cases n.getLsbD 0 <;> simp [BitVec.getLsbD_one]

theorem high_zero_of_mask {n : Word16} (h : n &&& 0xFFFE = 0) : n.extractLsb' 1 15 = 0 := by
  have hx := congrArg (BitVec.extractLsb' 1 15) h
  rwa [BitVec.extractLsb'_and, show BitVec.extractLsb' 1 15 (0xFFFE : Word16) = BitVec.allOnes 15 from rfl,
    BitVec.and_allOnes] at hx

/-! ### The formats: a word that one accepts is the encoder's -/

section formats

variable {w : Word32} {i : Instr} {n : Nat} (hop : (opOf w).toNat = n)
include hop

theorem encode_of_formatN {j : Instr} (hj : encode j = requestWord 0 0 (BitVec.ofNat 8 n)) (h : formatN w j = .ok i) :
    encode i = w := by
  unfold formatN at h
  split at h
  · next hz =>
    cases h
    rw [hj, eq_requestWord hz.2 hz.1 (opOf_eq_of_toNat hop)]
  · cases h

theorem encode_of_formatU {j : UnitId → Instr} (hj : ∀ u, encode (j u) = requestWord 0 u (BitVec.ofNat 8 n))
    (h : formatU w j = .ok i) : encode i = w := by
  unfold formatU at h
  split at h
  · next hz =>
    cases h
    rw [hj, eq_requestWord hz rfl (opOf_eq_of_toNat hop)]
  · cases h

theorem encode_of_formatUI {j : UnitId → Word16 → Instr}
    (hj : ∀ u imm, encode (j u imm) = requestWord imm u (BitVec.ofNat 8 n)) (h : formatUI w j = .ok i) :
    encode i = w := by
  cases h
  rw [hj, eq_requestWord rfl rfl (opOf_eq_of_toNat hop)]

theorem encode_of_formatI {j : Word16 → Instr} (hj : ∀ imm, encode (j imm) = requestWord imm 0 (BitVec.ofNat 8 n))
    (h : formatI w j = .ok i) : encode i = w := by
  unfold formatI at h
  split at h
  · next hz =>
    cases h
    rw [hj, eq_requestWord rfl hz (opOf_eq_of_toNat hop)]
  · cases h

theorem encode_of_formatNqPoll (hn : n = 0x1C) (h : formatNqPoll w = .ok i) : encode i = w := by
  unfold formatNqPoll at h
  split at h
  · next hz =>
    cases h
    exact eq_requestWord (eq_bit0_of_high_zero hz) rfl (opOf_eq_of_toNat (hop.trans hn))
  · cases h

end formats

/-! ### The rows of the table -/

section rows

variable {m : String} {mask v w : Word32}

/-- A row holds a word when each field of the word, masked, is the row's. -/
theorem OpRow.holds_iff :
    OpRow.holds ⟨m, mask, v⟩ w = true ↔ immOf w &&& immOf mask = immOf v ∧ unitOf w &&& unitOf mask = unitOf v ∧
      opOf w &&& opOf mask = opOf v := by
  have himm : immOf (w &&& mask) = immOf w &&& immOf mask := BitVec.extractLsb'_and
  have hunit : unitOf (w &&& mask) = unitOf w &&& unitOf mask := BitVec.extractLsb'_and
  have hop : opOf (w &&& mask) = opOf w &&& opOf mask := BitVec.extractLsb'_and
  rw [OpRow.holds, beq_iff_eq, ← himm, ← hunit, ← hop]
  constructor
  · intro h
    rw [h]
    exact ⟨rfl, rfl, rfl⟩
  · rintro ⟨himm, hunit, hop⟩
    rw [← requestWord_fields v]
    exact (eq_requestWord himm hunit hop).symm

theorem OpRow.holds_requestWord {imm : Word16} {u : UnitId} {op : Byte} (himm : imm &&& immOf mask = immOf v)
    (hunit : u &&& unitOf mask = unitOf v) (hop : op &&& opOf mask = opOf v) :
    OpRow.holds ⟨m, mask, v⟩ (requestWord imm u op) = true :=
  OpRow.holds_iff.mpr <| by
    simp only [immOf_requestWord, unitOf_requestWord, opOf_requestWord, himm, hunit, hop, and_self]

theorem OpRow.opOf_eq_of_holds (hmask : opOf mask = BitVec.allOnes 8) (h : OpRow.holds ⟨m, mask, v⟩ w = true) :
    opOf w = opOf v := by
  obtain ⟨-, -, hop⟩ := OpRow.holds_iff.mp h
  rwa [hmask, BitVec.and_allOnes] at hop

/-- An operation's request word is in the operation's own row. -/
theorem row_holds_encode (i : Instr) : ∃ r, opRows[i.row]? = some r ∧ r.holds (encode i) = true := by
  cases i with
  | dcPost | dcStatus | diCheck | reset => exact ⟨_, rfl, OpRow.holds_requestWord rfl rfl rfl⟩
  | qInit u | qSpace u | qAdvHead u | qAdvTail u | qDbell u | cqInit u | cqBind u | cqPend u | cqNext u | qcqDown u
  | aqPostWait u | txXmit u | txPoll u | rxPoll u | qcqFlush u =>
    exact ⟨_, rfl, OpRow.holds_requestWord rfl BitVec.and_zero rfl⟩
  | qHasSpace u n | rxFill u n => exact ⟨_, rfl, OpRow.holds_requestWord BitVec.and_zero BitVec.and_zero rfl⟩
  | dcWait n | dcGo n => exact ⟨_, rfl, OpRow.holds_requestWord BitVec.and_zero rfl rfl⟩
  | nqPoll u p => exact ⟨_, rfl, OpRow.holds_requestWord (by cases p <;> rfl) BitVec.and_zero rfl⟩

theorem encode_of_rowN (j : Instr) (hj : encode j = requestWord (immOf v) (unitOf v) (opOf v))
    (h : OpRow.holds ⟨m, 0xFFFFFFFF, v⟩ w = true) : ∃ i, encode i = w := by
  obtain ⟨himm, hunit, -⟩ := OpRow.holds_iff.mp h
  exact ⟨j, hj.trans (eq_requestWord (BitVec.and_allOnes.symm.trans himm) (BitVec.and_allOnes.symm.trans hunit)
    (OpRow.opOf_eq_of_holds rfl h))⟩

theorem encode_of_rowU (j : UnitId → Instr) (hj : ∀ u, encode (j u) = requestWord (immOf v) u (opOf v))
    (h : OpRow.holds ⟨m, 0xFFFF00FF, v⟩ w = true) : ∃ i, encode i = w := by
  obtain ⟨himm, -, -⟩ := OpRow.holds_iff.mp h
  exact ⟨j (unitOf w), (hj _).trans (eq_requestWord (BitVec.and_allOnes.symm.trans himm) rfl
    (OpRow.opOf_eq_of_holds rfl h))⟩

theorem encode_of_rowUI (j : UnitId → Word16 → Instr) (hj : ∀ u n, encode (j u n) = requestWord n u (opOf v))
    (h : OpRow.holds ⟨m, 0x000000FF, v⟩ w = true) : ∃ i, encode i = w :=
  ⟨j (unitOf w) (immOf w), (hj _ _).trans (eq_requestWord rfl rfl (OpRow.opOf_eq_of_holds rfl h))⟩

theorem encode_of_rowI (j : Word16 → Instr) (hj : ∀ n, encode (j n) = requestWord n (unitOf v) (opOf v))
    (h : OpRow.holds ⟨m, 0x0000FFFF, v⟩ w = true) : ∃ i, encode i = w := by
  obtain ⟨-, hunit, -⟩ := OpRow.holds_iff.mp h
  exact ⟨j (immOf w), (hj _).trans (eq_requestWord rfl (BitVec.and_allOnes.symm.trans hunit)
    (OpRow.opOf_eq_of_holds rfl h))⟩

theorem encode_of_rowNqPoll (h : OpRow.holds ⟨m, 0xFFFE00FF, 0x1C⟩ w = true) : ∃ i, encode i = w := by
  obtain ⟨himm, -, -⟩ := OpRow.holds_iff.mp h
  exact ⟨.nqPoll (unitOf w) ((immOf w).getLsbD 0), eq_requestWord (eq_bit0_of_high_zero (high_zero_of_mask himm)) rfl
    (OpRow.opOf_eq_of_holds rfl h)⟩

end rows

/-- A word in a row is an operation's request word. -/
theorem encode_of_row_holds {w : Word32} : ∀ r ∈ opRows, r.holds w = true → ∃ i, encode i = w := by
  simp only [opRows, List.cons_append, List.nil_append, List.forall_mem_cons]
  exact ⟨encode_of_rowU .qInit fun _ => rfl, encode_of_rowU .qSpace fun _ => rfl,
    encode_of_rowUI .qHasSpace fun _ _ => rfl, encode_of_rowU .qAdvHead fun _ => rfl,
    encode_of_rowU .qAdvTail fun _ => rfl, encode_of_rowU .qDbell fun _ => rfl, encode_of_rowU .cqInit fun _ => rfl,
    encode_of_rowU .cqBind fun _ => rfl, encode_of_rowU .cqPend fun _ => rfl, encode_of_rowU .cqNext fun _ => rfl,
    encode_of_rowU .qcqDown fun _ => rfl, encode_of_rowN .dcPost rfl, encode_of_rowI .dcWait fun _ => rfl,
    encode_of_rowN .dcStatus rfl, encode_of_rowI .dcGo fun _ => rfl, encode_of_rowN .diCheck rfl,
    encode_of_rowU .aqPostWait fun _ => rfl, encode_of_rowNqPoll, encode_of_rowU .txXmit fun _ => rfl,
    encode_of_rowU .txPoll fun _ => rfl, encode_of_rowUI .rxFill fun _ _ => rfl, encode_of_rowU .rxPoll fun _ => rfl,
    encode_of_rowU .qcqFlush fun _ => rfl, encode_of_rowN .reset rfl, fun _ h => absurd h List.not_mem_nil⟩

theorem opRows_op_masked : ∀ r ∈ opRows, opOf r.mask = BitVec.allOnes 8 := by decide

theorem opRows_ops_differ : opRows.Pairwise (fun a b => opOf a.value ≠ opOf b.value) := by decide

/-- An operation code outside the table is reserved (spec/30_encoding.md R105 (a)). -/
theorem decode_of_op_not_in_table {w : Word32} (h : ∀ r ∈ opRows, opOf w ≠ opOf r.value) :
    decode w = .error .reservedOp := by
  have hcode : (opOf w).toNat ∉ opRows.map fun r => (opOf r.value).toNat := by
    rw [List.mem_map]
    rintro ⟨r, hr, heq⟩
    exact h r hr (BitVec.eq_of_toNat_eq heq.symm)
  unfold decode
  split
  case h_25 => rfl
  all_goals
    next hop =>
      rw [hop] at hcode
      exact absurd (by decide) hcode

end Sys2Proof

open Sys2Proof Sys2Proof.Machine

/-- Settles O1, format by format: each field of the request word comes back (`opOf_requestWord` and its like). -/
theorem decodeOfEncode : Obligations.DecodeOfEncode := by
  intro i
  cases i with
  | dcPost | dcStatus | diCheck | reset => simp [encode, decode, formatN]
  | qInit u | qSpace u | qAdvHead u | qAdvTail u | qDbell u | cqInit u | cqBind u | cqPend u | cqNext u | qcqDown u
  | aqPostWait u | txXmit u | txPoll u | rxPoll u | qcqFlush u => simp [encode, decode, formatU]
  | qHasSpace u n | rxFill u n => simp [encode, decode, formatUI]
  | dcWait n | dcGo n => simp [encode, decode, formatI]
  | nqPoll u p => cases p <;> simp [encode, decode, formatNqPoll]

/-- Settles O2: the cases are the arms of the decoder, in its order, each with the format it reads. -/
theorem encodeOfDecode : Obligations.EncodeOfDecode := by
  intro w i h
  unfold decode at h
  split at h
  case h_1 hop | h_2 hop | h_4 hop | h_5 hop | h_6 hop | h_7 hop | h_8 hop | h_9 hop | h_10 hop | h_11 hop | h_17 hop
    | h_19 hop | h_20 hop | h_22 hop | h_23 hop => exact encode_of_formatU hop (fun _ => rfl) h
  case h_3 hop | h_21 hop => exact encode_of_formatUI hop (fun _ _ => rfl) h
  case h_12 hop | h_14 hop | h_16 hop | h_24 hop => exact encode_of_formatN hop rfl h
  case h_13 hop | h_15 hop => exact encode_of_formatI hop (fun _ => rfl) h
  case h_18 hop => exact encode_of_formatNqPoll hop rfl h
  case h_25 => cases h

/-- Settles O3: the words that decode are the request words of operations, and so are the words of the rows; no two rows
share an operation code, which every mask keeps. -/
theorem decoderFollowsTheTable : Obligations.DecoderFollowsTheTable := by
  refine ⟨fun w i h => ?_, fun w r hr hw => ?_, ?_, fun w => decode_of_op_not_in_table⟩
  · rw [← encodeOfDecode w i h]
    exact row_holds_encode i
  · obtain ⟨i, rfl⟩ := encode_of_row_holds r hr hw
    exact ⟨i, decodeOfEncode i⟩
  · refine opRows_ops_differ.imp_of_mem fun {a b} ha hb hne w ⟨hwa, hwb⟩ => hne ?_
    rw [← OpRow.opOf_eq_of_holds (opRows_op_masked a ha) hwa, OpRow.opOf_eq_of_holds (opRows_op_masked b hb) hwb]

/-- Settles O4: the words that decode are what the encoder writes for their operations; the three others are decoded. -/
theorem sampleWordsDecode : Obligations.SampleWordsDecode :=
  ⟨decodeOfEncode (.qInit 1), decodeOfEncode (.qHasSpace 3 65535), decodeOfEncode (.cqPend 2),
    decodeOfEncode (.dcWait 2), decodeOfEncode .dcPost, decodeOfEncode (.aqPostWait 0), decodeOfEncode (.nqPoll 1 true),
    decodeOfEncode (.nqPoll 1 false), decodeOfEncode (.txXmit 2), decodeOfEncode (.rxFill 3 1514),
    decodeOfEncode .reset, by decide, by decide, by decide⟩

end

section
/-! PROOFS (family 30_encoding.md). The units an operation leaves alone (spec/30_encoding.md R102). -/

namespace Sys2Proof.Machine

/-- The registers of unit `v` are those of state `s`. -/
def State.SameUnit (s : State) (v : Nat) (t : State) : Prop := t.units[v]? = s.units[v]?

/-- Replacing a unit's registers, whatever happens to the surroundings, leaves every other unit alone. -/
theorem State.SameUnit.set {s t : State} {u : UnitId} {v : Nat} {un : QcqUnit} (h : u.toNat ≠ v)
    (ht : t.units = s.units.set u.toNat un) : s.SameUnit v t := by
  rw [State.SameUnit, ht, List.getElem?_set_ne h]

/-- An operation on unit `u` leaves the other units alone. -/
theorem exec_unit_sameUnit (s : State) {i : Instr} {u : UnitId} {v : Nat} (hu : i.unit? = some u) (hv : u.toNat ≠ v) :
    EndsIn (s.SameUnit v) (exec i s) := by
  cases i with
  | qInit u =>
    cases hu
    exact .onUnit rfl fun _ _ => .require rfl fun _ => .ite (fun _ => .done (.set hv rfl)) fun _ => .raise rfl
  | qSpace u | qHasSpace u n | qDbell u => exact .onUnit rfl fun _ _ => .require rfl fun _ => .done rfl
  | qAdvHead u | qAdvTail u =>
    cases hu
    exact .onUnit rfl fun _ _ => .require rfl fun _ => .ite (fun _ => .raise rfl) fun _ => .done (.set hv rfl)
  | cqInit u | cqBind u | cqNext u | qcqDown u =>
    cases hu
    exact .onUnit rfl fun _ _ => .require rfl fun _ => .done (.set hv rfl)
  | cqPend u =>
    exact .onUnit rfl fun _ _ => .require rfl fun _ => .requireRing <| .ite (fun _ => .done rfl) fun _ => .done rfl
  | aqPostWait u =>
    cases hu
    exact .onUnit rfl fun _ _ => .require rfl fun _ => .ite (fun _ => .raise rfl) fun _ =>
      .ite (fun _ => .raise rfl) fun _ => .requireRing <| .ite (fun _ => .raise (.set hv rfl)) fun _ =>
        .ite (fun _ => .raise (.set hv rfl)) fun _ => .done (.set hv rfl)
  | nqPoll u p =>
    cases hu
    refine .onUnit rfl fun _ _ => .require rfl fun _ => .requireRing ?_
    split
    · exact .fault _
    · exact .done (.set hv rfl)
  | txXmit u =>
    cases hu
    exact .onUnit rfl fun _ _ => .require rfl fun _ => .ite (fun _ => .raise rfl) fun _ =>
      .requireRing (.done (.set hv rfl))
  | txPoll u | rxPoll u =>
    cases hu
    exact .onUnit rfl fun _ _ => .require rfl fun _ => .requireRing (.endPoll fun _ _ => .set hv rfl)
  | rxFill u mtu =>
    cases hu
    exact .onUnit rfl fun _ _ => .require rfl fun _ => .requireRing (.done (.set hv rfl))
  | qcqFlush u =>
    cases hu
    refine .onUnit rfl fun _ _ => .require rfl fun _ => ?_
    split
    · exact .fault _
    · exact .done (.set hv rfl)
  | _ => cases hu

/-- An operation without a unit, RESET apart, leaves every unit alone. -/
theorem exec_noUnit_sameUnit (s : State) {i : Instr} (v : Nat) (hu : i.unit? = none) (hi : i ≠ .reset) :
    EndsIn (s.SameUnit v) (exec i s) := by
  cases i with
  | dcPost => exact .require rfl fun _ => .done rfl
  | dcWait n => exact .require rfl fun _ => .ite (fun _ => .done rfl) fun _ => .raise rfl
  | dcStatus => exact .require rfl fun _ => .done rfl
  | dcGo n => exact .require rfl fun _ => .raise rfl
  | diCheck => exact .ite (fun _ => .raise rfl) fun _ => .done rfl
  | reset => exact absurd rfl hi
  | _ => cases hu

end Sys2Proof.Machine

open Sys2Proof Sys2Proof.Machine

/-- Settles O11: an operation's only write of the list of units replaces its own. -/
theorem otherUnitsUnchanged : Obligations.OtherUnitsUnchanged := by
  intro i s t hi hexec v hv
  cases hu : i.unit? with
  | some u => exact exec_unit_sameUnit s hu (hv u hu) t hexec
  | none => exact exec_noUnit_sameUnit s v hu hi t hexec

end

section
/-! PROOFS (family 30_encoding.md). The doorbell value field by field (spec/30_encoding.md R110), the bytes of the
descriptors (R121, R123) and the classes of a status byte (R119). -/

namespace Sys2Proof.Machine

/-! ### The doorbell value -/

theorem getLsbD_doorbellPart (v w shift k : Nat) :
    (doorbellPart v w shift).getLsbD k =
      (decide (k < 64) && (decide (shift ≤ k) && (decide (k - shift < w) && v.testBit (k - shift)))) := by
  rw [doorbellPart, BitVec.getLsbD_ofNat, Nat.testBit_mul_two_pow, Nat.testBit_mod_two_pow]

/-- A part of the doorbell value, read back from its own field. -/
theorem extractLsb'_doorbellPart_self {v w shift : Nat} (h : shift + w ≤ 64) :
    (doorbellPart v w shift).extractLsb' shift w = BitVec.ofNat w v := by
  apply BitVec.eq_of_getLsbD_eq
  intro k hk
  simp only [BitVec.getLsbD_extractLsb', getLsbD_doorbellPart, BitVec.getLsbD_ofNat, Nat.add_sub_cancel_left, hk,
    Nat.le_add_right, show shift + k < 64 by omega, decide_true, Bool.true_and]

/-- A part of the doorbell value is 0 in every field apart from its own. -/
theorem extractLsb'_doorbellPart_apart {v w shift lo n : Nat} (h : lo + n ≤ shift ∨ shift + w ≤ lo) :
    (doorbellPart v w shift).extractLsb' lo n = 0#n := by
  apply BitVec.eq_of_getLsbD_eq
  intro k hk
  have hout : ¬ (shift ≤ lo + k ∧ lo + k - shift < w) := by omega
  rw [BitVec.getLsbD_extractLsb', getLsbD_doorbellPart]
  rw [← Bool.and_assoc (decide (shift ≤ lo + k)), ← Bool.decide_and, decide_eq_false hout]
  simp

/-! ### Descriptors -/

@[simp] theorem length_leBytes (n v : Nat) : (leBytes n v).length = n := by
  induction n generalizing v with
  | zero => rfl
  | succ n ih => simp [leBytes, ih]

/-- Bytes placed right after `pre` take the place of as many zero bytes. -/
theorem placeAt_replicate (pre f : List Byte) {n : Nat} (h : f.length ≤ n) :
    placeAt (pre ++ List.replicate n 0) pre.length f = pre ++ f ++ List.replicate (n - f.length) 0 := by
  induction f generalizing pre n with
  | nil => simp [placeAt]
  | cons b f ih =>
    obtain ⟨n, rfl⟩ := Nat.exists_eq_add_of_le' (Nat.one_le_of_lt h)
    have hset : (pre ++ List.replicate (n + 1) 0).set pre.length b = (pre ++ [b]) ++ List.replicate n 0 := by
      simp [List.replicate_succ]
    have hlen : pre.length + 1 = (pre ++ [b]).length := by simp
    rw [placeAt, hset, hlen, ih (pre ++ [b]) (by simpa using h)]
    simp

/-- A field placed from `off`, where the fields `pre` before it end, to `next`. -/
theorem placeAt_field (pre f : List Byte) {off next ds : Nat} (hpre : pre.length = off) (hnext : off + f.length = next)
    (hds : next ≤ ds) :
    placeAt (pre ++ List.replicate (ds - off) 0) off f = pre ++ f ++ List.replicate (ds - next) 0 := by
  subst hpre hnext
  rw [placeAt_replicate pre f (by omega), Nat.sub_sub]

/-! ### Status bytes -/

theorem RcTable.init_ne_zero {t : RcTable} (h : rcOk t = true) : t.init ≠ 0 := by
  simp only [rcOk, Bool.and_eq_true, List.all_eq_true] at h
  simpa using h.1.2 t.init (by simp [rcOthers])


end Sys2Proof.Machine

open Sys2Proof Sys2Proof.Machine

/-- Settles O25: the three parts lie apart, so each field reads its own part, cut to its width, or 0. -/
theorem doorbellValueFields : Obligations.DoorbellValueFields := by
  intro cfg index ring qid hiw hrw hqw his hrs hqs
  simp (disch := decide) only [doorbellValue, hiw, hrw, hqw, his, hrs, hqs, BitVec.extractLsb'_or,
    extractLsb'_doorbellPart_self, extractLsb'_doorbellPart_apart, BitVec.zero_or, BitVec.or_zero]
  refine ⟨?_, rfl, rfl, rfl, rfl⟩
  rw [BitVec.ofNat_toNat, BitVec.setWidth_eq]

/-- Settles O49: each field is placed right where the one before it ends. -/
theorem descriptorLayouts : Obligations.DescriptorLayouts := by
  intro ds addr len flags vlan hds
  have haddr := placeAt_field (off := 0) (ds := ds) [] (leBytes 8 addr.toNat) rfl rfl (by simp; omega)
  have hlen := placeAt_field (off := 8) (ds := ds) (leBytes 8 addr.toNat) (leBytes 2 len.toNat) rfl rfl (by simp; omega)
  have hflags := placeAt_field (off := 10) (ds := ds) (leBytes 8 addr.toNat ++ leBytes 2 len.toNat)
    (leBytes 2 flags.toNat) rfl rfl (by simp; omega)
  have hvlan := placeAt_field (off := 12) (ds := ds)
    (leBytes 8 addr.toNat ++ leBytes 2 len.toNat ++ leBytes 2 flags.toNat) (leBytes 2 vlan.toNat) rfl rfl
    (by simp; omega)
  simp only [length_leBytes, List.nil_append, Nat.sub_zero, Nat.reduceAdd] at haddr hlen hflags hvlan
  simp only [txDesc, rxDesc, haddr, hlen, hflags, hvlan, and_self]

/-- Settles O38: `RC_INIT` is not 0, so the first two classes do not meet. -/
theorem statusClasses : Obligations.StatusClasses := by
  intro cfg b hrc
  have hinit := RcTable.init_ne_zero hrc
  unfold statusClass
  split_ifs with hzero hb
  · subst hzero
    exact ⟨iff_of_true rfl rfl, iff_of_false nofun hinit.symm, iff_of_false nofun fun h => h.1 rfl⟩
  · exact ⟨iff_of_false nofun hzero, iff_of_true rfl hb, iff_of_false nofun fun h => h.2 hb⟩
  · exact ⟨iff_of_false nofun hzero, iff_of_false nofun hb, iff_of_true rfl ⟨hzero, hb⟩⟩

end

section
/-! PROOFS (family 30_encoding.md). What the accesses of RX.FILL leave in the record and take of the answers made ready,
whatever the device does meanwhile (spec/45_txrx.md R240; notes/assumptions/10.md). -/

namespace Sys2Proof.Machine

/-! ### Accesses -/

theorem Sys.devAct_bufAnswers (cfg : Config) (y : Sys) (a : DevAct) : (y.devAct cfg a).bufAnswers = y.bufAnswers := by
  cases a with
  | learn c u => rw [Sys.devAct, Sys.devLearn_eq]
  | fetch u => simp only [Sys.devAct, Sys.devFetch]; split <;> (try split) <;> rfl
  | compByte u k b => simp only [Sys.devAct, Sys.devCompByte]; split <;> (try split) <;> (try split) <;> rfl
  | compColor u low => simp only [Sys.devAct, Sys.devCompColor]; split <;> (try split) <;> (try split) <;> rfl
  | dcCmd i => simp only [Sys.devAct, Sys.devDcCmd]; split <;> (try split) <;> rfl
  | dcComp i k b => simp only [Sys.devAct, Sys.devDcComp]; split <;> (try split) <;> rfl
  | dcData i k b => simp only [Sys.devAct, Sys.devDcData]; split <;> (try split) <;> rfl
  | dcDone i => simp only [Sys.devAct, Sys.devDcDone]; split <;> (try split) <;> rfl

theorem Sys.envAct_bufAnswers (cfg : Config) (y : Sys) (a : EnvAct) : (y.envAct cfg a).bufAnswers = y.bufAnswers := by
  cases a with
  | device a => exact Sys.devAct_bufAnswers cfg y a
  | fwRunning b => rfl
  | requestWhileBusy w => rfl
  | doneHighBits v => rfl

/-- The surroundings call no BufAlloc: a turn takes no answer. -/
theorem Sys.turn_bufAnswers (cfg : Config) (y : Sys) : (y.turn cfg).2.bufAnswers = y.bufAnswers := by
  have hacts : ∀ (acts : List EnvAct) (z : Sys),
      (acts.foldl (fun z a => z.envAct cfg a) z).bufAnswers = z.bufAnswers := by
    intro acts
    induction acts with
    | nil => exact fun _ => rfl
    | cons a acts ih => exact fun z => (ih _).trans (Sys.envAct_bufAnswers cfg z a)
  unfold Sys.turn
  split
  · rfl
  · exact hacts _ _

theorem Sys.writeBytes_ports (cfg : Config) (addr : Nat) (bs : List Byte) (f : Nat) (rem : List Nat) (y : Sys) :
    (y.writeBytes cfg addr bs f rem).trace = y.trace ∧ (y.writeBytes cfg addr bs f rem).bufAnswers = y.bufAnswers := by
  induction f generalizing rem y with
  | zero => exact ⟨rfl, rfl⟩
  | succ f ih =>
    obtain ⟨htrace, hanswers⟩ := ih _ _
    exact ⟨htrace.trans (Sys.turn_sched cfg y).2, hanswers.trans (Sys.turn_bufAnswers cfg y)⟩

@[simp] theorem Sys.memWrite_trace (cfg : Config) (addr : Nat) (bs : List Byte) (y : Sys) :
    (y.memWrite cfg addr bs).trace = .memWrite addr bs :: y.trace := by
  unfold Sys.memWrite
  split
  · exact congrArg (_ :: ·) (Sys.turn_sched cfg y).2
  · exact congrArg (_ :: ·) (Sys.writeBytes_ports cfg addr bs _ _ y).1

@[simp] theorem Sys.memWrite_bufAnswers (cfg : Config) (addr : Nat) (bs : List Byte) (y : Sys) :
    (y.memWrite cfg addr bs).bufAnswers = y.bufAnswers := by
  unfold Sys.memWrite
  split
  · exact Sys.turn_bufAnswers cfg y
  · exact (Sys.writeBytes_ports cfg addr bs _ _ y).2

/-- The doorbell is a write barrier, then the write (spec/40_queue.md R150). -/
@[simp] theorem QcqUnit.ring_trace (cfg : Config) (un : QcqUnit) (y : Sys) :
    (un.ring cfg y).trace = .regWrite un.conf.dbAddr.toNat (leBytes 8 (un.doorbell cfg).toNat) :: .wmb :: y.trace :=
  congrArg (_ :: ·) (Sys.turn_sched cfg y.wmb).2

@[simp] theorem QcqUnit.ring_bufAnswers (cfg : Config) (un : QcqUnit) (y : Sys) :
    (un.ring cfg y).bufAnswers = y.bufAnswers :=
  Sys.turn_bufAnswers cfg y.wmb

@[simp] theorem Sys.bufAlloc_trace (len : Nat) (y : Sys) :
    (y.bufAlloc len).2.trace = .bufAlloc len (y.bufAlloc len).1 :: y.trace := by
  unfold Sys.bufAlloc
  split <;> rfl

/-- An answer made ready comes first. -/
theorem Sys.bufAlloc_of_answers {y : Sys} {a : Option Handle} {rest : List (Option Handle)} (len : Nat)
    (h : y.bufAnswers = a :: rest) : (y.bufAlloc len).1 = a ∧ (y.bufAlloc len).2.bufAnswers = rest := by
  simp [Sys.bufAlloc, h]

end Sys2Proof.Machine
end

section
/-! PROOFS (family 30_encoding.md). Owning slots from the head on, one for each handle (spec/40_queue.md R154,
spec/45_txrx.md R240). -/

namespace Sys2Proof.Machine.QcqUnit

/-- The unit after the handles have been posted, in order. -/
def ownAll (un : QcqUnit) (hs : List Handle) : QcqUnit := hs.foldl own un

/-- Posting writes the head and the side table. -/
theorem ownAll_eq (un : QcqUnit) (hs : List Handle) :
    un.ownAll hs = { un with q := { un.q with head := un.headAfter hs.length }, side := (un.ownAll hs).side } := by
  induction hs generalizing un with
  | nil => rfl
  | cons b hs ih => exact ih (un.own b)

/-- Two bytes of different slots have different addresses. -/
theorem qSlot_add_ne {un : QcqUnit} {i i' : Word16} {j j' : Nat} (hi : i.toNat ≠ i'.toNat)
    (hj : j < un.q.descSize.toNat) (hj' : j' < un.q.descSize.toNat) : un.qSlot i + j ≠ un.qSlot i' + j' := by
  intro heq
  have hslot : ∀ (i : Word16) (j : Nat), j < un.q.descSize.toNat →
      (un.qSlot i + j - un.conf.qBase.toNat) / un.q.descSize.toNat = i.toNat := by
    intro i j hj
    rw [qSlot, slotAddr, Nat.add_assoc, Nat.add_sub_cancel_left, Nat.add_comm, Nat.add_mul_div_right _ _ (by omega),
      Nat.div_eq_of_lt hj, Nat.zero_add]
  exact hi ((hslot i j hj).symm.trans (heq ▸ hslot i' j' hj'))

section inOrder

variable {un : QcqUnit} (hh : un.q.head.toNat < un.cap) (hcap : un.cap ≤ 65536)
include hh hcap

theorem toNat_headAfter (k : Nat) : (un.headAfter k).toNat = (un.q.head.toNat + k) % un.cap := by
  have hlt : (un.q.head.toNat + k) % un.cap < un.cap := Nat.mod_lt _ (by omega)
  rw [headAfter_eq hh hcap, BitVec.toNat_ofNat, Nat.mod_eq_of_lt (by omega)]

/-- The head comes back to a slot only after a whole revolution. -/
theorem toNat_headAfter_ne {k : Nat} (hk : k + 1 < un.cap) : (un.headAfter (k + 1)).toNat ≠ un.q.head.toNat := by
  rw [toNat_headAfter hh hcap]
  intro heq
  have hmod : un.q.head.toNat + (k + 1) ≡ un.q.head.toNat + 0 [MOD un.cap] := heq.trans (Nat.mod_eq_of_lt hh).symm
  have hdvd := (Nat.modEq_zero_iff_dvd).mp hmod.add_left_cancel'
  exact absurd (Nat.le_of_dvd (by omega) hdvd) (by omega)

omit hh hcap in
theorem ownAll_side_other {hs : List Handle} {j : Nat} (hj : ∀ k < hs.length, j ≠ (un.headAfter k).toNat) :
    (un.ownAll hs).side.get j = un.side.get j := by
  induction hs generalizing un with
  | nil => rfl
  | cons b hs ih =>
    have hrest := ih (un := un.own b) fun k hk => hj (k + 1) (by simpa using hk)
    exact hrest.trans (SideTable.get_set_other _ _ (hj 0 (by simp)))

theorem ownAll_side {hs : List Handle} (hwf : un.side.wf = true) (hlen : hs.length ≤ un.cap) {k : Nat}
    (hk : k < hs.length) : (un.ownAll hs).side.get (un.headAfter k).toNat = ⟨true, hs[k]⟩ := by
  induction hs generalizing un k with
  | nil => cases hk
  | cons b hs ih =>
    simp only [List.length_cons] at hlen hk
    cases k with
    | zero =>
      have hrest : ∀ k < hs.length, un.q.head.toNat ≠ ((un.own b).headAfter k).toNat :=
        fun k hk => (toNat_headAfter_ne hh hcap (by omega)).symm
      exact (ownAll_side_other hrest).trans (SideTable.get_set_self _ _ hwf)
    | succ k =>
      exact ih (un := un.own b) (nextIndex_lt hh hcap) hcap (SideTable.set_wf _ _ hwf) (by simp; omega) (by omega)

end inOrder

end Sys2Proof.Machine.QcqUnit
end

section
/-! PROOFS (family 30_encoding.md). The loop of RX.FILL by the buffers it is given (spec/45_txrx.md R240). -/

namespace Sys2Proof.Machine

/-! ### One round -/

theorem Carry.fill_sys (cfg : Config) (mtu : Word16) (b : Handle) (c : Carry) :
    (c.fill cfg mtu b).sys = (c.sys.bufAlloc mtu.toNat).2.memWrite cfg (c.un.qSlot c.un.q.head)
      (rxDesc cfg.rxDesc c.un.q.descSize.toNat b mtu) := by
  rw [Carry.fill]

/-- One round under a silent device: the descriptor of its buffer stands in the slot at the head. -/
theorem Carry.fill_descriptor (cfg : Config) (mtu : Word16) (b : Handle) {c : Carry} (hquiet : c.sys.Quiet)
    (hmem : c.sys.MemOk) :
    (c.fill cfg mtu b).sys.Quiet ∧ (c.fill cfg mtu b).sys.MemOk ∧
    ∀ j < c.un.q.descSize.toNat, (c.fill cfg mtu b).sys.mem.get (c.un.qSlot c.un.q.head + j) =
      (rxDesc cfg.rxDesc c.un.q.descSize.toNat b mtu).getD j 0 := by
  have hc : c.sys.Holds (fun _ => True) (fun _ => True) := ⟨hquiet, trivial, trivial⟩
  obtain ⟨hquiet₁, -, -⟩ := hc.bufAlloc mtu.toNat
  rw [Carry.fill_sys]
  obtain ⟨hquiet₂, -, -, hwritten, -⟩ := hquiet₁.memWrite (cfg := cfg) (addr := c.un.qSlot c.un.q.head)
    (bs := rxDesc cfg.rxDesc c.un.q.descSize.toNat b mtu) hmem.bufAlloc
  exact ⟨hquiet₂, hmem.bufAlloc.memWrite, by simpa using hwritten⟩

theorem Carry.fill_trace (cfg : Config) (mtu : Word16) (b : Handle) (c : Carry) :
    (c.fill cfg mtu b).sys.trace =
      .memWrite (c.un.qSlot c.un.q.head) (rxDesc cfg.rxDesc c.un.q.descSize.toNat b mtu) ::
        .bufAlloc mtu.toNat (c.sys.bufAlloc mtu.toNat).1 :: c.sys.trace := by
  simp [Carry.fill]

/-! ### The whole loop -/

/-- RX.FILL's loop, started from `c` for `n` slots, is given the buffers `hs` and ends in `c'`. -/
inductive Fills (cfg : Config) (mtu : Word16) : Nat → Carry → List Handle → Carry → Prop
  | full (c : Carry) : Fills cfg mtu 0 c [] c
  | empty {n : Nat} {c : Carry} (halloc : (c.sys.bufAlloc mtu.toNat).1 = none) :
      Fills cfg mtu (n + 1) c [] { c with sys := (c.sys.bufAlloc mtu.toNat).2 }
  | fill {n : Nat} {c c' : Carry} {b : Handle} {hs : List Handle} (halloc : (c.sys.bufAlloc mtu.toNat).1 = some b)
      (hrest : Fills cfg mtu n (c.fill cfg mtu b) hs c') : Fills cfg mtu (n + 1) c (b :: hs) c'

theorem exists_fills (cfg : Config) (mtu : Word16) (n : Nat) (c : Carry) :
    ∃ hs, Fills cfg mtu n c hs (fillLoop cfg mtu n c) := by
  induction n generalizing c with
  | zero => exact ⟨[], .full c⟩
  | succ n ih =>
    rw [fillLoop]
    split
    · next halloc => exact ⟨[], .empty halloc⟩
    · next b halloc =>
      obtain ⟨hs, hrest⟩ := ih (c.fill cfg mtu b)
      exact ⟨b :: hs, .fill halloc hrest⟩

namespace Fills

variable {cfg : Config} {mtu : Word16} {n : Nat} {c c' : Carry} {hs : List Handle} (h : Fills cfg mtu n c hs c')
include h

theorem eq_fillLoop : c' = fillLoop cfg mtu n c := by
  induction h with
  | full c => rfl
  | empty halloc => simp only [fillLoop, halloc]
  | fill halloc _ ih =>
    rw [fillLoop, halloc]
    exact ih

theorem length_le : hs.length ≤ n := by
  induction h with
  | full c => exact le_rfl
  | empty _ => exact Nat.zero_le _
  | fill _ _ ih => exact Nat.succ_le_succ ih

theorem count_eq : c'.count = c.count + hs.length := by
  induction h with
  | full c => rfl
  | empty _ => rfl
  | fill _ _ ih => rw [ih, List.length_cons, Carry.fill, Nat.add_assoc, Nat.add_comm 1]

theorem un_eq : c'.un = c.un.ownAll hs := by
  induction h with
  | full c => rfl
  | empty _ => rfl
  | fill _ _ ih => exact ih

/-! ### The record -/

theorem allocs : c'.sys.trace.filter PortEvent.isAlloc =
    (if hs.length < n then [.bufAlloc mtu.toNat none] else []) ++
      (hs.map fun b => PortEvent.bufAlloc mtu.toNat (some b)).reverse ++ c.sys.trace.filter PortEvent.isAlloc := by
  induction h with
  | full c => simp
  | empty halloc => simp [halloc, List.filter_cons, PortEvent.isAlloc]
  | fill halloc _ ih => simp [ih, Carry.fill_trace, halloc, List.filter_cons, PortEvent.isAlloc]

theorem doorbells (a : Nat) : c'.sys.count (PortEvent.isDoorbell a) = c.sys.count (PortEvent.isDoorbell a) := by
  induction h with
  | full c => rfl
  | empty _ => simp [Sys.count, PortEvent.isDoorbell]
  | fill _ _ ih => exact ih.trans (by simp [Sys.count, Carry.fill_trace, PortEvent.isDoorbell])

/-! ### The answers made ready -/

/-- The loop takes the buffers made ready first, and goes on behind them. -/
theorem answers {gs : List Handle} {ans : List (Option Handle)} (hgs : gs.length ≤ n)
    (hans : c.sys.bufAnswers = gs.map some ++ ans) :
    ∃ hs' c₁, hs = gs ++ hs' ∧ Fills cfg mtu (n - gs.length) c₁ hs' c' ∧ c₁.sys.bufAnswers = ans := by
  induction gs generalizing n c hs with
  | nil => exact ⟨hs, c, rfl, h, hans⟩
  | cons g gs ih =>
    obtain ⟨hfirst, hrest⟩ := Sys.bufAlloc_of_answers mtu.toNat hans
    cases h with
    | full => cases hgs
    | empty halloc => cases halloc.symm.trans hfirst
    | fill halloc h =>
      cases halloc.symm.trans hfirst
      obtain ⟨hs', c₁, rfl, h₁, hans₁⟩ := ih h (by simpa using hgs) (by simpa [Carry.fill] using hrest)
      exact ⟨hs', c₁, rfl, by simpa using h₁, hans₁⟩

theorem answers_full {gs : List Handle} {rest : List (Option Handle)} (hgs : gs.length = n)
    (hans : c.sys.bufAnswers = gs.map some ++ rest) : hs = gs ∧ c'.sys.bufAnswers = rest := by
  obtain ⟨hs', c₁, rfl, h₁, hans₁⟩ := h.answers hgs.le hans
  rw [hgs, Nat.sub_self] at h₁
  cases h₁
  exact ⟨List.append_nil gs, hans₁⟩

theorem answers_empty {gs : List Handle} {rest : List (Option Handle)} (hgs : gs.length < n)
    (hans : c.sys.bufAnswers = gs.map some ++ none :: rest) : hs = gs ∧ c'.sys.bufAnswers = rest := by
  obtain ⟨hs', c₁, rfl, h₁, hans₁⟩ := h.answers hgs.le hans
  obtain ⟨hfirst, hrest⟩ := Sys.bufAlloc_of_answers mtu.toNat hans₁
  obtain ⟨m, hm⟩ := Nat.exists_eq_succ_of_ne_zero (Nat.sub_ne_zero_of_lt hgs)
  rw [hm] at h₁
  cases h₁ with
  | empty _ => exact ⟨List.append_nil gs, hrest⟩
  | fill halloc _ => cases halloc.symm.trans hfirst

/-! ### Ring memory under a silent device -/

/-- What no write into the slots it fills breaks, the loop keeps. -/
theorem holds {p q : Memory → Prop} (hc : c.sys.Holds p q) (hp : c.un.SlotsKept p hs.length) : c'.sys.Holds p q := by
  have hcount : (fillLoop cfg mtu n c).count - c.count = hs.length := by
    rw [← h.eq_fillLoop, h.count_eq, Nat.add_sub_cancel_left]
  rw [h.eq_fillLoop]
  exact hc.fillLoop (by rwa [hcount])

/-- The descriptor of each buffer stands in its slot at the end of the loop. -/
theorem descriptor (hquiet : c.sys.Quiet) (hmem : c.sys.MemOk) (hh : c.un.q.head.toNat < c.un.cap)
    (hcap : c.un.cap ≤ 65536) (hlen : hs.length ≤ c.un.cap) {k j : Nat} (hk : k < hs.length)
    (hj : j < c.un.q.descSize.toNat) :
    c'.sys.Holds (fun m => m.get (c.un.qSlot (c.un.headAfter k) + j) =
      (rxDesc cfg.rxDesc c.un.q.descSize.toNat hs[k] mtu).getD j 0) fun _ => True := by
  induction h generalizing k with
  | full c => cases hk
  | empty _ => cases hk
  | @fill n c c' b hs _ hrest ih =>
    simp only [List.length_cons] at hk
    have hle : hs.length + 1 ≤ c.un.cap := hlen
    obtain ⟨hquiet₁, hmem₁, hwritten⟩ := Carry.fill_descriptor cfg mtu b hquiet hmem
    cases k with
    | zero =>
      refine hrest.holds ⟨hquiet₁, hwritten j hj, trivial⟩ fun k hk j' hj' => Memory.keptAt_get _ ?_
      exact QcqUnit.qSlot_add_ne (QcqUnit.toNat_headAfter_ne hh hcap (by omega)).symm hj hj'
    | succ k =>
      exact ih hquiet₁ hmem₁ (nextIndex_lt hh hcap) hcap (Nat.le_of_succ_le hle) (Nat.lt_of_succ_lt_succ hk) hj

end Fills

/-! ### The doorbell at the end -/

/-- The surroundings after RX.FILL's doorbell, rung if anything was posted. -/
def Carry.announce (cfg : Config) (c : Carry) : Sys := if 0 < c.count then c.un.ring cfg c.sys else c.sys

theorem Carry.announce_trace (cfg : Config) (c : Carry) :
    (c.announce cfg).trace =
      (if 0 < c.count then
        [.regWrite c.un.conf.dbAddr.toNat (leBytes 8 (c.un.doorbell cfg).toNat), .wmb] else []) ++ c.sys.trace := by
  unfold Carry.announce
  split <;> simp

theorem Carry.announce_bufAnswers (cfg : Config) (c : Carry) : (c.announce cfg).bufAnswers = c.sys.bufAnswers := by
  unfold Carry.announce
  split <;> simp

theorem Carry.announce_allocs (cfg : Config) (c : Carry) :
    (c.announce cfg).trace.filter PortEvent.isAlloc = c.sys.trace.filter PortEvent.isAlloc := by
  rw [Carry.announce_trace]
  split <;> simp [PortEvent.isAlloc]

theorem Carry.announce_doorbells (cfg : Config) (c : Carry) (a : Nat) :
    (c.announce cfg).count (PortEvent.isDoorbell a) =
      c.sys.count (PortEvent.isDoorbell a) + if 0 < c.count ∧ a = c.un.conf.dbAddr.toNat then 1 else 0 := by
  rw [Sys.count, Carry.announce_trace]
  by_cases hc : 0 < c.count
  · simp [hc, Sys.count, PortEvent.isDoorbell, List.countP_cons, eq_comm (a := a), Nat.add_comm]
  · simp [hc, Sys.count]

theorem Sys.Holds.announce {p : Memory → Prop} {cfg : Config} {c : Carry} (h : c.sys.Holds p fun _ => True) :
    (c.announce cfg).Holds p fun _ => True := by
  unfold Carry.announce
  split
  · exact h.ring fun k _ => Memory.keptAt_true _
  · exact h

theorem exec_rxFill {u : UnitId} {mtu : Word16} {s : State} {un : QcqUnit} (hun : ActsOn (.rxFill u mtu) u s un)
    (hready : un.rxReady s.cfg = true) (hfits : un.qFits s.cfg = true) {c : Carry}
    (hc : c = fillLoop s.cfg mtu un.space ⟨un, 0, s.sys⟩) :
    exec (.rxFill u mtu) s =
      .next { s with
        units := s.units.set u.toNat c.un, sys := c.announce s.cfg, r0 := 0, r1 := BitVec.ofNat 64 c.count
        busy := false } := by
  subst hc
  show execRxFill u mtu s = _
  rw [execRxFill, State.onUnit_of_actsOn hun, hready, State.require_true, hfits, requireRing_true]
  rfl

end Sys2Proof.Machine

open Sys2Proof Sys2Proof.Machine

/-- Settles O53: every part is a fact about the run of the loop (`Fills`) or about the doorbell at its end. -/
theorem receiveFill : Obligations.ReceiveFill := by
  intro u mtu s un hun hready hfits hinv hcapMax
  obtain ⟨hq, -, hwf⟩ := hinv
  obtain ⟨-, -, hmax, hhead, -⟩ := hq (QcqUnit.valid_of_rxReady hready)
  have hcap : un.cap ≤ 65536 := hmax.trans hcapMax
  obtain ⟨hs, hrun⟩ := exists_fills s.cfg mtu un.space ⟨un, 0, s.sys⟩
  have hexec := exec_rxFill hun hready hfits rfl
  generalize fillLoop s.cfg mtu un.space ⟨un, 0, s.sys⟩ = c at hrun hexec
  have hcount : c.count = hs.length := hrun.count_eq.trans (Nat.zero_add _)
  have hlen : hs.length ≤ un.cap := by
    have := hrun.length_le
    simp only [QcqUnit.space] at this
    omega
  have hc : c.un = un.ownAll hs := hrun.un_eq
  have hconf : c.un.conf = un.conf := by rw [hc, QcqUnit.ownAll_eq]
  have hslot := QcqUnit.toNat_headAfter hhead hcap
  rw [hcount] at hexec
  refine ⟨hs, c.un, c.announce s.cfg, hexec, hrun.length_le, ?_, ?_, ?_, hconf, ?_, fun j hj => ?_, fun k hk => ?_,
    fun a => ?_, fun hpos => ⟨c.sys.trace, ?_⟩, fun hquiet hmem k hk j hj => ?_, fun gs rest hgs hans => ?_,
    fun gs rest hgs hans => ?_⟩
  · rw [Carry.announce_allocs]
    exact hrun.allocs
  · rw [hc, QcqUnit.ownAll_eq, ← QcqUnit.headAfter_eq hhead hcap]
  · rw [hc, QcqUnit.ownAll_eq]
  · rw [hc, QcqUnit.ownAll_eq]
  · rw [hc]
    refine QcqUnit.ownAll_side_other fun k hk heq => hj ?_
    exact List.mem_map.mpr ⟨k, List.mem_range.mpr hk, (heq.trans (hslot k)).symm⟩
  · rw [hc, ← hslot k]
    exact QcqUnit.ownAll_side hhead hcap hwf hlen hk
  · rw [Carry.announce_doorbells, hrun.doorbells, hcount, hconf]
  · rw [Carry.announce_trace, hcount, if_pos hpos, hconf, QcqUnit.doorbell, hconf]
    rfl
  · rw [← QcqUnit.headAfter_eq hhead hcap]
    exact (hrun.descriptor hquiet hmem hhead hcap hlen hk hj).announce.2.1
  · rw [Carry.announce_bufAnswers]
    exact hrun.answers_full hgs hans
  · rw [Carry.announce_bufAnswers]
    exact hrun.answers_empty hgs hans

end

section
/-! PROOFS (family 40_queue.md). Legal capacities (spec/40_queue.md R141), the laws of index arithmetic (R153), and what
each descriptor-ring operation answers once its unit exists and its precondition holds (R141 to R150). -/

namespace Sys2Proof.Machine

/-! ### Capacities -/

theorem isPow2_iff {x : Nat} : isPow2 x = true ↔ ∃ k, x = 2 ^ k := by
  rw [← Nat.isPowerOfTwo, ← Nat.ne_zero_and_sub_one_eq_zero_iff_isPowerOfTwo]
  simp [isPow2, Nat.one_le_iff_ne_zero]

theorem legalCapacity_iff {cfg : Config} {a : Word64} :
    legalCapacity cfg a = true ↔ (∃ k, a.toNat = 2 ^ k) ∧ cfg.capMin ≤ a.toNat ∧ a.toNat ≤ cfg.capMax := by
  simp only [legalCapacity, Bool.and_eq_true, decide_eq_true_eq, isPow2_iff, and_assoc]

/-- The capacity register has room for every capacity up to 65536 (spec/10_state.md R30). -/
theorem QcqUnit.cap_initQueue (un : QcqUnit) {a0 : Word64} (a1 a2 : Word64) (h : a0.toNat ≤ 65536) :
    (un.initQueue a0 a1 a2).cap = a0.toNat := by
  show (a0.extractLsb' 0 17).toNat = a0.toNat
  rw [BitVec.extractLsb'_toNat, Nat.shiftRight_zero, Nat.mod_eq_of_lt (by omega)]

theorem QcqUnit.inFlight_initQueue (un : QcqUnit) (a0 a1 a2 : Word64) : (un.initQueue a0 a1 a2).inFlight = 0 := by
  simp [inFlight, initQueue, modNat]

/-! ### Index arithmetic -/

theorem nextIndex_toNat_mod {C : Nat} (i : Word16) (h0 : 0 < C) (hC : C ≤ 65536) :
    (nextIndex i C).toNat = (i.toNat + 1) % C := by
  rw [nextIndex, BitVec.toNat_ofNat, Nat.mod_eq_of_lt ((Nat.mod_lt _ h0).trans_le hC)]

/-- For a power of two, `next` is also the increment under the mask `C - 1` (R153). -/
theorem nextIndex_toNat_mask {C : Nat} (i : Word16) (hC : C ≤ 65536) (hpow : isPow2 C = true) :
    (nextIndex i C).toNat = (i.toNat + 1) &&& (C - 1) := by
  obtain ⟨k, rfl⟩ := isPow2_iff.mp hpow
  rw [Nat.and_two_pow_sub_one_eq_mod, nextIndex_toNat_mod i k.two_pow_pos hC]

/-- The number in flight is what `f` names, whatever the capacity and the indices are. -/
theorem QcqUnit.inFlight_eq_of_emod {un : QcqUnit} {f : Nat}
    (hf : (f : Int) = ((un.q.head.toNat : Int) - un.q.tail.toNat) % un.q.capacity.toNat) : un.inFlight = f := by
  rw [inFlight, cap, modNat, ← hf, Int.toNat_natCast]

theorem QcqUnit.space_add_inFlight {un : QcqUnit} (h : 0 < un.cap) : un.space + un.inFlight = un.cap - 1 := by
  have := inFlight_lt h
  rw [space]
  omega

namespace QcqUnit

variable {un : QcqUnit} (hhead : un.q.head.toNat < un.cap) (htail : un.q.tail.toNat < un.cap)
include hhead htail

/-- At capacity 65536 the indices wrap as 16-bit words do (R153). -/
theorem inFlight_eq_sub (h : un.cap = 65536) : un.inFlight = (un.q.head - un.q.tail).toNat := by
  rw [inFlight_eq hhead htail, BitVec.toNat_sub]
  split <;> omega

variable (hcap : un.cap ≤ 65536)
include hcap

/-- With a slot free the head does not catch up with the tail. -/
theorem inFlight_advHead (hs : 0 < un.space) : un.advHead.inFlight = un.inFlight + 1 := by
  have hold := inFlight_eq hhead htail
  have hnew := inFlight_eq (un := un.advHead) (nextIndex_lt hhead hcap) htail
  simp only [advHead_q, cap_advHead, nextIndex_toNat hhead hcap] at hnew
  rw [space] at hs
  split_ifs at hold hnew <;> omega

/-- With a slot in flight the tail does not overtake the head. -/
theorem inFlight_advTail (hf : 0 < un.inFlight) : un.advTail.inFlight + 1 = un.inFlight := by
  have hold := inFlight_eq hhead htail
  have hnew := inFlight_eq (un := un.advTail) hhead (nextIndex_lt htail hcap)
  simp only [advTail_q, cap_advTail, nextIndex_toNat htail hcap] at hnew
  split_ifs at hold hnew <;> omega

theorem space_advHead (hs : 0 < un.space) : un.advHead.space + 1 = un.space := by
  have hflight := inFlight_advHead hhead htail hcap hs
  simp only [space, cap_advHead] at hs ⊢
  omega

theorem space_advTail (hf : 0 < un.inFlight) : un.advTail.space = un.space + 1 := by
  have hflight := inFlight_advTail hhead htail hcap hf
  have hlt : un.inFlight < un.cap := inFlight_lt (by omega)
  simp only [space, cap_advTail]
  omega

end QcqUnit

/-! ### The doorbell -/

/-- The doorbell under a silent device: the mailbox, and nothing else of the two stores, is written. -/
theorem Sys.Quiet.ring {y : Sys} (h : y.Quiet) (cfg : Config) (un : QcqUnit) :
    (un.ring cfg y).mem = y.mem ∧
    (un.ring cfg y).reg = y.reg.write un.conf.dbAddr.toNat (leBytes 8 (un.doorbell cfg).toNat) := by
  obtain ⟨-, hmem, hreg, -, -⟩ := (h.record .wmb).regWrite (cfg := cfg) (addr := un.conf.dbAddr.toNat)
    (bs := leBytes 8 (un.doorbell cfg).toNat)
  exact ⟨hmem, hreg⟩

/-! ### The operations -/

/-- An operation whose unit exists, has the right role and meets the precondition runs its body. -/
theorem State.onUnit_require {i : Instr} {u : UnitId} {s : State} {un : QcqUnit} (hun : ActsOn i u s un)
    {p : QcqUnit → Bool} (hp : p un = true) (k : QcqUnit → Result) :
    s.onUnit i u (fun un => s.require (p un) (k un)) = k un := by
  rw [State.onUnit_of_actsOn hun, hp, State.require_true]

section
variable {u : UnitId} {s : State} {un : QcqUnit}

theorem exec_qInit (hun : ActsOn (.qInit u) u s un) (hv : un.q.valid = false) :
    exec (.qInit u) s =
      if legalCapacity s.cfg s.a0 then (s.setUnit u (un.initQueue s.a0 s.a1 s.a2)).done 0
      else s.raise .invalidArgument s.a0 :=
  State.onUnit_require hun (p := fun un => !un.q.valid) (by rw [hv]; rfl) _

variable (hun : s.units[u.toNat]? = some un) (hv : un.q.valid = true)
include hun hv

theorem exec_qSpace : exec (.qSpace u) s = s.done (BitVec.ofNat 64 un.space) :=
  State.onUnit_require ⟨hun, rfl⟩ hv _

theorem exec_qHasSpace (n : Word16) : exec (.qHasSpace u n) s = s.done (if n.toNat ≤ un.space then 1 else 0) :=
  State.onUnit_require ⟨hun, rfl⟩ hv _

theorem exec_qAdvHead :
    exec (.qAdvHead u) s =
      if un.space = 0 then s.raise .noSpace 0 else (s.setUnit u un.advHead).done (un.advHead.q.head.zeroExtend 64) :=
  State.onUnit_require ⟨hun, rfl⟩ hv _

theorem exec_qAdvTail :
    exec (.qAdvTail u) s =
      if un.inFlight = 0 then s.raise .badState 0 else (s.setUnit u un.advTail).done (un.q.tail.zeroExtend 64) :=
  State.onUnit_require ⟨hun, rfl⟩ hv _

theorem exec_qDbell : exec (.qDbell u) s = (s.withSys (un.ring s.cfg s.sys)).done 0 :=
  State.onUnit_require ⟨hun, rfl⟩ hv _

end

end Sys2Proof.Machine

open Sys2Proof Sys2Proof.Machine

/-- Settles O18: a legal capacity fits the capacity register, and equal indices leave nothing in flight. -/
theorem qInitInstallsTheQueue : Obligations.QInitInstallsTheQueue := by
  intro u s un hun hv hlegal hcapMax hwf
  obtain ⟨⟨k, hpow⟩, -, hmax⟩ := legalCapacity_iff.mp hlegal
  have hcap := un.cap_initQueue s.a1 s.a2 (hmax.trans hcapMax)
  have hside := SideTable.get_invalidateBelow s.a0.toNat hwf
  have hexec : exec (.qInit u) s = (s.setUnit u (un.initQueue s.a0 s.a1 s.a2)).done 0 := by
    rw [exec_qInit hun hv, if_pos hlegal]
  refine ⟨un.initQueue s.a0 s.a1 s.a2, hexec, rfl, rfl, rfl, rfl, hcap, rfl, rfl, rfl, rfl, ?_, fun i hi => ?_,
    fun i hi => ?_, fun i => ?_⟩
  · have hpos : 0 < s.a0.toNat := hpow ▸ k.two_pow_pos
    rw [QcqUnit.space, hcap, QcqUnit.inFlight_initQueue]
    omega
  · exact (congrArg SideEntry.valid (hside i)).trans (by rw [if_pos hi])
  · exact (hside i).trans (if_neg hi.not_gt)
  · exact (congrArg SideEntry.handle (hside i)).trans (by split <;> rfl)

/-- Settles O19: the powers of two between `2 ^ 2` and `2 ^ 16` are those with an exponent between 2 and 16. -/
theorem qInitRejectsOtherCapacities : Obligations.QInitRejectsOtherCapacities := by
  refine ⟨fun u s un hun hv hillegal => ?_, fun cfg a hmin hmax => ?_⟩
  · rw [exec_qInit hun hv, hillegal]
    rfl
  · have hleast : ∀ k, 4 ≤ 2 ^ k ↔ 2 ≤ k := fun k => Nat.pow_le_pow_iff_right (n := 2) Nat.one_lt_two
    have hmost : ∀ k, 2 ^ k ≤ 65536 ↔ k ≤ 16 := fun k => Nat.pow_le_pow_iff_right (m := 16) Nat.one_lt_two
    rw [legalCapacity_iff, hmin, hmax]
    constructor
    · rintro ⟨⟨k, hk⟩, hge, hle⟩
      rw [hk] at hge hle
      exact ⟨k, (hleast k).mp hge, (hmost k).mp hle, hk⟩
    · rintro ⟨k, hge, hle, hk⟩
      rw [hk]
      exact ⟨⟨k, rfl⟩, (hleast k).mpr hge, (hmost k).mpr hle⟩

/-- Settles O20: both operations report on `space`, which is `C - 1` less the number in flight. -/
theorem spaceReports : Obligations.SpaceReports := by
  intro u n s un f hun hv hf
  have hspace : un.space = un.q.capacity.toNat - f - 1 := by rw [QcqUnit.space, QcqUnit.inFlight_eq_of_emod hf]; rfl
  rw [exec_qSpace hun hv, exec_qHasSpace hun hv, hspace]
  exact ⟨rfl, rfl⟩

/-- Settles O21: the two branches of the body, by whether a slot is free. -/
theorem advanceHead : Obligations.AdvanceHead := by
  intro u s un hun hv
  rw [exec_qAdvHead hun hv]
  refine ⟨fun hfull => ?_, fun hroom h hh => ?_⟩
  · rw [if_pos hfull]
    rfl
  · rw [if_neg hroom, hh]
    rfl

/-- Settles O22: the two branches of the body, by whether a slot is in flight. -/
theorem advanceTail : Obligations.AdvanceTail := by
  intro u s un hun hv
  rw [exec_qAdvTail hun hv]
  refine ⟨fun hempty => ?_, fun hsome => ?_⟩
  · rw [if_pos hempty]
    rfl
  · rw [if_neg hsome]
    rfl

/-- Settles O23: the invariant puts both indices below the capacity, and each law is a fact about such indices. -/
theorem indexLaws : Obligations.IndexLaws := by
  intro cfg un hv hinv hcapMax
  obtain ⟨hq, ⟨hbound, -⟩, -⟩ := hinv
  obtain ⟨hpow, -, hmax, (hhead : un.q.head.toNat < un.cap), (htail : un.q.tail.toNat < un.cap)⟩ := hq hv
  have hcap : un.cap ≤ 65536 := hmax.trans hcapMax
  have hpos : 0 < un.cap := Nat.zero_lt_of_lt hhead
  have hsum := QcqUnit.space_add_inFlight hpos
  have hcqTail : un.cq.bound = true → un.cq.tail.toNat < un.cap := fun hb => let ⟨_, _, hlt⟩ := hbound hb; hlt
  refine ⟨hhead, htail, hcqTail, fun i hi => ?_, QcqUnit.inFlight_eq hhead htail, QcqUnit.inFlight_eq_sub hhead htail, hsum,
    hsum ▸ Nat.le_add_right _ _, QcqUnit.space_advHead hhead htail hcap, QcqUnit.space_advTail hhead htail hcap⟩
  exact ⟨nextIndex_toNat hi hcap, nextIndex_toNat_mod i hpos hcap, nextIndex_toNat_mask i hcap hpow⟩

/-- Settles O24: the doorbell's record is the same whatever the device does, its effect on the stores under a silent one. -/
theorem doorbellOperation : Obligations.DoorbellOperation := by
  intro u s un hun hv bs hbs
  subst hbs
  exact ⟨un.ring s.cfg s.sys, exec_qDbell hun hv, QcqUnit.ring_trace s.cfg un s.sys, fun hq => hq.ring s.cfg un⟩

end

section
/-! PROOFS (family 41_completion_ring.md). What each completion-ring operation answers once its unit exists and its
precondition holds (spec/41_completion_ring.md R162 to R168). -/

namespace Sys2Proof.Machine

/-! ### The side table -/

/-- In a store in canonical form an entry is what its key holds. -/
theorem storeGet_of_mem {β : Type} [DecidableEq β] {d : β} {m : List (Nat × β)} (h : storeWf d m = true)
    {k : Nat} {v : β} (hmem : (k, v) ∈ m) : storeGet d m k = v := by
  induction m with
  | nil => cases hmem
  | cons c m ih =>
    obtain ⟨k', w⟩ := c
    obtain ⟨-, habove, hm⟩ := storeWf_cons.mp h
    rcases List.mem_cons.mp hmem with heq | hrest
    · cases heq
      exact if_pos rfl
    · have hne : k ≠ k' := (habove _ hrest).ne'
      exact (if_neg hne).trans (ih hm hrest)

theorem SideTable.anyValid_eq_false {t : SideTable} (hwf : t.wf = true) (h : ∀ i, (t.get i).valid = false) :
    t.anyValid = false := by
  refine List.any_eq_false.mpr fun c hc => ?_
  have hget : t.get c.1 = c.2 := storeGet_of_mem hwf hc
  simp [← hget, h]

/-! ### The pending test -/

/-- Whatever the device does, the answer is about the memory that the one read of the test finds (R164). -/
theorem QcqUnit.pending_iff (cfg : Config) (un : QcqUnit) (y : Sys) :
    (un.pending cfg y).1 = true ↔
      ((un.pending cfg y).2.mem.get (un.colorAddr un.cq.tail)).getLsbD 7 = un.cq.doneColor := by
  rw [pending_eq]
  exact beq_iff_eq

theorem QcqUnit.pending_trace (cfg : Config) (un : QcqUnit) (y : Sys) :
    (un.pending cfg y).2.trace =
      .memRead (un.colorAddr un.cq.tail) [(un.pending cfg y).2.mem.get (un.colorAddr un.cq.tail)] :: y.trace := by
  obtain ⟨-, htrace⟩ := (y.note cfg un).turn_sched cfg
  rw [pending_eq]
  exact congrArg _ htrace

/-! ### The consume step -/

theorem QcqUnit.xor_isLast (un : QcqUnit) (b : Bool) (i : Word16) :
    (b ^^ un.isLast i) = if i.toNat + 1 = un.cap then !b else b := by
  by_cases hlast : i.toNat + 1 = un.cap
  · rw [if_pos hlast, isLast, hlast, beq_self_eq_true, Bool.xor_true]
  · rw [if_neg hlast, isLast, beq_false_of_ne hlast, Bool.xor_false]

/-- The consume step as the spec writes it: the colour flips on the last slot, and only there (R166). -/
theorem QcqUnit.consume_eq (un : QcqUnit) :
    un.consume =
      { un with cq := { un.cq with
          tail := nextIndex un.cq.tail un.cap
          doneColor := if un.cq.tail.toNat + 1 = un.cap then !un.cq.doneColor else un.cq.doneColor } } := by
  rw [← xor_isLast]
  rfl

/-! ### The operations -/

theorem QcqUnit.cqReady_iff {un : QcqUnit} : un.cqReady = true ↔ un.cq.valid = true ∧ un.cq.bound = true :=
  Bool.and_eq_true_iff

section
variable {u : UnitId} {s : State} {un : QcqUnit} (hun : s.units[u.toNat]? = some un)
include hun

theorem exec_cqBind (hv : un.cq.valid = true) (hb : un.cq.bound = false) (hq : un.q.valid = true) :
    exec (.cqBind u) s = (s.setUnit u un.bind).done (un.q.capacity.zeroExtend 64) :=
  State.onUnit_require ⟨hun, rfl⟩ (p := fun un => un.cq.valid && !un.cq.bound && un.q.valid) (by rw [hv, hb, hq]; rfl) _

theorem exec_cqNext (hready : un.cqReady = true) :
    exec (.cqNext u) s = (s.setUnit u un.consume).done (un.consume.cq.tail.zeroExtend 64) :=
  State.onUnit_require ⟨hun, rfl⟩ hready _

theorem exec_qcqDown (hside : un.side.anyValid = false) : exec (.qcqDown u) s = (s.setUnit u un.down).done 0 :=
  State.onUnit_require ⟨hun, rfl⟩ (p := fun un => !un.side.anyValid) (by rw [hside]; rfl) _

theorem exec_cqPend (hready : un.cqReady = true) (hfits : un.cqFits s.cfg = true) :
    exec (.cqPend u) s =
      if (un.pending s.cfg s.sys).1 then (s.withSys (un.pending s.cfg s.sys).2.rmb).done 1
      else (s.withSys (un.pending s.cfg s.sys).2).done 0 := by
  refine (State.onUnit_require ⟨hun, rfl⟩ hready _).trans ?_
  rw [hfits, requireRing_true]

end

end Sys2Proof.Machine

open Sys2Proof Sys2Proof.Machine

/-- Settles O27: the three bits of the precondition are the hypotheses, and the body is `bind`. -/
theorem cqBindBinds : Obligations.CqBindBinds :=
  fun _ _ _ hun hv hb hq => exec_cqBind hun hv hb hq

/-- Settles O28: the two answers of the test. The byte that the read found is still there at the end, because nobody moves
after it. -/
theorem pendingTest : Obligations.PendingTest := by
  intro u s un hun hv hb hfits a ha
  obtain rfl : a = un.colorAddr un.cq.tail := ha
  have htest := un.pending_iff s.cfg s.sys
  have htrace := un.pending_trace s.cfg s.sys
  have hquiet : s.Quiet → (un.pending s.cfg s.sys).2.mem = s.sys.mem ∧ (un.pending s.cfg s.sys).2.reg = s.sys.reg :=
    fun hq => let ⟨_, _, hmem, hreg, _⟩ := Sys.Quiet.pending hq s.cfg un; ⟨hmem, hreg⟩
  rw [exec_cqPend hun (QcqUnit.cqReady_iff.mpr ⟨hv, hb⟩) hfits]
  generalize un.pending s.cfg s.sys = p at htest htrace hquiet
  by_cases hpend : p.1 = true
  · have hcolor : (p.2.rmb.mem.get (un.colorAddr un.cq.tail)).getLsbD 7 = un.cq.doneColor := htest.mp hpend
    refine ⟨p.2.rmb, ?_, ?_, hquiet⟩
    · rw [if_pos hpend, if_pos hcolor]
      rfl
    · rw [if_pos hcolor]
      exact congrArg (PortEvent.rmb :: ·) htrace
  · have hcolor := mt htest.mpr hpend
    refine ⟨p.2, ?_, ?_, hquiet⟩
    · rw [if_neg hpend, if_neg hcolor]
      rfl
    · rw [if_neg hcolor]
      exact htrace

/-- Settles O29: CQ.NEXT installs the consumed unit, which `consume_eq` writes out. -/
theorem cqNextConsumes : Obligations.CqNextConsumes := by
  intro u s un hun hv hb t ht
  rw [exec_cqNext hun (QcqUnit.cqReady_iff.mpr ⟨hv, hb⟩), QcqUnit.consume_eq, ht]
  rfl

/-- Settles O30: in a canonical side table every listed entry is one that `get` finds. -/
theorem qcqDownTearsDown : Obligations.QcqDownTearsDown :=
  fun _ _ _ hun hwf hside => exec_qcqDown hun (SideTable.anyValid_eq_false hwf hside)

end

section
/-! PROOFS (family 42_devcmd.md). Runs of bytes in a store, the registers of the device-command channel, and the accesses to
them: what they leave in the record whatever the device does, and what each body of the channel does by its accesses. -/

namespace Sys2Proof.Machine

/-! ### Runs of bytes -/

theorem Memory.read_append (m : Memory) (a i j : Nat) : m.read a (i + j) = m.read a i ++ m.read (a + i) j := by
  induction i generalizing a with
  | zero => rw [Nat.zero_add]; rfl
  | succ i ih => simp only [Nat.succ_add, Nat.add_succ, Memory.read, ih, List.cons_append]

theorem Memory.write_append (m : Memory) (a : Nat) (bs cs : List Byte) :
    m.write a (bs ++ cs) = (m.write a bs).write (a + bs.length) cs := by
  induction bs generalizing m a with
  | nil => rfl
  | cons b bs ih => rw [List.cons_append, Memory.write, ih, Nat.add_right_comm]; rfl

theorem Memory.read_write_self {m : Memory} (h : m.wf = true) (a : Nat) (bs : List Byte) :
    (m.write a bs).read a bs.length = bs := by
  induction bs generalizing m a with
  | nil => rfl
  | cons b bs ih =>
    have hhead : ((m.set a b).write (a + 1) bs).get a = b := by
      rw [Memory.get_write_other _ _ (by omega), Memory.get_set_self a b h]
    exact congrArg₂ _ hhead (ih (Memory.set_wf a b h) (a + 1))

theorem leNat_lt (bs : List Byte) : leNat bs < 256 ^ bs.length := by
  induction bs with
  | nil => exact Nat.one_pos
  | cons b bs ih =>
    have := b.isLt
    rw [leNat, List.length_cons, Nat.pow_succ]
    omega

/-- A field that is all of what was read. -/
theorem fieldAt_read (w : Nat) (m : Memory) (a n : Nat) :
    fieldAt w (m.read a n) 0 n = BitVec.ofNat w (leNat (m.read a n)) := by
  rw [fieldAt, List.drop_zero, List.take_of_length_le (Memory.length_read m a n).le]

/-! ### The registers of the channel -/

/-- What a configuration in order says of the channel (spec/10_state.md R43, spec/30_encoding.md R118): the unions are whole
words, and the registers that its operations access lie apart. -/
structure ChannelOk (cfg : Config) : Prop where
  rc : rcOk cfg.rc = true
  budget : 1 ≤ cfg.retryBudget
  cmdWords : 4 * (cfg.dcCmdBytes / 4) = cfg.dcCmdBytes
  compWord : 4 ≤ cfg.dcCompBytes
  bell_done : dcDoorbellAddr cfg + 4 ≤ dcDoneAddr cfg ∨ dcDoneAddr cfg + 4 ≤ dcDoorbellAddr cfg
  bell_cmd : dcDoorbellAddr cfg + 4 ≤ dcCmdAddr cfg ∨ dcCmdAddr cfg + cfg.dcCmdBytes ≤ dcDoorbellAddr cfg
  done_cmd : dcDoneAddr cfg + 4 ≤ dcCmdAddr cfg ∨ dcCmdAddr cfg + cfg.dcCmdBytes ≤ dcDoneAddr cfg
  done_comp : dcDoneAddr cfg + 4 ≤ dcCompAddr cfg ∨ dcCompAddr cfg + cfg.dcCompBytes ≤ dcDoneAddr cfg

theorem State.channelOk {s : State} (h : s.configOk = true) : ChannelOk s.cfg := by
  simp only [State.configOk, Machine.configOk, Bool.and_eq_true] at h
  obtain ⟨⟨⟨⟨⟨⟨hnum, -⟩, -⟩, -⟩, hapart⟩, hrc⟩, -⟩ := h
  obtain ⟨-, -, hbudget, -, -, -, -, hcmd, hcomp, -⟩ := of_decide_eq_true hnum
  simp only [registersApart, registerRanges, List.cons_append, Bool.and_eq_true, decide_eq_true_eq, List.pairwise_cons,
    List.forall_mem_cons, rangesApart, Bool.or_eq_true] at hapart
  obtain ⟨-, ⟨hbellDone, hbellCmd, -⟩, ⟨hdoneCmd, hdoneComp, -⟩, -⟩ := hapart
  exact ⟨hrc, hbudget, Nat.mul_div_cancel' (Nat.dvd_of_mod_eq_zero hcmd), hcomp, hbellDone, hbellCmd, hdoneCmd, hdoneComp⟩

/-! ### Accesses -/

section accesses
variable (cfg : Config) (addr : Nat) (y : Sys)

@[simp] theorem Sys.regRead_trace (n : Nat) :
    (y.regRead cfg addr n).2.trace = .regRead addr (y.regRead cfg addr n).1 :: y.trace :=
  congrArg (_ :: ·) (y.turn_sched cfg).2

@[simp] theorem Sys.regWrite_trace (bs : List Byte) : (y.regWrite cfg addr bs).trace = .regWrite addr bs :: y.trace :=
  congrArg (_ :: ·) (y.turn_sched cfg).2

@[simp] theorem Sys.tick_trace : (y.tick cfg).trace = .tick :: y.trace := congrArg (_ :: ·) (y.turn_sched cfg).2

@[simp] theorem Sys.length_regRead (n : Nat) : (y.regRead cfg addr n).1.length = n := Memory.length_read _ _ _

/-- A read of a register answers what the register holds right after it. -/
theorem Sys.getD_regRead {n k : Nat} (h : k < n) :
    (y.regRead cfg addr n).1.getD k 0 = (y.regRead cfg addr n).2.reg.get (addr + k) := Memory.getD_read _ h

end accesses

/-- What the schedule does not matter to and each move of the surroundings keeps, a turn keeps. -/
theorem Sys.turn_keeps {P : Sys → Prop} {cfg : Config} {y : Sys} (h : P y) (hsched : ∀ z l, P z → P { z with sched := l })
    (hact : ∀ z a, P z → P (z.envAct cfg a)) : P (y.turn cfg).2 := by
  have hacts : ∀ (acts : List EnvAct) (z : Sys), P z → P (acts.foldl (fun z a => z.envAct cfg a) z) := by
    intro acts
    induction acts with
    | nil => exact fun _ hz => hz
    | cons a acts ih => exact fun z hz => ih _ (hact z a hz)
  unfold Sys.turn
  split
  · exact h
  · exact hacts _ _ (hsched _ _ h)

/-! ### The bodies: what every access keeps, the body keeps -/

section bodies
variable {P : Sys → Prop} {cfg : Config} {y : Sys}

theorem Sys.postWords_keeps {cmd : List Byte} {n k : Nat} (h : P y)
    (hwrite : ∀ z addr bs, P z → P (z.regWrite cfg addr bs)) : P (y.postWords cfg cmd n k) := by
  induction n generalizing k y with
  | zero => exact h
  | succ n ih => exact ih (hwrite _ _ _ h)

theorem Sys.post_keeps {cmd : List Byte} (h : P y) (hwrite : ∀ z addr bs, P z → P (z.regWrite cfg addr bs)) :
    P (y.post cfg cmd) :=
  hwrite _ _ _ (hwrite _ _ _ (postWords_keeps h hwrite))

theorem Sys.readCompWords_keeps {n k : Nat} (h : P y) (hread : ∀ z addr, P z → P (z.regRead cfg addr 4).2) :
    P (y.readCompWords cfg n k).2 := by
  induction n generalizing k y with
  | zero => exact h
  | succ n ih => exact ih (hread _ _ h)

/-- What a poll answers in bit 0 is the done bit (spec/30_encoding.md R111). -/
theorem Sys.regRead_doneBit (cfg : Config) (y : Sys) :
    ((y.regRead cfg (dcDoneAddr cfg) 4).1.getD 0 0).getLsbD 0 = (y.regRead cfg (dcDoneAddr cfg) 4).2.doneBit cfg :=
  congrArg (BitVec.getLsbD · 0) (getD_regRead cfg _ y (by decide))

theorem Sys.waitDone_of_done {left ticks : Nat} (h : (y.regRead cfg (dcDoneAddr cfg) 4).2.doneBit cfg = true) :
    y.waitDone cfg left ticks = ⟨true, ticks, (y.regRead cfg (dcDoneAddr cfg) 4).2⟩ := by
  rw [← regRead_doneBit] at h
  cases left <;> exact if_pos h

theorem Sys.waitDone_zero {ticks : Nat} (h : (y.regRead cfg (dcDoneAddr cfg) 4).2.doneBit cfg = false) :
    y.waitDone cfg 0 ticks = ⟨false, ticks, (y.regRead cfg (dcDoneAddr cfg) 4).2⟩ := by
  rw [← regRead_doneBit] at h
  exact if_neg (Bool.eq_false_iff.mp h)

theorem Sys.waitDone_succ {left ticks : Nat} (h : (y.regRead cfg (dcDoneAddr cfg) 4).2.doneBit cfg = false) :
    y.waitDone cfg (left + 1) ticks =
      ((y.regRead cfg (dcDoneAddr cfg) 4).2.tick cfg).waitDone cfg left (ticks + 1) := by
  rw [← regRead_doneBit] at h
  exact if_neg (Bool.eq_false_iff.mp h)

theorem Sys.waitDone_keeps {left ticks : Nat} (h : P y)
    (hread : ∀ z, P z → P (z.regRead cfg (dcDoneAddr cfg) 4).2) (htick : ∀ z, P z → P (z.tick cfg)) :
    P (y.waitDone cfg left ticks).sys := by
  induction left generalizing ticks y with
  | zero =>
    cases hdone : (y.regRead cfg (dcDoneAddr cfg) 4).2.doneBit cfg with
    | true => rw [waitDone_of_done hdone]; exact hread y h
    | false => rw [waitDone_zero hdone]; exact hread y h
  | succ left ih =>
    cases hdone : (y.regRead cfg (dcDoneAddr cfg) 4).2.doneBit cfg with
    | true => rw [waitDone_of_done hdone]; exact hread y h
    | false => rw [waitDone_succ hdone]; exact ih (htick _ (hread y h))

end bodies

theorem Sys.MemOk.post {cfg : Config} {cmd : List Byte} {y : Sys} (h : y.MemOk) : (y.post cfg cmd).MemOk :=
  post_keeps h fun _ _ _ hz => hz.regWrite

theorem Sys.MemOk.waitDone {cfg : Config} {left ticks : Nat} {y : Sys} (h : y.MemOk) :
    (y.waitDone cfg left ticks).sys.MemOk :=
  waitDone_keeps h (fun _ hz => hz.regRead) fun _ hz => hz.tick

theorem Sys.MemOk.readStatus {cfg : Config} {y : Sys} (h : y.MemOk) : (y.readStatus cfg).sys.MemOk :=
  readCompWords_keeps h.regRead fun _ _ hz => hz.regRead

/-! ### The record -/

/-- The write of command word `k` (spec/42_devcmd.md R181). -/
def commandWrite (cfg : Config) (cmd : List Byte) (k : Nat) : PortEvent :=
  .regWrite (dcCmdAddr cfg + 4 * k) (cmdWord cmd k)

theorem Sys.postWords_trace (cfg : Config) (cmd : List Byte) (n k : Nat) (y : Sys) :
    (y.postWords cfg cmd n k).trace = ((List.range' k n).map (commandWrite cfg cmd)).reverse ++ y.trace := by
  induction n generalizing k y with
  | zero => rfl
  | succ n ih =>
    rw [Sys.postWords, ih, regWrite_trace, List.range'_succ, List.map_cons, List.reverse_cons, List.append_assoc]
    rfl

theorem Sys.post_trace (cfg : Config) (cmd : List Byte) (y : Sys) :
    (y.post cfg cmd).trace =
      .regWrite (dcDoorbellAddr cfg) [1, 0, 0, 0] :: .regWrite (dcDoneAddr cfg) [0, 0, 0, 0] ::
        (((List.range (cfg.dcCmdBytes / 4)).map (commandWrite cfg cmd)).reverse ++ y.trace) := by
  rw [Sys.post, regWrite_trace, regWrite_trace, postWords_trace, List.range_eq_range']

/-- The record of a wait, newest first: the last read, and one tick after each read before it (spec/42_devcmd.md R183). -/
def waitTrace (cfg : Config) (last : List Byte) (older : List (List Byte)) : List PortEvent :=
  .regRead (dcDoneAddr cfg) last :: older.flatMap fun bs => [.tick, .regRead (dcDoneAddr cfg) bs]

theorem countP_isTick_waitTrace (cfg : Config) (last : List Byte) (older : List (List Byte)) :
    (waitTrace cfg last older).countP PortEvent.isTick = older.length := by
  induction older with
  | nil => rfl
  | cons bs older ih => simpa [waitTrace, List.countP_cons, PortEvent.isTick] using ih

theorem countP_isDoneRead_waitTrace (cfg : Config) (last : List Byte) (older : List (List Byte)) :
    (waitTrace cfg last older).countP (PortEvent.isDoneRead cfg) = older.length + 1 := by
  induction older with
  | nil => simp [waitTrace, PortEvent.isDoneRead]
  | cons bs older ih => simpa [waitTrace, List.countP_cons, PortEvent.isDoneRead] using ih

/-- What the end `w` of a wait from `y`, with `left` ticks until the limit and `ticks` consumed, shows: in the record the
last read and the older ones, and how they bear on the answer (spec/42_devcmd.md R183). -/
structure WaitEnd.Shows (cfg : Config) (y : Sys) (left ticks : Nat) (last : List Byte) (older : List (List Byte))
    (w : WaitEnd) : Prop where
  trace : w.sys.trace = waitTrace cfg last older ++ y.trace
  bit : (last.getD 0 0).getLsbD 0 = w.seen
  doneBit : w.sys.doneBit cfg = w.seen
  ticks_eq : w.ticks = ticks + older.length
  within : older.length ≤ left
  limit : w.seen = false → older.length = left

theorem Sys.waitDone_shows (cfg : Config) (left ticks : Nat) (y : Sys) :
    ∃ last older, (y.waitDone cfg left ticks).Shows cfg y left ticks last older := by
  have hbit := regRead_doneBit cfg y
  induction left generalizing ticks y with
  | zero =>
    cases hdone : (y.regRead cfg (dcDoneAddr cfg) 4).2.doneBit cfg with
    | true =>
      rw [waitDone_of_done hdone]
      exact ⟨_, [], y.regRead_trace .., hbit.trans hdone, hdone, rfl, le_rfl, nofun⟩
    | false =>
      rw [waitDone_zero hdone]
      exact ⟨_, [], y.regRead_trace .., hbit.trans hdone, hdone, rfl, le_rfl, fun _ => rfl⟩
  | succ left ih =>
    cases hdone : (y.regRead cfg (dcDoneAddr cfg) 4).2.doneBit cfg with
    | true =>
      rw [waitDone_of_done hdone]
      exact ⟨_, [], y.regRead_trace .., hbit.trans hdone, hdone, rfl, Nat.zero_le _, nofun⟩
    | false =>
      rw [waitDone_succ hdone]
      obtain ⟨last, older, h⟩ := ih (ticks + 1) _ (regRead_doneBit cfg _)
      refine ⟨last, older ++ [(y.regRead cfg (dcDoneAddr cfg) 4).1], ?_, h.bit, h.doneBit, ?_, ?_, fun hseen => ?_⟩
      · rw [h.trace, tick_trace, regRead_trace]
        simp [waitTrace]
      · rw [h.ticks_eq, List.length_append, List.length_singleton]
        omega
      · simpa using h.within
      · simpa using h.limit hseen

end Sys2Proof.Machine
end

section
/-! PROOFS (family 42_devcmd.md). The device-command channel under a silent device, and what its operations answer once
their preconditions hold (spec/42_devcmd.md R181 to R189). -/

namespace Sys2Proof.Machine

theorem getD_firstBytes {n k : Nat} (bs : List Byte) (h : k < n) : (firstBytes n bs).getD k 0 = bs.getD k 0 := by
  rw [firstBytes, List.getD_eq_getElem _ _ (by simpa using h), List.getElem_map, List.getElem_range]

/-- A register of four bytes is written without touching the bytes around it. -/
theorem Memory.get_write_word (m : Memory) (b0 b1 b2 b3 : Byte) {a a' : Nat} (h : a' < a ∨ a + 4 ≤ a') :
    (m.write a [b0, b1, b2, b3]).get a' = m.get a' := Memory.get_write_other m _ h

theorem WaitEnd.Shows.count {cfg : Config} {y : Sys} {left ticks : Nat} {last : List Byte} {older : List (List Byte)}
    {w : WaitEnd} (h : w.Shows cfg y left ticks last older) (p : PortEvent → Bool) :
    w.sys.count p = y.count p + (waitTrace cfg last older).countP p := by
  rw [Sys.count, h.trace, List.countP_append, Nat.add_comm]
  rfl

namespace Sys.Quiet

variable {cfg : Config} {y : Sys}

/-! ### The bodies under a silent device -/

/-- Words written in ascending order are one run of bytes. -/
theorem postWords (h : y.Quiet) (cmd : List Byte) (n k : Nat) :
    (y.postWords cfg cmd n k).Quiet ∧ (y.postWords cfg cmd n k).mem = y.mem ∧
    (y.postWords cfg cmd n k).reg =
      y.reg.write (dcCmdAddr cfg + 4 * k) ((List.range' (4 * k) (4 * n)).map (cmd.getD · 0)) := by
  induction n generalizing k y with
  | zero => exact ⟨h, rfl, rfl⟩
  | succ n ih =>
    obtain ⟨hquiet, hmem, hreg, -, -⟩ := h.regWrite (cfg := cfg) (addr := dcCmdAddr cfg + 4 * k) (bs := cmdWord cmd k)
    obtain ⟨hquiet', hmem', hreg'⟩ := ih hquiet (k + 1)
    have hword : cmdWord cmd k = (List.range' (4 * k) 4).map (cmd.getD · 0) := rfl
    refine ⟨hquiet', hmem'.trans hmem, hreg'.trans ?_⟩
    rw [hreg, Nat.mul_succ 4 n, Nat.add_comm (4 * n), ← List.range'_append_1, List.map_append, Memory.write_append, ← hword]
    rfl

theorem post (h : y.Quiet) (cmd : List Byte) :
    (y.post cfg cmd).Quiet ∧ (y.post cfg cmd).mem = y.mem ∧
    (y.post cfg cmd).reg =
      ((y.reg.write (dcCmdAddr cfg) (firstBytes (4 * (cfg.dcCmdBytes / 4)) cmd)).write (dcDoneAddr cfg) [0, 0, 0, 0]).write
        (dcDoorbellAddr cfg) [1, 0, 0, 0] := by
  obtain ⟨hquiet, hmem, hreg⟩ := h.postWords (cfg := cfg) cmd (cfg.dcCmdBytes / 4) 0
  obtain ⟨hquiet', hmem', hreg', -, -⟩ := hquiet.regWrite (cfg := cfg) (addr := dcDoneAddr cfg) (bs := [0, 0, 0, 0])
  obtain ⟨hquiet'', hmem'', hreg'', -, -⟩ :=
    hquiet'.regWrite (cfg := cfg) (addr := dcDoorbellAddr cfg) (bs := [1, 0, 0, 0])
  refine ⟨hquiet'', hmem''.trans (hmem'.trans hmem), ?_⟩
  rw [Sys.post, hreg'', hreg', hreg, firstBytes, List.range_eq_range']
  rfl

/-- A silent device does not set the done bit again that a post clears (spec/42_devcmd.md R181). -/
theorem post_doneBit (h : y.Quiet) (hcfg : ChannelOk cfg) (hwf : y.MemOk) (cmd : List Byte) :
    (y.post cfg cmd).doneBit cfg = false := by
  obtain ⟨-, -, hreg⟩ := h.post (cfg := cfg) cmd
  have hbell := hcfg.bell_done
  have hcleared := Memory.get_write_inside [0, 0, 0, 0] (a := dcDoneAddr cfg) 0
    (Memory.write_wf (firstBytes (4 * (cfg.dcCmdBytes / 4)) cmd) (dcCmdAddr cfg) hwf.2) (by decide)
  rw [doneBit, hreg, Memory.get_write_word _ _ _ _ _ (by omega)]
  exact congrArg (BitVec.getLsbD · 0) hcleared

/-- A silent device leaves the done bit as the wait finds it. -/
theorem waitDone_seen (h : y.Quiet) (left ticks : Nat) : (y.waitDone cfg left ticks).seen = y.doneBit cfg := by
  obtain ⟨last, older, hshows⟩ := waitDone_shows cfg left ticks y
  have hs : y.Holds (fun _ => True) (fun r => r = y.reg) := ⟨h, trivial, rfl⟩
  obtain ⟨-, -, hreg⟩ := hs.waitDone (cfg := cfg) left ticks
  rw [← hshows.doneBit, doneBit, hreg]
  rfl

theorem doneBit_regRead (h : y.Quiet) : (y.regRead cfg (dcDoneAddr cfg) 4).2.doneBit cfg = y.doneBit cfg := by
  obtain ⟨-, -, -, hreg, -, -⟩ := h.regRead (cfg := cfg) (addr := dcDoneAddr cfg) (n := 4)
  rw [doneBit, hreg]
  rfl

/-- Words read in ascending order are one run of bytes. -/
theorem readCompWords (h : y.Quiet) (n k : Nat) :
    (y.readCompWords cfg n k).1 = y.reg.read (dcCompAddr cfg + 4 * k) (4 * n) := by
  induction n generalizing k y with
  | zero => rfl
  | succ n ih =>
    obtain ⟨hword, hquiet, -, hreg, -, -⟩ := h.regRead (cfg := cfg) (addr := dcCompAddr cfg + 4 * k) (n := 4)
    rw [Nat.mul_succ 4 n, Nat.add_comm (4 * n), Memory.read_append, ← hword, ← hreg]
    exact congrArg (_ ++ ·) (ih hquiet (k + 1))

end Sys.Quiet

/-! ### The operations -/

section
variable {s : State}

theorem exec_dcPost (h : s.dcState = .idle ∨ s.dcState = .done) :
    exec .dcPost s = ({ s with dcState := .posted, sys := s.sys.post s.cfg s.ctxCmd }).done 0 := by
  show s.require s.dcState.mayPost _ = _
  rw [DcState.mayPost_iff.mpr h, State.require_true]

theorem exec_dcWait (m : Word16) (h : s.dcState = .posted) {w : WaitEnd}
    (hw : s.sys.waitDone s.cfg (waitLimit s.cfg m) 0 = w) :
    exec (.dcWait m) s =
      if w.seen then ({ s with dcState := .done, sys := w.sys }).done (BitVec.ofNat 64 w.ticks)
      else ({ s with dcState := .timedOut, sys := w.sys }).raise .timedOut (BitVec.ofNat 64 w.ticks) := by
  subst hw
  show s.require (s.dcState == .posted) _ = _
  rw [h, beq_self_eq_true, State.require_true]

theorem exec_dcStatus (h : s.dcState = .done) :
    exec .dcStatus s =
      ({ s with dcState := .idle, ctxComp := (s.sys.readStatus s.cfg).comp, sys := (s.sys.readStatus s.cfg).sys }).done
        ((s.sys.readStatus s.cfg).status.zeroExtend 64) := by
  show s.require (s.dcState == .done) _ = _
  rw [h, beq_self_eq_true, State.require_true]

theorem exec_dcGo (m : Word16) (h : s.dcState = .idle ∨ s.dcState = .done) (hgate : s.dcGate = false) {g : GoEnd}
    (hg : goLoop s.cfg s.ctxCmd (waitLimit s.cfg m) (s.cfg.retryBudget - 1) 0 s.ctxComp s.sys = g) :
    exec (.dcGo m) s =
      ({ s with dcGate := false, dcState := g.dcState, ctxComp := g.comp, sys := g.sys }).raise g.code g.info := by
  subst hg
  show s.require (!s.dcGate && s.dcState.mayPost) _ = _
  rw [hgate, DcState.mayPost_iff.mpr h]
  rfl

end

end Sys2Proof.Machine

open Sys2Proof Sys2Proof.Machine

/-- Settles O32: the record is that of the body; under a silent device the three writes lie apart. -/
theorem dcPostWrites : Obligations.DcPostWrites := by
  intro s hs
  refine ⟨s.sys.post s.cfg s.ctxCmd, exec_dcPost hs, s.sys.post_trace .., fun hcfg hwf hquiet => ?_⟩
  have hcfg := State.channelOk hcfg
  obtain ⟨-, hmem, hreg⟩ := Sys.Quiet.post (cfg := s.cfg) hquiet s.ctxCmd
  have hcmd := Memory.write_wf (firstBytes (4 * (s.cfg.dcCmdBytes / 4)) s.ctxCmd) (dcCmdAddr s.cfg) hwf.2
  refine ⟨fun k hk => ?_, hquiet.post_doneBit hcfg hwf _, ?_, hmem⟩
  · have hdone := hcfg.done_cmd
    have hbell := hcfg.bell_cmd
    rw [hreg, Memory.get_write_word _ _ _ _ _ (by omega),
      Memory.get_write_word _ _ _ _ _ (by omega),
      hcfg.cmdWords, Memory.get_write_inside _ k hwf.2 (by rwa [length_firstBytes]), getD_firstBytes _ hk]
  · rw [hreg]
    exact Memory.read_write_self (Memory.write_wf _ _ hcmd) _ [1, 0, 0, 0]

/-- Settles O33: the record of the wait loop counts its reads and ticks, and its last read gives the answer. -/
theorem dcWaitEnds : Obligations.DcWaitEnds := by
  intro m s hs
  obtain ⟨last, older, h⟩ := Sys.waitDone_shows s.cfg (waitLimit s.cfg m) 0 s.sys
  generalize hw : s.sys.waitDone s.cfg (waitLimit s.cfg m) 0 = w at h
  have hreads := h.count (PortEvent.isDoneRead s.cfg)
  have hticks := h.count PortEvent.isTick
  rw [countP_isDoneRead_waitTrace] at hreads
  rw [countP_isTick_waitTrace] at hticks
  refine ⟨older.length, w.sys, last, _, h.within, h.trace, hreads, hticks, ?_⟩
  rw [exec_dcWait m hs hw, h.bit, h.ticks_eq, Nat.zero_add]
  cases hseen : w.seen with
  | true => exact .inl ⟨rfl, rfl⟩
  | false => exact .inr ⟨rfl, h.limit hseen, rfl⟩

/-- Settles O35: under a silent device the reads are those of the registers as they were. -/
theorem dcStatusReports : Obligations.DcStatusReports := by
  intro s hs
  refine ⟨_, _, _, exec_dcStatus hs, fun hquiet => ?_⟩
  have hkept : s.sys.Holds (fun m => m = s.sys.mem) (fun r => r = s.sys.reg) := ⟨hquiet, rfl, rfl⟩
  obtain ⟨-, hmem, hreg⟩ := hkept.readStatus (cfg := s.cfg)
  obtain ⟨hbyte, hquiet', -, hreg', -, -⟩ := Sys.Quiet.regRead (cfg := s.cfg) (addr := dcCompAddr s.cfg) (n := 1) hquiet
  have hcomp := hquiet'.readCompWords (cfg := s.cfg) (s.cfg.dcCompBytes / 4) 0
  rw [hreg'] at hcomp
  refine ⟨congrArg byte0 hbyte, fun hwords => ?_, hreg, hmem⟩
  rw [Nat.mul_div_cancel' (Nat.dvd_of_mod_eq_zero hwords)] at hcomp
  refine ⟨(congrArg List.length hcomp).trans (Memory.length_read ..), fun k hk => ?_⟩
  exact (congrArg (List.getD · k 0) hcomp).trans (Memory.getD_read _ hk)

end

section
/-! PROOFS (family 42_devcmd.md). DC.GO (spec/42_devcmd.md R187): what each attempt adds to the record, the status byte that
stays while the done bit is set (spec/46_device_contract.md R268), and the loop of the attempts; DI.CHECK (R189). -/

namespace Sys2Proof.Machine

/-! ### The status byte stays while the done bit is set -/

/-- The done bit is set and the status byte is `b`. -/
structure Sys.Answered (cfg : Config) (b : Byte) (y : Sys) : Prop where
  memOk : y.MemOk
  doneBit : y.doneBit cfg = true
  status : y.reg.get (dcCompAddr cfg) = b

/-- With the done bit set a device step can set it again and write no other register (R268). -/
theorem Sys.devAct_reg_of_doneBit {cfg : Config} {y : Sys} (h : y.doneBit cfg = true) (a : DevAct) :
    (y.devAct cfg a).reg = y.reg ∨
    (y.devAct cfg a).reg = y.reg.set (dcDoneAddr cfg) (y.reg.get (dcDoneAddr cfg) ||| 1) := by
  have hmay : ∀ c, y.mayAnswer cfg c = false := fun c => by simp [mayAnswer, h]
  cases a with
  | learn c u => rw [devAct, devLearn_eq]; exact .inl rfl
  | fetch u => simp only [devAct, devFetch]; split <;> (try split) <;> exact .inl rfl
  | compByte u k b => simp only [devAct, devCompByte]; split <;> (try split) <;> (try split) <;> exact .inl rfl
  | compColor u low => simp only [devAct, devCompColor]; split <;> (try split) <;> (try split) <;> exact .inl rfl
  | dcCmd i => simp only [devAct, devDcCmd]; split <;> (try split) <;> exact .inl rfl
  | dcComp i k b => simp only [devAct, devDcComp, hmay]; split <;> exact .inl rfl
  | dcData i k b => simp only [devAct, devDcData, hmay]; split <;> exact .inl rfl
  | dcDone i =>
    simp only [devAct, devDcDone]
    split
    · exact .inl rfl
    · split
      · exact .inr rfl
      · exact .inl rfl

theorem Sys.Answered.envAct {cfg : Config} {b : Byte} {y : Sys} (hcfg : ChannelOk cfg) (h : y.Answered cfg b)
    (a : EnvAct) : (y.envAct cfg a).Answered cfg b := by
  have hapart := hcfg.done_comp
  have hword := hcfg.compWord
  cases a with
  | device a =>
    have hmem := h.memOk.devAct (cfg := cfg) a
    obtain hreg | hreg := devAct_reg_of_doneBit h.doneBit a
    · exact ⟨hmem, (congrArg (fun r : Memory => (r.get (dcDoneAddr cfg)).getLsbD 0) hreg).trans h.doneBit,
        (congrArg (Memory.get · (dcCompAddr cfg)) hreg).trans h.status⟩
    · refine ⟨hmem, ?_, ?_⟩
      · rw [Sys.envAct, Sys.doneBit, hreg, Memory.get_set_self _ _ h.memOk.2]
        simp
      · rw [Sys.envAct, hreg, Memory.get_set_other _ _ (by omega)]
        exact h.status
  | fwRunning b => exact ⟨h.memOk, h.doneBit, h.status⟩
  | requestWhileBusy w => exact h
  | doneHighBits v =>
    refine ⟨⟨h.memOk.1, Memory.write_wf _ _ h.memOk.2⟩, ?_, ?_⟩
    · have hbyte := Memory.get_write_inside (leBytes 4 (v ++ BitVec.ofBool (y.doneBit cfg)).toNat)
        (a := dcDoneAddr cfg) 0 h.memOk.2 (by rw [length_leBytes]; decide)
      refine (congrArg (BitVec.getLsbD · 0) hbyte).trans ?_
      simp only [leBytes, List.getD_cons_zero, BitVec.getLsbD_ofNat, BitVec.testBit_toNat, BitVec.getLsbD_append, h.doneBit]
      rfl
    · exact (Memory.get_write_other _ _ (by rw [length_leBytes]; omega)).trans h.status

theorem Sys.Answered.regRead {cfg : Config} {b : Byte} {y : Sys} (hcfg : ChannelOk cfg) (h : y.Answered cfg b)
    (addr n : Nat) : (y.regRead cfg addr n).2.Answered cfg b := by
  have hturn : (y.turn cfg).2.Answered cfg b :=
    turn_keeps h (fun _ _ hz => ⟨hz.memOk, hz.doneBit, hz.status⟩) fun _ a hz => hz.envAct hcfg a
  exact ⟨hturn.memOk, hturn.doneBit, hturn.status⟩

/-- The first of the completion bytes is the status read before them. -/
theorem Sys.readStatus_comp {cfg : Config} {y : Sys} (hcfg : ChannelOk cfg) (hmem : y.MemOk)
    (hdone : y.doneBit cfg = true) : (y.readStatus cfg).comp.getD 0 0 = (y.readStatus cfg).status := by
  have hy : y.Answered cfg (y.reg.get (dcCompAddr cfg)) := ⟨hmem, hdone, rfl⟩
  have hstatus := hy.regRead hcfg (dcCompAddr cfg) 1
  have hword := hstatus.regRead hcfg (dcCompAddr cfg) 4
  obtain ⟨n, hn⟩ := Nat.exists_eq_add_of_le' (Nat.div_pos hcfg.compWord (by decide))
  have hcomp : (y.readStatus cfg).comp =
      ((y.regRead cfg (dcCompAddr cfg) 1).2.regRead cfg (dcCompAddr cfg) 4).1 ++
        (((y.regRead cfg (dcCompAddr cfg) 1).2.regRead cfg (dcCompAddr cfg) 4).2.readCompWords cfg n 1).1 := by
    rw [readStatus, hn]
    rfl
  rw [hcomp, List.getD_append _ _ _ _ (by rw [length_regRead]; decide), getD_regRead _ _ _ (by decide)]
  exact hword.status.trans hstatus.status.symm

/-! ### The attempts in the record -/

/-- One post and its wait (spec/42_devcmd.md R187). -/
def Sys.attempt (cfg : Config) (cmd : List Byte) (limit : Nat) (y : Sys) : WaitEnd :=
  (y.post cfg cmd).waitDone cfg limit 0

theorem Sys.count_eq_of_filter {p : PortEvent → Bool} {y z : Sys} (h : z.trace.filter p = y.trace.filter p) :
    z.count p = y.count p := by
  rw [count, count, List.countP_eq_length_filter, List.countP_eq_length_filter, h]

section filters
variable {p : PortEvent → Bool} {cfg : Config}

theorem Sys.filter_post (cmd : List Byte) (y : Sys) (hp : ∀ addr bs, p (.regWrite addr bs) = false) :
    (y.post cfg cmd).trace.filter p = y.trace.filter p :=
  post_keeps (P := fun z => z.trace.filter p = y.trace.filter p) rfl fun z addr bs hz => by
    rw [regWrite_trace, List.filter_cons_of_neg (by simp [hp]), hz]

theorem Sys.filter_waitDone (left ticks : Nat) (y : Sys) (hread : ∀ bs, p (.regRead (dcDoneAddr cfg) bs) = false)
    (htick : p .tick = false) : (y.waitDone cfg left ticks).sys.trace.filter p = y.trace.filter p :=
  waitDone_keeps (P := fun z => z.trace.filter p = y.trace.filter p) rfl
    (fun z hz => by rw [regRead_trace, List.filter_cons_of_neg (by simp [hread]), hz])
    fun z hz => by rw [tick_trace, List.filter_cons_of_neg (by simp [htick]), hz]

/-- Of the reads of the status and the completion the record shows those of words only where `p` does not ask for them. -/
theorem Sys.filter_readStatus (y : Sys) (hword : ∀ addr bs, bs.length = 4 → p (.regRead addr bs) = false) :
    (y.readStatus cfg).sys.trace.filter p =
      [PortEvent.regRead (dcCompAddr cfg) [(y.readStatus cfg).status]].filter p ++ y.trace.filter p := by
  rw [← List.filter_append]
  refine readCompWords_keeps (P := fun z => z.trace.filter p = _) (congrArg _ (y.regRead_trace ..)) fun z addr hz => ?_
  rw [regRead_trace, List.filter_cons_of_neg (by simp [hword]), hz]

end filters

/-- A post is one trigger: no command word lies at the doorbell. -/
theorem Sys.count_isTrigger_post {cfg : Config} (hcfg : ChannelOk cfg) (cmd : List Byte) (y : Sys) :
    (y.post cfg cmd).count (PortEvent.isTrigger cfg) = y.count (PortEvent.isTrigger cfg) + 1 := by
  have hwords : (((List.range (cfg.dcCmdBytes / 4)).map (commandWrite cfg cmd)).reverse).countP
      (PortEvent.isTrigger cfg) = 0 := by
    refine List.countP_eq_zero.mpr fun e he => ?_
    obtain ⟨k, hk, rfl⟩ := List.mem_map.mp (List.mem_reverse.mp he)
    have hk := List.mem_range.mp hk
    have hbell := hcfg.bell_cmd
    have hne : dcCmdAddr cfg + 4 * k ≠ dcDoorbellAddr cfg := by omega
    simp [commandWrite, PortEvent.isTrigger, hne]
  rw [count, post_trace, List.countP_cons_of_pos (by simp [PortEvent.isTrigger]),
    List.countP_cons_of_neg (by simp [PortEvent.isTrigger]), List.countP_append, hwords, Nat.zero_add]
  rfl

section attempt
variable {cfg : Config} (cmd : List Byte) (limit : Nat) (y : Sys)

theorem Sys.count_isTrigger_attempt (hcfg : ChannelOk cfg) :
    (y.attempt cfg cmd limit).sys.count (PortEvent.isTrigger cfg) = y.count (PortEvent.isTrigger cfg) + 1 :=
  (count_eq_of_filter (filter_waitDone _ _ _ (fun _ => rfl) rfl)).trans (count_isTrigger_post hcfg cmd y)

theorem Sys.count_isTick_attempt :
    (y.attempt cfg cmd limit).sys.count PortEvent.isTick = y.count PortEvent.isTick + (y.attempt cfg cmd limit).ticks := by
  obtain ⟨last, older, h⟩ := waitDone_shows cfg limit 0 (y.post cfg cmd)
  rw [attempt, h.count, countP_isTick_waitTrace, count_eq_of_filter (filter_post cmd y fun _ _ => rfl), h.ticks_eq,
    Nat.zero_add]

theorem Sys.attempt_ticks_le : (y.attempt cfg cmd limit).ticks ≤ limit := by
  obtain ⟨last, older, h⟩ := waitDone_shows cfg limit 0 (y.post cfg cmd)
  rw [attempt, h.ticks_eq, Nat.zero_add]
  exact h.within

theorem Sys.attempt_ticks_of_timeout (hseen : (y.attempt cfg cmd limit).seen = false) :
    (y.attempt cfg cmd limit).ticks = limit := by
  obtain ⟨last, older, h⟩ := waitDone_shows cfg limit 0 (y.post cfg cmd)
  rw [attempt, h.ticks_eq, Nat.zero_add]
  exact h.limit hseen

theorem Sys.attempt_doneBit : (y.attempt cfg cmd limit).sys.doneBit cfg = (y.attempt cfg cmd limit).seen := by
  obtain ⟨last, older, h⟩ := waitDone_shows cfg limit 0 (y.post cfg cmd)
  exact h.doneBit

/-- An attempt before its status reads no status: `DC_DONE` is not `DC_COMP`. -/
theorem Sys.filter_isStatusRead_attempt (hcfg : ChannelOk cfg) :
    (y.attempt cfg cmd limit).sys.trace.filter (PortEvent.isStatusRead cfg) =
      y.trace.filter (PortEvent.isStatusRead cfg) := by
  have happart : dcDoneAddr cfg ≠ dcCompAddr cfg := by
    have := hcfg.done_comp
    have := hcfg.compWord
    omega
  rw [attempt, filter_waitDone _ _ _ (fun bs => by simp [PortEvent.isStatusRead, happart]) rfl]
  exact filter_post cmd y fun _ _ => rfl

end attempt

/-- What `posts` posts of DC.GO have added to the record since `y0`, at most `limit` ticks for each, and the statuses read,
newest first. -/
structure Sys.Tally (cfg : Config) (limit : Nat) (y0 : Sys) (posts : Nat) (statuses : List Byte) (y : Sys) : Prop where
  posts_eq : y.count (PortEvent.isTrigger cfg) = y0.count (PortEvent.isTrigger cfg) + posts
  ticks_le : y.count PortEvent.isTick ≤ y0.count PortEvent.isTick + posts * limit
  statuses_eq : y.trace.filter (PortEvent.isStatusRead cfg) =
    statuses.map (fun b => .regRead (dcCompAddr cfg) [b]) ++ y0.trace.filter (PortEvent.isStatusRead cfg)
  memOk : y0.MemOk → y.MemOk

namespace Sys.Tally

variable {cfg : Config} {limit posts : Nat} {y0 y : Sys} {statuses : List Byte}

theorem refl (y : Sys) : Tally cfg limit y 0 [] y := ⟨rfl, Nat.le_add_right _ _, rfl, id⟩

theorem attempt (hcfg : ChannelOk cfg) (h : Tally cfg limit y0 posts statuses y) (cmd : List Byte) :
    Tally cfg limit y0 (posts + 1) statuses (y.attempt cfg cmd limit).sys := by
  refine ⟨?_, ?_, ?_, fun h0 => (h.memOk h0).post.waitDone⟩
  · rw [count_isTrigger_attempt cmd limit y hcfg, h.posts_eq, Nat.add_assoc]
  · have := h.ticks_le
    have := attempt_ticks_le (cfg := cfg) cmd limit y
    rw [count_isTick_attempt, Nat.succ_mul]
    omega
  · rw [filter_isStatusRead_attempt cmd limit y hcfg, h.statuses_eq]

theorem readStatus (h : Tally cfg limit y0 posts statuses y) :
    Tally cfg limit y0 posts ((y.readStatus cfg).status :: statuses) (y.readStatus cfg).sys := by
  refine ⟨?_, ?_, ?_, fun h0 => (h.memOk h0).readStatus⟩
  · rw [count_eq_of_filter (filter_readStatus y fun _ _ _ => rfl), h.posts_eq]
  · rw [count_eq_of_filter (filter_readStatus y fun _ _ _ => rfl)]
    exact h.ticks_le
  · rw [filter_readStatus y fun addr bs hbs => by simp [PortEvent.isStatusRead, hbs], h.statuses_eq,
      List.filter_cons_of_pos (by simp [PortEvent.isStatusRead])]
    rfl

end Sys.Tally

/-! ### The loop -/

section loop
variable {cfg : Config} {cmd : List Byte} {limit more n : Nat} {comp : List Byte} {y : Sys}

theorem goLoop_of_timeout (hseen : (y.attempt cfg cmd limit).seen = false) :
    goLoop cfg cmd limit more n comp y =
      ⟨.timedOut, BitVec.ofNat 64 (y.attempt cfg cmd limit).ticks, .timedOut, comp, (y.attempt cfg cmd limit).sys⟩ := by
  rw [Sys.attempt] at hseen ⊢
  cases more <;> simp [goLoop, hseen]

variable (hseen : (y.attempt cfg cmd limit).seen = true) {r : StatusRead}
  (hr : (y.attempt cfg cmd limit).sys.readStatus cfg = r)
include hseen hr

theorem goLoop_of_success (hclass : statusClass cfg r.status = .success) :
    goLoop cfg cmd limit more n comp y = ⟨.ok, BitVec.ofNat 64 (n + 1), .idle, r.comp, r.sys⟩ := by
  subst hr
  rw [Sys.attempt] at hseen hclass ⊢
  cases more <;> simp [goLoop, hseen, hclass]

theorem goLoop_of_rejected (hclass : statusClass cfg r.status = .rejected) :
    goLoop cfg cmd limit more n comp y = ⟨.deviceRejected, rejectInfo (byte0 cmd) r.status, .idle, r.comp, r.sys⟩ := by
  subst hr
  rw [Sys.attempt] at hseen hclass ⊢
  cases more <;> simp [goLoop, hseen, hclass]

theorem goLoop_of_spent (hclass : statusClass cfg r.status = .initializing) :
    goLoop cfg cmd limit 0 n comp y = ⟨.ioError, rejectInfo (byte0 cmd) r.status, .idle, r.comp, r.sys⟩ := by
  subst hr
  rw [Sys.attempt] at hseen hclass ⊢
  simp [goLoop, hseen, hclass]

theorem goLoop_of_retry (hclass : statusClass cfg r.status = .initializing) :
    goLoop cfg cmd limit (more + 1) n comp y = goLoop cfg cmd limit more (n + 1) r.comp r.sys := by
  subst hr
  rw [Sys.attempt] at hseen hclass ⊢
  rw [goLoop]
  simp [hseen, hclass]

end loop

/-- The last status `b` decides how DC.GO has ended after `posts` posts (spec/42_devcmd.md R187). -/
def GoEnd.Judged (cfg : Config) (cmd : List Byte) (posts : Nat) (b : Byte) (g : GoEnd) : Prop :=
  (g.code = .ok ∧ b = 0 ∧ g.info = BitVec.ofNat 64 posts) ∨
  (g.code = .ioError ∧ b = cfg.rc.init ∧ posts = cfg.retryBudget ∧ g.info = rejectInfo (byte0 cmd) b) ∨
  (g.code = .deviceRejected ∧ b ≠ 0 ∧ b ≠ cfg.rc.init ∧ g.info = rejectInfo (byte0 cmd) b)

/-- DC.GO, begun in `y0`, has ended in its attempt after `n` that read `RC_INIT`: with no status, or with one. -/
def GoEnd.EndsAfter (cfg : Config) (cmd : List Byte) (limit : Nat) (y0 : Sys) (n : Nat) (g : GoEnd) : Prop :=
  (g.code = .timedOut ∧ g.dcState = .timedOut ∧ g.info = BitVec.ofNat 64 limit ∧
    Sys.Tally cfg limit y0 (n + 1) (List.replicate n cfg.rc.init) g.sys) ∨
  (g.dcState = .idle ∧ ∃ b, Sys.Tally cfg limit y0 (n + 1) (b :: List.replicate n cfg.rc.init) g.sys ∧
    (y0.MemOk → g.comp.getD 0 0 = b) ∧ g.Judged cfg cmd (n + 1) b)

theorem GoEnd.EndsAfter.tally {cfg : Config} {cmd : List Byte} {limit n : Nat} {y0 : Sys} {g : GoEnd}
    (h : g.EndsAfter cfg cmd limit y0 n) : ∃ statuses, Sys.Tally cfg limit y0 (n + 1) statuses g.sys := by
  obtain ⟨-, -, -, htally⟩ | ⟨-, b, htally, -⟩ := h
  · exact ⟨_, htally⟩
  · exact ⟨_, htally⟩

section attempts
variable {cfg : Config} (hcfg : ChannelOk cfg) (cmd : List Byte) (limit : Nat) {n : Nat} (comp : List Byte) {y0 y : Sys}
  (h : Sys.Tally cfg limit y0 n (List.replicate n cfg.rc.init) y)
include hcfg h

theorem endsAfter_of_status (hseen : (y.attempt cfg cmd limit).seen = true) {r : StatusRead}
    (hr : (y.attempt cfg cmd limit).sys.readStatus cfg = r) {code : ResultCode} {info : Word64}
    (hjudged : GoEnd.Judged cfg cmd (n + 1) r.status ⟨code, info, .idle, r.comp, r.sys⟩) :
    GoEnd.EndsAfter cfg cmd limit y0 n ⟨code, info, .idle, r.comp, r.sys⟩ := by
  subst hr
  have htally := h.attempt hcfg cmd
  exact .inr ⟨rfl, _, htally.readStatus,
    fun h0 => Sys.readStatus_comp hcfg (htally.memOk h0) ((y.attempt_doneBit cmd limit).trans hseen), hjudged⟩

/-- An attempt that is not retried is DC.GO's last. -/
theorem goLoop_endsAfter {more : Nat}
    (hlast : (y.attempt cfg cmd limit).seen = true →
      statusClass cfg ((y.attempt cfg cmd limit).sys.readStatus cfg).status = .initializing →
      more = 0 ∧ n + 1 = cfg.retryBudget) :
    (goLoop cfg cmd limit more n comp y).EndsAfter cfg cmd limit y0 n := by
  cases hseen : (y.attempt cfg cmd limit).seen with
  | false =>
    rw [goLoop_of_timeout hseen, Sys.attempt_ticks_of_timeout _ _ _ hseen]
    exact .inl ⟨rfl, rfl, rfl, h.attempt hcfg cmd⟩
  | true =>
    generalize hr : (y.attempt cfg cmd limit).sys.readStatus cfg = r at hlast
    obtain ⟨hsuccess, hinit, hrejected⟩ := statusClasses cfg r.status hcfg.rc
    cases hclass : statusClass cfg r.status with
    | success =>
      rw [goLoop_of_success hseen hr hclass]
      exact endsAfter_of_status hcfg cmd limit h hseen hr (.inl ⟨rfl, hsuccess.mp hclass, rfl⟩)
    | initializing =>
      obtain ⟨rfl, hspent⟩ := hlast hseen hclass
      rw [goLoop_of_spent hseen hr hclass]
      exact endsAfter_of_status hcfg cmd limit h hseen hr (.inr (.inl ⟨rfl, hinit.mp hclass, hspent, rfl⟩))
    | rejected =>
      obtain ⟨hnz, hne⟩ := hrejected.mp hclass
      rw [goLoop_of_rejected hseen hr hclass]
      exact endsAfter_of_status hcfg cmd limit h hseen hr (.inr (.inr ⟨rfl, hnz, hne, rfl⟩))

/-- DC.GO ends within its budget: in each attempt that it does not end in it has read `RC_INIT`. -/
theorem goLoop_ends (more : Nat) (hbudget : n + (more + 1) = cfg.retryBudget) :
    ∃ k < cfg.retryBudget, (goLoop cfg cmd limit more n comp y).EndsAfter cfg cmd limit y0 k := by
  induction more generalizing n comp y with
  | zero => exact ⟨n, by omega, goLoop_endsAfter hcfg cmd limit comp h fun _ _ => ⟨rfl, hbudget⟩⟩
  | succ more ih =>
    by_cases hretry : (y.attempt cfg cmd limit).seen = true ∧
        statusClass cfg ((y.attempt cfg cmd limit).sys.readStatus cfg).status = .initializing
    · obtain ⟨hseen, hclass⟩ := hretry
      have htally := (h.attempt hcfg cmd).readStatus
      obtain ⟨-, hinit, -⟩ := statusClasses cfg _ hcfg.rc
      rw [hinit.mp hclass] at htally
      rw [goLoop_of_retry hseen rfl hclass]
      exact ih _ htally (by omega)
    · exact ⟨n, by omega, goLoop_endsAfter hcfg cmd limit comp h fun hseen hclass => absurd ⟨hseen, hclass⟩ hretry⟩

end attempts

end Sys2Proof.Machine

open Sys2Proof Sys2Proof.Machine

/-- Settles O36: the loop's tally of posts, ticks and statuses, from none on. -/
theorem dcGoEnds : Obligations.DcGoEnds := by
  intro m s hs hgate hcfg
  have hcfg := State.channelOk hcfg
  have hbudget := hcfg.budget
  obtain ⟨k, hk, hends⟩ := goLoop_ends hcfg s.ctxCmd (waitLimit s.cfg m) s.ctxComp (Sys.Tally.refl s.sys)
    (s.cfg.retryBudget - 1) (by omega)
  generalize hg : goLoop s.cfg s.ctxCmd (waitLimit s.cfg m) (s.cfg.retryBudget - 1) 0 s.ctxComp s.sys = g at hends
  obtain ⟨_, htally⟩ := hends.tally
  refine ⟨k + 1, g.dcState, g.comp, g.sys, g.code, g.info, exec_dcGo m hs hgate hg, Nat.succ_pos k, hk, htally.posts_eq,
    htally.ticks_le, ?_⟩
  rintro before rfl
  rw [Nat.add_sub_cancel, ← List.map_replicate (f := fun b : Byte => PortEvent.regRead (dcCompAddr s.cfg) [b])]
  refine hends.imp ?_ ?_
  · rintro ⟨hcode, hstate, hinfo, htally⟩
    exact ⟨hcode, hstate, hinfo, htally.statuses_eq⟩
  · rintro ⟨hstate, b, htally, hcomp, hjudged⟩
    exact ⟨hstate, b, htally.statuses_eq, hcomp, hjudged⟩

/-- Settles O34: nobody sets or clears the done bit but the post of DC.GO, so each wait ends as the first read says. -/
theorem silentDeviceTimesOut : Obligations.SilentDeviceTimesOut := by
  intro m s hquiet
  refine ⟨fun hs => ?_, fun hs hgate hcfg hwf => ?_⟩
  · obtain ⟨last, older, h⟩ := Sys.waitDone_shows s.cfg (waitLimit s.cfg m) 0 s.sys
    have hseen := Sys.Quiet.waitDone_seen (cfg := s.cfg) hquiet (waitLimit s.cfg m) 0
    cases hdone : s.sys.doneBit s.cfg with
    | true =>
      have hw := Sys.waitDone_of_done (left := waitLimit s.cfg m) (ticks := 0)
        ((Sys.Quiet.doneBit_regRead (cfg := s.cfg) hquiet).trans hdone)
      exact ⟨_, exec_dcWait m hs hw, fun _ => ⟨rfl, rfl, rfl, (congrArg (List.countP _) (Sys.regRead_trace ..)).trans rfl⟩,
        nofun⟩
    | false =>
      have hticks := h.count PortEvent.isTick
      rw [countP_isTick_waitTrace, h.limit (hseen.trans hdone)] at hticks
      have hexec := exec_dcWait m hs rfl
      rw [hseen, hdone, h.ticks_eq, Nat.zero_add, h.limit (hseen.trans hdone)] at hexec
      exact ⟨_, hexec, nofun, fun _ => ⟨rfl, rfl, rfl, hticks⟩⟩
  · have hcfg := State.channelOk hcfg
    obtain ⟨hposted, -, -⟩ := Sys.Quiet.post (cfg := s.cfg) hquiet s.ctxCmd
    have hseen : (s.sys.attempt s.cfg s.ctxCmd (waitLimit s.cfg m)).seen = false :=
      (hposted.waitDone_seen _ _).trans (hquiet.post_doneBit hcfg hwf _)
    have hlimit := Sys.attempt_ticks_of_timeout _ _ _ hseen
    have hticks := Sys.count_isTick_attempt (cfg := s.cfg) s.ctxCmd (waitLimit s.cfg m) s.sys
    have hloop := goLoop_of_timeout (more := s.cfg.retryBudget - 1) (n := 0) (comp := s.ctxComp) hseen
    rw [hlimit] at hticks hloop
    exact ⟨_, exec_dcGo m hs hgate hloop, rfl, rfl, rfl, rfl, rfl, Sys.count_isTrigger_attempt _ _ _ hcfg, hticks⟩

/-- Settles O39: the block reads the signature and, when it is the right one, one word more. -/
theorem diCheckReports : Obligations.DiCheckReports := by
  intro s
  by_cases hsig : (fieldAt 32 (s.sys.regRead s.cfg s.cfg.diBase.toNat 4).1 0 4 : Word32) = s.cfg.devInfoSignature
  · refine ⟨.ok, _, _, if_neg (not_not_intro hsig), .inl rfl, fun hquiet => ?_⟩
    obtain ⟨hword, hquiet', hmem, hreg, -, -⟩ :=
      Sys.Quiet.regRead (cfg := s.cfg) (addr := s.cfg.diBase.toNat) (n := 4) hquiet
    obtain ⟨hword', -, hmem', hreg', -, -⟩ :=
      hquiet'.regRead (cfg := s.cfg) (addr := s.cfg.diBase.toNat + 4) (n := 4)
    rw [hword, fieldAt_read] at hsig
    refine ⟨hmem'.trans hmem, hreg'.trans hreg, ?_⟩
    rintro sig rfl
    refine ⟨fun hne => absurd hsig hne, fun _ => ⟨rfl, ?_⟩⟩
    rw [hword', hreg]
    rfl
  · refine ⟨.badSignature, _, _, if_pos hsig, .inr rfl, fun hquiet => ?_⟩
    obtain ⟨hword, -, hmem, hreg, -, -⟩ :=
      Sys.Quiet.regRead (cfg := s.cfg) (addr := s.cfg.diBase.toNat) (n := 4) hquiet
    rw [hword, fieldAt_read] at hsig
    refine ⟨hmem, hreg, ?_⟩
    rintro sig rfl
    refine ⟨fun _ => ⟨rfl, ?_⟩, fun heq => absurd heq hsig⟩
    have hlt := leNat_lt (s.sys.reg.read s.cfg.diBase.toNat 4)
    rw [Memory.length_read] at hlt
    rw [hword, fieldAt_read]
    exact (BitVec.setWidth_ofNat_of_le_of_lt (by decide) hlt).symm

end

section
/-! PROOFS (family 43_adminq.md). What AQ.POSTWAIT leaves in the record whatever the device does: the command posted, the
poll loop, and the read of the answer (spec/43_adminq.md R201, R203). -/

namespace Sys2Proof.Machine

/-! ### Reads of ring memory -/

theorem Sys.readBytes_trace (cfg : Config) (addr f : Nat) (rem : List Nat) (acc : List Byte) (y : Sys) :
    (y.readBytes cfg addr f rem acc).2.trace = y.trace := by
  induction f generalizing rem acc y with
  | zero => rfl
  | succ f ih => exact (ih _ _ _).trans (y.turn_sched cfg).2

@[simp] theorem Sys.memRead_trace (cfg : Config) (addr n : Nat) (y : Sys) :
    (y.memRead cfg addr n).2.trace = .memRead addr (y.memRead cfg addr n).1 :: y.trace := by
  unfold Sys.memRead
  split
  · exact congrArg (_ :: ·) (y.turn_sched cfg).2
  · exact congrArg (_ :: ·) (Sys.readBytes_trace cfg addr n _ _ y)

/-- The read of a completion stands behind a read barrier (spec/41_completion_ring.md R165). -/
@[simp] theorem QcqUnit.readComp_trace (cfg : Config) (un : QcqUnit) (y : Sys) :
    (un.readComp cfg y).2.trace = .memRead (un.cqSlot un.cq.tail) (un.readComp cfg y).1 :: .rmb :: y.trace :=
  Sys.memRead_trace cfg _ _ y.rmb

/-! ### Posting -/

/-- The surroundings once the command is in the slot at the head and the new head is announced (R201 phase 1). -/
def QcqUnit.postAdmin (cfg : Config) (un : QcqUnit) (cmd : List Byte) (y : Sys) : Sys :=
  un.advHead.ring cfg (y.memWrite cfg (un.qSlot un.q.head) (firstBytes cfg.dcCmdBytes cmd))

theorem QcqUnit.postAdmin_trace (cfg : Config) (un : QcqUnit) (cmd : List Byte) (y : Sys) :
    (un.postAdmin cfg cmd y).trace =
      .regWrite un.conf.dbAddr.toNat
        (leBytes 8 (doorbellValue cfg (nextIndex un.q.head un.cap) un.conf.ringSel un.conf.qid).toNat) ::
      .wmb :: .memWrite (un.qSlot un.q.head) (firstBytes cfg.dcCmdBytes cmd) :: y.trace := by
  rw [postAdmin, ring_trace, Sys.memWrite_trace]
  rfl

/-! ### The poll loop -/

section loop
variable {cfg : Config} {un : QcqUnit} {y : Sys} {left ticks : Nat}

theorem QcqUnit.waitPending_of_pending (h : (un.pending cfg y).1 = true) :
    un.waitPending cfg left ticks y = ⟨true, ticks, (un.pending cfg y).2⟩ := by
  cases left <;> exact if_pos h

theorem QcqUnit.waitPending_zero (h : (un.pending cfg y).1 = false) :
    un.waitPending cfg 0 ticks y = ⟨false, ticks, (un.pending cfg y).2⟩ :=
  if_neg (Bool.eq_false_iff.mp h)

theorem QcqUnit.waitPending_succ (h : (un.pending cfg y).1 = false) :
    un.waitPending cfg (left + 1) ticks y = un.waitPending cfg left (ticks + 1) ((un.pending cfg y).2.tick cfg) :=
  if_neg (Bool.eq_false_iff.mp h)

end loop

/-- The first read of the loop is the oldest event of its record. -/
theorem pollTrace_append_singleton (a : Nat) (last b : Byte) (older : List Byte) :
    pollTrace a (last :: (older ++ [b])) = pollTrace a (last :: older) ++ [.tick, .memRead a [b]] := by
  induction older generalizing last with
  | nil => rfl
  | cons c older ih => simp only [List.cons_append, pollTrace, ih]

/-- What the end `w` of a poll loop from `y`, with `left` ticks until the limit and `ticks` consumed, shows: in the record
the last read and the older ones, and how they bear on the answer (spec/43_adminq.md R203). -/
structure WaitEnd.Polled (un : QcqUnit) (y : Sys) (left ticks : Nat) (last : Byte) (older : List Byte) (w : WaitEnd) :
    Prop where
  trace : w.sys.trace = pollTrace (un.colorAddr un.cq.tail) (last :: older) ++ y.trace
  color : w.seen = true ↔ last.getLsbD 7 = un.cq.doneColor
  older_color : ∀ c ∈ older, c.getLsbD 7 ≠ un.cq.doneColor
  ticks_eq : w.ticks = ticks + older.length
  within : older.length ≤ left
  limit : w.seen = false → older.length = left

theorem QcqUnit.waitPending_polled (cfg : Config) (un : QcqUnit) (left ticks : Nat) (y : Sys) :
    ∃ last older, (un.waitPending cfg left ticks y).Polled un y left ticks last older := by
  have htrace := un.pending_trace cfg y
  have hcolor := un.pending_iff cfg y
  induction left generalizing ticks y with
  | zero =>
    cases hpend : (un.pending cfg y).1 with
    | true =>
      rw [waitPending_of_pending hpend]
      exact ⟨_, [], htrace, hpend ▸ hcolor, nofun, rfl, le_rfl, nofun⟩
    | false =>
      rw [waitPending_zero hpend]
      exact ⟨_, [], htrace, hpend ▸ hcolor, nofun, rfl, le_rfl, fun _ => rfl⟩
  | succ left ih =>
    cases hpend : (un.pending cfg y).1 with
    | true =>
      rw [waitPending_of_pending hpend]
      exact ⟨_, [], htrace, hpend ▸ hcolor, nofun, rfl, Nat.zero_le _, nofun⟩
    | false =>
      rw [waitPending_succ hpend]
      obtain ⟨last, older, h⟩ := ih (ticks + 1) _ (un.pending_trace cfg _) (un.pending_iff cfg _)
      refine ⟨last, older ++ [(un.pending cfg y).2.mem.get (un.colorAddr un.cq.tail)], ?_, h.color, ?_, ?_, ?_,
        fun hseen => ?_⟩
      · rw [h.trace, Sys.tick_trace, htrace, pollTrace_append_singleton, List.append_assoc]
        rfl
      · have hfirst : ((un.pending cfg y).2.mem.get (un.colorAddr un.cq.tail)).getLsbD 7 ≠ un.cq.doneColor :=
          mt hcolor.mpr (Bool.eq_false_iff.mp hpend)
        simpa [or_imp, forall_and] using And.intro h.older_color hfirst
      · rw [h.ticks_eq, List.length_append, List.length_singleton]
        omega
      · simpa using h.within
      · simpa using h.limit hseen

end Sys2Proof.Machine
end

section
/-! PROOFS (family 43_adminq.md). What AQ.POSTWAIT answers (spec/43_adminq.md R201 to R206). -/

namespace Sys2Proof.Machine

/-- The status is the first byte of the completion (spec/30_encoding.md R115). -/
theorem adminStatus_eq (c : List Byte) : adminStatus c = c.getD 0 0 := by
  cases c with
  | nil => rfl
  | cons b c => exact BitVec.ofNat_toNat 8 b |>.trans (BitVec.setWidth_eq b)

/-- The wait of AQ.POSTWAIT for its answer, from the posting on (R201 phases 1 and 2). -/
def QcqUnit.postAndWait (cfg : Config) (un : QcqUnit) (cmd : List Byte) (y : Sys) : WaitEnd :=
  un.advHead.waitPending cfg cfg.adminqTimeoutTicks 0 (un.postAdmin cfg cmd y)

theorem QcqUnit.postAndWait_polled (cfg : Config) (un : QcqUnit) (cmd : List Byte) (y : Sys) :
    ∃ last older, (un.postAndWait cfg cmd y).Polled un.advHead (un.postAdmin cfg cmd y) cfg.adminqTimeoutTicks 0 last older :=
  un.advHead.waitPending_polled cfg _ 0 _

/-- The state with the answer `c` taken: both tails have moved on, and `CTX.comp` holds it (R201 phase 3). -/
def State.answerAdmin (s : State) (u : UnitId) (un : QcqUnit) (c : List Byte × Sys) : State :=
  { (s.setUnit u un.advHead.consume.advTail).withSys c.2 with ctxComp := c.1 }

section
variable {u : UnitId} {s : State} {un : QcqUnit} (hun : ActsOn (.aqPostWait u) u s un)
  (hready : un.adminReady s.cfg = true)
include hun hready

theorem exec_aqPostWait_of_down (hfw : s.sys.fwRunning = false) : exec (.aqPostWait u) s = s.raise .firmwareDown 0 := by
  refine (State.onUnit_require hun hready _).trans ?_
  rw [hfw]
  rfl

variable (hfw : s.sys.fwRunning = true)
include hfw

theorem exec_aqPostWait_of_full (hfull : un.space = 0) : exec (.aqPostWait u) s = s.raise .noSpace 0 := by
  refine (State.onUnit_require hun hready _).trans ?_
  rw [hfw, hfull]
  rfl

/-- The three ends of an AQ.POSTWAIT that posts, by how its wait ended and by the completion then read (R204 to R206). -/
theorem exec_aqPostWait (hspace : 1 ≤ un.space) (hq : un.qFits s.cfg = true) (hcq : un.cqFits s.cfg = true)
    {w : WaitEnd} (hw : un.postAndWait s.cfg s.ctxCmd s.sys = w) {c : List Byte × Sys}
    (hc : un.advHead.readComp s.cfg w.sys = c) :
    exec (.aqPostWait u) s =
      if !w.seen then ((s.setUnit u un.advHead).withSys w.sys).raise .timedOut (BitVec.ofNat 64 w.ticks)
      else if c.1.getD 0 0 ≠ 0 then
        (s.answerAdmin u un c).raise .deviceRejected (rejectInfo s.cmdOpcode (c.1.getD 0 0))
      else (s.answerAdmin u un c).done (BitVec.ofNat 64 w.ticks) := by
  subst hw hc
  refine (State.onUnit_require hun hready _).trans ?_
  rw [hfw, if_neg (by decide), if_neg hspace.not_gt, hq, hcq, ← adminStatus_eq]
  rfl

end

/-! ### The posting under a silent device -/

/-- The posting under a silent device writes the slot at the head, and nothing else of ring memory. -/
theorem Sys.Quiet.postAdmin {y : Sys} (h : y.Quiet) (hmem : y.MemOk) (cfg : Config) (un : QcqUnit) (cmd : List Byte) :
    (un.postAdmin cfg cmd y).Quiet ∧
    (∀ k < cfg.dcCmdBytes, (un.postAdmin cfg cmd y).mem.get (un.qSlot un.q.head + k) = cmd.getD k 0) ∧
    ∀ a, a < un.qSlot un.q.head ∨ un.qSlot un.q.head + cfg.dcCmdBytes ≤ a →
      (un.postAdmin cfg cmd y).mem.get a = y.mem.get a := by
  obtain ⟨hquiet, -, -, hslot, hout⟩ := h.memWrite (cfg := cfg) (addr := un.qSlot un.q.head)
    (bs := firstBytes cfg.dcCmdBytes cmd) hmem
  obtain ⟨hquiet₁, hmem₁, -, -, -⟩ := (hquiet.record .wmb).regWrite (cfg := cfg) (addr := un.advHead.conf.dbAddr.toNat)
    (bs := leBytes 8 (un.advHead.doorbell cfg).toNat)
  rw [length_firstBytes] at hslot hout
  refine ⟨hquiet₁, fun k hk => ?_, fun a ha => ?_⟩
  · exact (congrArg (Memory.get · _) hmem₁).trans ((hslot k hk).trans (getD_firstBytes cmd hk))
  · exact (congrArg (Memory.get · a) hmem₁).trans (hout a ha)

/-- The wait under a silent device, with the answer in place: it ends at the first read, with no tick. The posting has not
touched the slot of the answer (R203, R204). -/
theorem Sys.Quiet.postAndWait {y : Sys} (h : y.Quiet) (hmem : y.MemOk) {cfg : Config} {un : QcqUnit}
    (hsize : un.cq.descSize.toNat = cfg.dcCompBytes) (hcomp : 1 ≤ cfg.dcCompBytes)
    (hapart : un.cqSlot un.cq.tail + cfg.dcCompBytes ≤ un.qSlot un.q.head ∨
      un.qSlot un.q.head + cfg.dcCmdBytes ≤ un.cqSlot un.cq.tail)
    (htail : un.tailPending y = true) (cmd : List Byte) :
    ∃ y', un.postAndWait cfg cmd y = ⟨true, 0, y'⟩ ∧ y'.Quiet ∧
      (∀ k < cfg.dcCmdBytes, y'.mem.get (un.qSlot un.q.head + k) = cmd.getD k 0) ∧
      (∀ k < cfg.dcCompBytes, y'.mem.get (un.cqSlot un.cq.tail + k) = y.mem.get (un.cqSlot un.cq.tail + k)) ∧
      y'.trace =
        .memRead (un.colorAddr un.cq.tail) [y.mem.get (un.colorAddr un.cq.tail)] ::
        .regWrite un.conf.dbAddr.toNat
          (leBytes 8 (doorbellValue cfg (nextIndex un.q.head un.cap) un.conf.ringSel un.conf.qid).toNat) ::
        .wmb :: .memWrite (un.qSlot un.q.head) (firstBytes cfg.dcCmdBytes cmd) :: y.trace := by
  have htrace := un.postAdmin_trace cfg cmd y
  obtain ⟨hquiet, hslot, hout⟩ := h.postAdmin hmem cfg un cmd
  rw [QcqUnit.postAndWait]
  generalize un.postAdmin cfg cmd y = z at htrace hquiet hslot hout
  have hanswer : ∀ k < cfg.dcCompBytes, z.mem.get (un.cqSlot un.cq.tail + k) = y.mem.get (un.cqSlot un.cq.tail + k) :=
    fun k hk => hout _ (by omega)
  have hcolor : z.mem.get (un.colorAddr un.cq.tail) = y.mem.get (un.colorAddr un.cq.tail) := by
    rw [QcqUnit.colorAddr, hsize, Nat.add_sub_assoc hcomp]
    exact hanswer _ (by omega)
  have htail' : un.advHead.tailPending z = true := (congrArg (BitVec.getLsbD · 7 == un.cq.doneColor) hcolor).trans htail
  obtain ⟨hpend, hquiet', hmem', -, htrace'⟩ := hquiet.pending cfg un.advHead
  refine ⟨_, QcqUnit.waitPending_of_pending (hpend.trans htail'), hquiet', ?_, ?_, ?_⟩
  · rwa [hmem']
  · rwa [hmem']
  · rw [htrace', htrace, ← hcolor]
    rfl

/-- The read of a completion under a silent device: the bytes of the slot, and ring memory stays. -/
theorem Sys.Quiet.readComp {y : Sys} (h : y.Quiet) (cfg : Config) (un : QcqUnit) :
    (un.readComp cfg y).1 = y.mem.read (un.cqSlot un.cq.tail) un.cq.descSize.toNat ∧
    (un.readComp cfg y).2.mem = y.mem := by
  obtain ⟨hread, -, hmem, -, -⟩ := (h.record .rmb).memRead (cfg := cfg) (addr := un.cqSlot un.cq.tail)
    (n := un.cq.descSize.toNat)
  exact ⟨hread, hmem⟩

end Sys2Proof.Machine

open Sys2Proof Sys2Proof.Machine

/-- Settles O40: the two tests of phase 0, each of which ends the operation in the state it began in. -/
theorem adminFailsFast : Obligations.AdminFailsFast := fun _ _ _ hun hready =>
  ⟨exec_aqPostWait_of_down hun hready, exec_aqPostWait_of_full hun hready⟩

/-- Settles O41: the poll loop shows how it ended (`Polled`); each of the three ends adds to its record what follows. -/
theorem adminOutcomes : Obligations.AdminOutcomes := by
  intro u s un hun hready hfw hspace hq hcq h hh
  subst hh
  obtain ⟨b, older, hpoll⟩ := un.postAndWait_polled s.cfg s.ctxCmd s.sys
  have hexec := exec_aqPostWait hun hready hfw hspace hq hcq rfl rfl
  have hread := un.advHead.readComp_trace s.cfg (un.postAndWait s.cfg s.ctxCmd s.sys).sys
  generalize un.postAndWait s.cfg s.ctxCmd s.sys = w at hpoll hexec hread
  generalize un.advHead.readComp s.cfg w.sys = c at hexec hread
  have htrace := hpoll.trace
  have hticks : w.ticks = older.length := hpoll.ticks_eq.trans (Nat.zero_add _)
  rw [QcqUnit.postAdmin_trace] at htrace
  cases hseen : w.seen with
  | false =>
    have hcolor : b.getLsbD 7 ≠ un.cq.doneColor := mt hpoll.color.mpr (Bool.eq_false_iff.mp hseen)
    have hlimit := hpoll.limit hseen
    rw [hseen, hticks, hlimit] at hexec
    exact ⟨un.cq, un.q.tail, s.ctxComp, w.sys, .timedOut, _, b, older, [], hexec, htrace, hpoll.within, hpoll.older_color,
      .inl ⟨rfl, rfl, hlimit, hcolor, rfl, rfl, rfl, rfl⟩⟩
  | true =>
    have hcolor : b.getLsbD 7 = un.cq.doneColor := hpoll.color.mp hseen
    rw [htrace] at hread
    rw [hseen, hticks] at hexec
    by_cases hstatus : c.1.getD 0 0 = 0
    · exact ⟨_, _, c.1, c.2, .ok, _, b, older, [.memRead (un.cqSlot un.cq.tail) c.1, .rmb],
        hexec.trans (if_neg (not_not_intro hstatus)), hread, hpoll.within, hpoll.older_color,
        .inr ⟨rfl, rfl, hcolor, rfl, .inl ⟨rfl, hstatus, rfl⟩⟩⟩
    · exact ⟨_, _, c.1, c.2, .deviceRejected, _, b, older, [.memRead (un.cqSlot un.cq.tail) c.1, .rmb],
        hexec.trans (if_pos hstatus), hread, hpoll.within, hpoll.older_color,
        .inr ⟨rfl, rfl, hcolor, rfl, .inr ⟨rfl, hstatus, rfl⟩⟩⟩

/-- Settles O42: under a silent device the wait ends with the answer at once, and the read of the slot finds its bytes. -/
theorem adminCompletes : Obligations.AdminCompletes := by
  intro u s un hun hready hfw hspace hq hcq hquiet hmem hcomp hapart htail h hh
  subst hh
  obtain ⟨-, -, -, -, hsize⟩ := QcqUnit.adminReady_iff.mp hready
  obtain ⟨y, hwait, hquiet', hslot, hanswer, htrace⟩ :=
    Sys.Quiet.postAndWait hquiet hmem hsize hcomp hapart htail s.ctxCmd
  have hexec := exec_aqPostWait hun hready hfw hspace hq hcq hwait rfl
  obtain ⟨hread, hmem'⟩ := hquiet'.readComp s.cfg un.advHead
  have htrace' := un.advHead.readComp_trace s.cfg y
  generalize un.advHead.readComp s.cfg y = c at hexec hread hmem' htrace'
  have hbytes : c.1 = y.mem.read (un.cqSlot un.cq.tail) s.cfg.dcCompBytes := by
    rw [hread, ← hsize]
    rfl
  refine ⟨c.1, c.2, ?_, fun k hk => ?_, fun k hk => ?_, ?_, ?_⟩
  · rw [hbytes, Memory.length_read]
  · rw [hbytes, Memory.getD_read _ hk]
    exact hanswer k hk
  · rw [hmem']
    exact hslot k hk
  · rw [htrace', htrace]
    rfl
  · by_cases hstatus : c.1.getD 0 0 = 0
    · rw [if_pos hstatus, if_pos hstatus]
      exact hexec.trans (if_neg (not_not_intro hstatus))
    · rw [if_neg hstatus, if_neg hstatus]
      exact hexec.trans (if_pos hstatus)

end

section
/-! PROOFS (family 44_notifyq.md). The newness test (spec/44_notifyq.md R217), and the completion ring over one revolution:
the tail comes back to its slot with the other colour (spec/41_completion_ring.md R166, R169). -/

namespace Sys2Proof.Machine

/-- A 16-bit word is positive as a signed one from 1 to 32767 (spec/00_scope.md R8). -/
theorem s16_pos_iff (v : Word16) : 0 < s16 v ↔ 1 ≤ v.toNat ∧ v.toNat ≤ 32767 := by
  have := v.isLt
  rw [s16, BitVec.toInt_eq_toNat_cond]
  split <;> omega

/-! ### One revolution -/

/-- The colour of a revolution is not that of the next (R169). -/
theorem xor_revolution_succ (b : Bool) (n : Nat) : (b ^^ ((n + 1) % 2 == 1)) = !(b ^^ (n % 2 == 1)) := by
  obtain h | h := Nat.mod_two_eq_zero_or_one n <;> simp [h, Nat.add_mod]

theorem QcqUnit.hasConsumed.consume {cfg : Config} {un : QcqUnit} {m : Nat} (h : un.hasConsumed cfg m)
    (hpos : 0 < un.cap) (hcap : un.cap ≤ 65536) : un.consume.hasConsumed cfg (m + 1) := by
  obtain ⟨htail, hcolor⟩ := h
  have hlt := Nat.mod_lt m hpos
  have hsplit := Nat.mod_add_div m un.cap
  show (nextIndex un.cq.tail un.cap).toNat = (m + 1) % un.cap ∧
    (un.cq.doneColor ^^ un.isLast un.cq.tail) = (cfg.initDoneColor ^^ ((m + 1) / un.cap % 2 == 1))
  rw [nextIndex_toNat (htail ▸ hlt) hcap, xor_isLast, htail, hcolor]
  by_cases hlast : m % un.cap + 1 = un.cap
  · obtain ⟨hdiv, hmod⟩ := (Nat.div_mod_unique (a := m + 1) (c := 0) (d := m / un.cap + 1) hpos).mpr
      ⟨by rw [Nat.mul_succ]; omega, hpos⟩
    rw [hdiv, hmod, if_pos hlast, if_pos hlast, xor_revolution_succ]
    exact ⟨rfl, rfl⟩
  · obtain ⟨hdiv, hmod⟩ := (Nat.div_mod_unique (a := m + 1) (c := m % un.cap + 1) (d := m / un.cap) hpos).mpr
      ⟨by omega, by omega⟩
    rw [hdiv, hmod, if_neg hlast, if_neg hlast]
    exact ⟨rfl, rfl⟩

theorem QcqUnit.hasConsumed_consumerPos (cfg : Config) {un : QcqUnit} (htail : un.cq.tail.toNat < un.cap) :
    un.hasConsumed cfg (un.consumerPos cfg) := by
  have hpos : 0 < un.cap := by omega
  rw [hasConsumed, consumerPos]
  split
  · next h => simp [Nat.mod_eq_of_lt htail, Nat.div_eq_of_lt htail, h]
  · next h => simp [Nat.mod_eq_of_lt htail, Nat.div_eq_of_lt htail, Nat.add_div_right _ hpos, Bool.eq_not_of_ne h]

/-- The consume step moves the tail and the colour only. -/
theorem QcqUnit.iterate_consume_eq (un : QcqUnit) (k : Nat) :
    consume^[k] un = { un with cq := { un.cq with
      tail := (consume^[k] un).cq.tail, doneColor := (consume^[k] un).cq.doneColor } } := by
  induction k with
  | zero => rfl
  | succ k ih =>
    rw [Function.iterate_succ_apply', ih]
    rfl

theorem QcqUnit.hasConsumed.iterate_consume {cfg : Config} {un : QcqUnit} {m : Nat} (h : un.hasConsumed cfg m)
    (hpos : 0 < un.cap) (hcap : un.cap ≤ 65536) (k : Nat) : (QcqUnit.consume^[k] un).hasConsumed cfg (m + k) := by
  induction k generalizing un m with
  | zero => exact h
  | succ k ih =>
    rw [← Nat.add_assoc, Nat.add_right_comm]
    exact ih (h.consume hpos hcap) hpos hcap

/-- A whole revolution flips the colour and changes nothing else. -/
theorem QcqUnit.iterate_consume_cap {un : QcqUnit} (htail : un.cq.tail.toNat < un.cap) (hcap : un.cap ≤ 65536) :
    consume^[un.cap] un = { un with cq := { un.cq with doneColor := !un.cq.doneColor } } := by
  have hpos : 0 < un.cap := by omega
  have hold := hasConsumed_consumerPos Config.default htail
  have hnew := hold.iterate_consume hpos hcap un.cap
  have hcapAfter : (consume^[un.cap] un).cap = un.cap := by rw [iterate_consume_eq]; rfl
  obtain ⟨hmod, hcolor⟩ := hold
  rw [hasConsumed, hcapAfter, Nat.add_mod_right, ← hmod, Nat.add_div_right _ hpos, xor_revolution_succ, ← hcolor] at hnew
  obtain ⟨htail', hcolor'⟩ := hnew
  rw [iterate_consume_eq, BitVec.eq_of_toNat_eq htail', hcolor']

/-- What is pending at the tail is not when the tail comes back to it, while memory stays as it is. -/
theorem QcqUnit.tailPending_iterate_consume_cap {un : QcqUnit} {y : Sys} (htail : un.cq.tail.toNat < un.cap)
    (hcap : un.cap ≤ 65536) (h : un.tailPending y = true) : (consume^[un.cap] un).tailPending y = false := by
  rw [iterate_consume_cap htail hcap]
  have hcolor : (y.mem.get (un.colorAddr un.cq.tail)).getLsbD 7 = un.cq.doneColor := beq_iff_eq.mp h
  show ((y.mem.get (un.colorAddr un.cq.tail)).getLsbD 7 == !un.cq.doneColor) = false
  rw [hcolor]
  exact beq_eq_false_iff_ne.mpr (Bool.self_ne_not _)

end Sys2Proof.Machine

open Sys2Proof Sys2Proof.Machine

/-- Settles O43: `d` is the difference on 16 bits, and positive as a signed one where its top bit is clear. -/
theorem newnessTest : Obligations.NewnessTest := by
  intro eid last d hd
  have hdiff : (eid - last).toNat = d := by
    rw [BitVec.toNat_sub, hd]
    omega
  rw [isNewEvent, decide_eq_true_iff, s16_pos_iff, hdiff]

end

section
/-! PROOFS (family 44_notifyq.md). The loop of NQ.POLL by the records it drains (spec/44_notifyq.md R216): one round, the
whole loop as a relation, and what no run of it touches. -/

namespace Sys2Proof.Machine

/-! ### One round -/

/-- The read of the record at the tail, after the test that found it pending (R216). -/
def QcqUnit.readEvent (cfg : Config) (un : QcqUnit) (y : Sys) : List Byte × Sys := un.readComp cfg (un.pending cfg y).2

/-- The record `c` is new to the unit (R217). -/
def QcqUnit.isNews (cfg : Config) (un : QcqUnit) (c : List Byte) : Bool := isNewEvent (eventId cfg.event c) un.lastSeenId

/-- The unit once the record `c` is consumed, its id kept when it is new (R216). -/
def QcqUnit.takeEvent (cfg : Config) (un : QcqUnit) (c : List Byte) : QcqUnit :=
  { un.consume with lastSeenId := if un.isNews cfg c then eventId cfg.event c else un.lastSeenId }

/-- The surroundings after a round that read `e`: a new record is dispatched, unless the loop drains only (R216, R218). -/
def QcqUnit.dispatch (cfg : Config) (process : Bool) (un : QcqUnit) (e : List Byte × Sys) : Sys :=
  e.2.dispatchEvent cfg (process && un.isNews cfg e.1) (eventCode cfg.event e.1)

section round
variable {cfg : Config} {process : Bool} {fuel count fresh : Nat} {un : QcqUnit} {y : Sys}

theorem notifyLoop_of_idle (h : (un.pending cfg y).1 = false) :
    notifyLoop cfg process (fuel + 1) un count fresh y = some ⟨un, count, fresh, (un.pending cfg y).2⟩ := by
  rw [notifyLoop, h]
  rfl

theorem notifyLoop_of_event (h : (un.pending cfg y).1 = true) {e : List Byte × Sys} (he : un.readEvent cfg y = e) :
    notifyLoop cfg process (fuel + 1) un count fresh y =
      notifyLoop cfg process fuel (un.takeEvent cfg e.1) (count + 1) (fresh + if un.isNews cfg e.1 then 1 else 0)
        (un.dispatch cfg process e) := by
  subst he
  rw [notifyLoop, h]
  cases hnew : un.isNews cfg (un.readEvent cfg y).1 with
  | true =>
    rw [QcqUnit.takeEvent, QcqUnit.dispatch, hnew, Bool.and_true]
    exact if_pos hnew
  | false =>
    rw [QcqUnit.takeEvent, QcqUnit.dispatch, hnew, Bool.and_false]
    exact if_neg (Bool.eq_false_iff.mp hnew)

end round

/-! ### The whole loop -/

/-- NQ.POLL's loop, started with the unit `un` and the surroundings `y`, drains `count` records, `news` of them new, and
leaves the unit `un'` and the surroundings `y'`. -/
inductive Drains (cfg : Config) (process : Bool) : QcqUnit → Sys → Nat → Nat → QcqUnit → Sys → Prop
  | idle {un : QcqUnit} {y : Sys} (hpend : (un.pending cfg y).1 = false) :
      Drains cfg process un y 0 0 un (un.pending cfg y).2
  | event {un un' : QcqUnit} {y y' : Sys} {count news : Nat} {e : List Byte × Sys} (hpend : (un.pending cfg y).1 = true)
      (he : un.readEvent cfg y = e)
      (hrest : Drains cfg process (un.takeEvent cfg e.1) (un.dispatch cfg process e) count news un' y') :
      Drains cfg process un y (count + 1) (news + if un.isNews cfg e.1 then 1 else 0) un' y'

/-- Every end of the loop is the end of a run. -/
theorem drains_of_notifyLoop {cfg : Config} {process : Bool} {fuel count fresh : Nat} {un : QcqUnit} {y : Sys}
    {d : DrainEnd} (h : notifyLoop cfg process fuel un count fresh y = some d) :
    ∃ n news, Drains cfg process un y n news d.un d.sys := by
  induction fuel generalizing un count fresh y with
  | zero => cases h
  | succ fuel ih =>
    cases hpend : (un.pending cfg y).1 with
    | false =>
      rw [notifyLoop_of_idle hpend] at h
      cases h
      exact ⟨_, _, .idle hpend⟩
    | true =>
      rw [notifyLoop_of_event hpend rfl] at h
      obtain ⟨n, news, hrest⟩ := ih h
      exact ⟨_, _, .event hpend rfl hrest⟩

namespace Drains

variable {cfg : Config} {process : Bool} {un un' : QcqUnit} {y y' : Sys} {count news : Nat}

/-- The loop needs one test more than there are records. -/
theorem notifyLoop (h : Drains cfg process un y count news un' y') {fuel : Nat} (hfuel : count < fuel) (m f : Nat) :
    Machine.notifyLoop cfg process fuel un m f y = some ⟨un', m + count, f + news, y'⟩ := by
  induction h generalizing fuel m f with
  | idle hpend =>
    obtain ⟨fuel, rfl⟩ := Nat.exists_eq_add_of_lt hfuel
    rw [Nat.zero_add, notifyLoop_of_idle hpend]
    rfl
  | event hpend he _ ih =>
    obtain ⟨fuel, rfl⟩ := Nat.exists_eq_add_of_le' (Nat.one_le_of_lt hfuel)
    rw [notifyLoop_of_event hpend he, ih (by omega)]
    congr 2 <;> omega

/-- Where a record is pending, the loop does its round first. -/
theorem of_pending (h : Drains cfg process un y count news un' y') (hpend : (un.pending cfg y).1 = true)
    {e : List Byte × Sys} (he : un.readEvent cfg y = e) :
    ∃ count₁ news₁, count = count₁ + 1 ∧ news = news₁ + (if un.isNews cfg e.1 then 1 else 0) ∧
      Drains cfg process (un.takeEvent cfg e.1) (un.dispatch cfg process e) count₁ news₁ un' y' := by
  cases h with
  | idle hidle => cases hpend.symm.trans hidle
  | event _ he' hrest =>
    cases he.symm.trans he'
    exact ⟨_, _, rfl, rfl, hrest⟩

/-- Draining touches no descriptor ring (R215). -/
theorem ring_eq (h : Drains cfg process un y count news un' y') : un'.q = un.q ∧ un'.side = un.side := by
  induction h with
  | idle _ => exact ⟨rfl, rfl⟩
  | event _ _ _ ih => exact ih

end Drains

/-! ### The pulses in the record -/

theorem QcqUnit.readEvent_trace (cfg : Config) (un : QcqUnit) (y : Sys) :
    (un.readEvent cfg y).2.trace =
      .memRead (un.cqSlot un.cq.tail) (un.readEvent cfg y).1 :: .rmb :: (un.pending cfg y).2.trace :=
  un.readComp_trace cfg _

theorem QcqUnit.count_isPulse_pending (cfg : Config) (un : QcqUnit) (y : Sys) :
    (un.pending cfg y).2.count PortEvent.isPulse = y.count PortEvent.isPulse := by
  rw [Sys.count, pending_trace]
  exact List.countP_cons_of_neg nofun

theorem QcqUnit.count_isPulse_readEvent (cfg : Config) (un : QcqUnit) (y : Sys) :
    (un.readEvent cfg y).2.count PortEvent.isPulse = y.count PortEvent.isPulse := by
  rw [Sys.count, readEvent_trace, List.countP_cons_of_neg Bool.false_ne_true, List.countP_cons_of_neg Bool.false_ne_true]
  exact un.count_isPulse_pending cfg y

/-- Draining only makes no pulse (R218). -/
theorem Drains.count_isPulse {cfg : Config} {un un' : QcqUnit} {y y' : Sys} {count news : Nat}
    (h : Drains cfg false un y count news un' y') : y'.count PortEvent.isPulse = y.count PortEvent.isPulse := by
  induction h with
  | @idle un y _ => exact un.count_isPulse_pending cfg y
  | @event un _ y _ _ _ e _ he _ ih =>
    subst he
    exact ih.trans (un.count_isPulse_readEvent cfg y)

end Sys2Proof.Machine
end

section
/-! PROOFS (family 44_notifyq.md). The loop of NQ.POLL under a silent device: a round access by access (spec/44_notifyq.md
R216, spec/41_completion_ring.md R165), and the end of the loop within a revolution. -/

namespace Sys2Proof.Machine

theorem Sys.dispatchEvent_trace (cfg : Config) (process : Bool) (code : Word16) (y : Sys) :
    (y.dispatchEvent cfg process code).trace = (if process then pulseOf cfg code else []) ++ y.trace := by
  unfold Sys.dispatchEvent pulseOf
  split_ifs <;> rfl

/-- The pending tail slot `c` is read behind a read barrier and dispatched when it is new, and nothing of the two stores
changes. -/
theorem Sys.Quiet.eventRound {y : Sys} (h : y.Quiet) (cfg : Config) (process : Bool) (un : QcqUnit) {c : List Byte}
    (hc : c = y.mem.read (un.cqSlot un.cq.tail) un.cq.descSize.toNat) {e : List Byte × Sys} (he : un.readEvent cfg y = e) :
    e.1 = c ∧ (un.dispatch cfg process e).Quiet ∧ (un.dispatch cfg process e).mem = y.mem ∧
    (un.dispatch cfg process e).reg = y.reg ∧
    (un.dispatch cfg process e).trace =
      (if process && un.isNews cfg c then pulseOf cfg (eventCode cfg.event c) else []) ++
        .memRead (un.cqSlot un.cq.tail) c :: .rmb ::
        .memRead (un.colorAddr un.cq.tail) [y.mem.get (un.colorAddr un.cq.tail)] :: y.trace := by
  subst he
  have hs : y.Holds (fun m => m = y.mem) (fun r => r = y.reg) := ⟨h, rfl, rfl⟩
  obtain ⟨-, hquiet, hmem, -, htrace⟩ := h.pending cfg un
  obtain ⟨hread, -⟩ := hquiet.readComp cfg un
  have hbytes : (un.readEvent cfg y).1 = c := by rw [hc, ← hmem]; exact hread
  obtain ⟨hquiet', hmem', hreg'⟩ := ((hs.pending (cfg := cfg) un).readComp (cfg := cfg) un).dispatchEvent (cfg := cfg)
    (process && un.isNews cfg (un.readEvent cfg y).1) (eventCode cfg.event (un.readEvent cfg y).1)
  refine ⟨hbytes, hquiet', hmem', hreg', ?_⟩
  rw [QcqUnit.dispatch, Sys.dispatchEvent_trace, QcqUnit.readEvent_trace, hbytes, htrace]

/-- The pending tests after a record is taken are those after a consume step: they do not read the id register. -/
theorem QcqUnit.iterate_consume_takeEvent (cfg : Config) (un : QcqUnit) (c : List Byte) (k : Nat) :
    (consume^[k] (un.takeEvent cfg c)).tailPending = (consume^[k + 1] un).tailPending := by
  have hid : Function.Semiconj (fun v : QcqUnit => { v with lastSeenId := (un.takeEvent cfg c).lastSeenId })
      consume consume := fun _ => rfl
  have hiter := congrArg tailPending (hid.iterate_right k un.consume)
  exact hiter.symm

/-- While memory stays as it is, the loop ends at the latest at a slot that is not pending. -/
theorem Sys.Quiet.exists_drains {cfg : Config} {process : Bool} {un : QcqUnit} {y : Sys} {k : Nat} (h : y.Quiet)
    (hstop : (QcqUnit.consume^[k] un).tailPending y = false) :
    ∃ count news un' y', count ≤ k ∧ Drains cfg process un y count news un' y' := by
  induction k generalizing un y with
  | zero => exact ⟨0, 0, un, _, le_rfl, .idle ((h.pending cfg un).1.trans hstop)⟩
  | succ k ih =>
    cases hpend : (un.pending cfg y).1 with
    | false => exact ⟨0, 0, un, _, Nat.zero_le _, .idle hpend⟩
    | true =>
      obtain ⟨-, hquiet, hmem, -, -⟩ := h.eventRound cfg process un rfl rfl
      have hstop' : (QcqUnit.consume^[k] (un.takeEvent cfg (un.readEvent cfg y).1)).tailPending
          (un.dispatch cfg process (un.readEvent cfg y)) = false := by
        rw [QcqUnit.iterate_consume_takeEvent, QcqUnit.tailPending, hmem]
        exact hstop
      obtain ⟨count, news, un', y', hle, hrest⟩ := ih hquiet hstop'
      exact ⟨_, _, un', y', Nat.succ_le_succ hle, .event hpend rfl hrest⟩

/-- Under a silent device a bound ring is drained within a revolution (R221). -/
theorem Sys.Quiet.exists_drains_cap {cfg : Config} {process : Bool} {un : QcqUnit} {y : Sys} (h : y.Quiet)
    (htail : un.cq.tail.toNat < un.cap) (hcap : un.cap ≤ 65536) :
    ∃ count news un' y', count ≤ un.cap ∧ Drains cfg process un y count news un' y' := by
  cases hpend : un.tailPending y with
  | false =>
    obtain ⟨count, news, un', y', hle, hrun⟩ := h.exists_drains (cfg := cfg) (process := process) (k := 0) hpend
    exact ⟨count, news, un', y', hle.trans (Nat.zero_le _), hrun⟩
  | true => exact h.exists_drains (QcqUnit.tailPending_iterate_consume_cap htail hcap hpend)

end Sys2Proof.Machine
end

section
/-! PROOFS (family 44_notifyq.md). What NQ.POLL answers once its preconditions hold (spec/44_notifyq.md R215 to R220), and
the polls of the fast path with nothing pending (spec/45_txrx.md R235, R245). -/

namespace Sys2Proof.Machine

/-! ### A unit replaced -/

theorem State.setUnit_self {s : State} {u : UnitId} {un : QcqUnit} (h : s.units[u.toNat]? = some un) :
    s.setUnit u un = s := by
  obtain ⟨hlt, hget⟩ := List.getElem?_eq_some_iff.mp h
  rw [State.setUnit, ← hget, List.set_getElem_self]

/-- Only the last of two writes of a unit stands. -/
theorem State.setUnit_setUnit (s : State) (u : UnitId) (v v' : QcqUnit) (y : Sys) :
    ((s.setUnit u v).withSys y).setUnit u v' = (s.setUnit u v').withSys y :=
  congrArg (fun units => { s with units := units, sys := y }) (List.set_set ..)

/-- The operation may act on the unit `un'` in place of `un`: its role is part of the configuration. -/
theorem State.actsOn_setUnit {i : Instr} {u : UnitId} {s : State} {un un' : QcqUnit} (h : ActsOn i u s un)
    (hconf : un'.conf = un.conf) : ActsOn i u (s.setUnit u un') un' := by
  obtain ⟨hun, hrole⟩ := h
  obtain ⟨hlt, -⟩ := List.getElem?_eq_some_iff.mp hun
  exact ⟨List.getElem?_set_self hlt, hconf ▸ hrole⟩

/-! ### A unit in order -/

/-- While the tail stays below the capacity, the slot at it lies in the ring. -/
theorem QcqUnit.cqFits_takeEvent {cfg : Config} {un : QcqUnit} (htail : un.cq.tail.toNat < un.cap) (hcap : un.cap ≤ 65536)
    (hfits : un.cqFits cfg = true) (c : List Byte) : (un.takeEvent cfg c).cqFits cfg = true := by
  have hnext := nextIndex_lt htail hcap
  have hmax : ∀ i : Word16, i.toNat < un.cap → max un.cap (i.toNat + 1) = un.cap := fun i hi => max_eq_left hi
  rw [← hfits, QcqUnit.cqFits, QcqUnit.cqFits, hmax _ htail]
  show (decide (_ + max un.cap ((nextIndex un.cq.tail un.cap).toNat + 1) * _ ≤ _) && _) = _
  rw [hmax _ hnext]
  rfl

theorem QcqUnit.notifyReady_iff {cfg : Config} {un : QcqUnit} :
    un.notifyReady cfg = true ↔
      un.cq.valid = true ∧ un.cq.bound = true ∧ cfg.event.minBytes ≤ un.cq.descSize.toNat := by
  simp [QcqUnit.notifyReady, and_assoc]

/-- A bound ring in order stands inside its capacity (spec/10_state.md R34). -/
theorem QcqUnit.Inv.cq_inside {cfg : Config} {un : QcqUnit} (h : un.Inv cfg) (hb : un.cq.bound = true)
    (hcapMax : cfg.capMax ≤ 65536) : un.cq.tail.toNat < un.cap ∧ un.cap ≤ 65536 := by
  obtain ⟨hq, ⟨hbound, -⟩, -⟩ := h
  obtain ⟨-, hv, htail⟩ := hbound hb
  obtain ⟨-, -, hmax, -, -⟩ := hq hv
  exact ⟨htail, hmax.trans hcapMax⟩

/-! ### NQ.POLL -/

section
variable {u : UnitId} {process : Bool} {s : State} {un : QcqUnit}

/-- NQ.POLL ends as its loop does, where the loop's bound allows it. -/
theorem exec_nqPoll (hun : ActsOn (.nqPoll u process) u s un) (hready : un.notifyReady s.cfg = true)
    (hfits : un.cqFits s.cfg = true) {un' : QcqUnit} {y' : Sys} {count news : Nat}
    (hrun : Drains s.cfg process un s.sys count news un' y') (hfuel : count < notifyFuel un s.sys) :
    exec (.nqPoll u process) s = ((s.setUnit u un').withSys y').done (pollInfo news count) := by
  refine (State.onUnit_require hun hready _).trans ?_
  rw [hfits, requireRing_true, hrun.notifyLoop hfuel, Nat.zero_add, Nat.zero_add]

/-- NQ.POLL from the state in which the unit `v` and the surroundings `y` have taken the place of those of `s`. -/
theorem exec_nqPoll_of_setUnit (hun : ActsOn (.nqPoll u process) u s un) {v : QcqUnit} (hconf : v.conf = un.conf)
    (hready : v.notifyReady s.cfg = true) (hfits : v.cqFits s.cfg = true) {un' : QcqUnit} {y y' : Sys} {count news : Nat}
    (hrun : Drains s.cfg process v y count news un' y') (hfuel : count < notifyFuel v y) :
    exec (.nqPoll u process) ((s.setUnit u v).withSys y) = ((s.setUnit u un').withSys y').done (pollInfo news count) := by
  have hv : ActsOn (.nqPoll u process) u ((s.setUnit u v).withSys y) v := State.actsOn_setUnit hun hconf
  rw [exec_nqPoll hv hready hfits hrun hfuel, State.setUnit_setUnit]
  rfl

/-- Unit `u`, which was `un` in state `s`, has the same descriptor ring, and with `process` false the record shows no pulse
more (R215, R218). -/
def State.DrainedFrom (s : State) (u : UnitId) (process : Bool) (un : QcqUnit) (t : State) : Prop :=
  ∀ un', t.units[u.toNat]? = some un' → un'.q = un.q ∧ un'.side = un.side ∧
    (process = false → t.sys.count PortEvent.isPulse = s.sys.count PortEvent.isPulse)

theorem execNqPoll_drainedFrom (hun : s.units[u.toNat]? = some un) :
    EndsIn (s.DrainedFrom u process un) (execNqPoll u process s) := by
  have hsame : s.DrainedFrom u process un s := by
    intro un₁ hun₁
    cases hun.symm.trans hun₁
    exact ⟨rfl, rfl, fun _ => rfl⟩
  refine .onUnit hsame fun un₁ hun₁ => .require hsame fun _ => .requireRing ?_
  cases hun.symm.trans hun₁.1
  split
  · exact .fault _
  · next d hd =>
    obtain ⟨_, _, hrun⟩ := drains_of_notifyLoop hd
    obtain ⟨hq, hside⟩ := hrun.ring_eq
    obtain ⟨hlt, -⟩ := List.getElem?_eq_some_iff.mp hun
    refine .done fun un₂ hun₂ => ?_
    cases (List.getElem?_set_self hlt).symm.trans hun₂
    exact ⟨hq, hside, by rintro rfl; exact hrun.count_isPulse⟩

end

/-! ### The polls of the fast path -/

section
variable {cfg : Config} {fuel : Nat} {c : Carry} (h : (c.un.pending cfg c.sys).1 = false)
include h

theorem txPollLoop_of_idle :
    txPollLoop cfg (fuel + 1) c = some ⟨c.un, .ok, BitVec.ofNat 64 c.count, (c.un.pending cfg c.sys).2⟩ := by
  rw [txPollLoop, h]
  rfl

theorem rxPollLoop_of_idle :
    rxPollLoop cfg (fuel + 1) c = some ⟨c.un, .ok, BitVec.ofNat 64 c.count, (c.un.pending cfg c.sys).2⟩ := by
  rw [rxPollLoop, h]
  rfl

end

section
variable {u : UnitId} {s : State} {un : QcqUnit} (hidle : (un.pending s.cfg s.sys).1 = false)
include hidle

theorem exec_txPoll_of_idle (hun : ActsOn (.txPoll u) u s un) (hready : un.txReady s.cfg = true)
    (hfits : un.cqFits s.cfg = true) :
    exec (.txPoll u) s = ((s.setUnit u un).withSys (un.pending s.cfg s.sys).2).done 0 := by
  refine (State.onUnit_require hun hready _).trans ?_
  rw [hfits, requireRing_true, txPollLoop_of_idle (c := ⟨un, 0, s.sys⟩) hidle]
  rfl

theorem exec_rxPoll_of_idle (hun : ActsOn (.rxPoll u) u s un) (hready : un.rxReady s.cfg = true)
    (hfits : un.cqFits s.cfg = true) :
    exec (.rxPoll u) s = ((s.setUnit u un).withSys (un.pending s.cfg s.sys).2).done 0 := by
  refine (State.onUnit_require hun hready _).trans ?_
  rw [hfits, requireRing_true, rxPollLoop_of_idle (c := ⟨un, 0, s.sys⟩) hidle]
  rfl

end

end Sys2Proof.Machine

open Sys2Proof Sys2Proof.Machine

/-- Settles O44: the first round is known access by access (`Sys.Quiet.eventRound`), and the run of the loop behind it
(`Drains`) is the same whether the operation began before that round or after it. -/
theorem oneEventIsDrained : Obligations.OneEventIsDrained := by
  intro u process s un hun hready hfits hquiet htail c fresh un1 events hc hfresh hun1 hevents
  obtain ⟨hpend, -⟩ := Sys.Quiet.pending hquiet s.cfg un
  replace hpend := hpend.trans htail
  obtain ⟨e, he⟩ : ∃ e, un.readEvent s.cfg s.sys = e := ⟨_, rfl⟩
  obtain ⟨rfl, hquiet1, hmem1, hreg1, htrace1⟩ := Sys.Quiet.eventRound hquiet s.cfg process un hc he
  obtain rfl : fresh = un.isNews s.cfg e.1 := hfresh
  obtain rfl : un1 = un.takeEvent s.cfg e.1 := by rw [hun1]; rfl
  rw [← hevents] at htrace1
  refine ⟨fun hcap hidle => ?_, fun hinv hcapMax => ?_⟩
  · obtain ⟨hpend1, -, hmem2, hreg2, htrace2⟩ := hquiet1.pending s.cfg (un.takeEvent s.cfg e.1)
    have hidle1 : (un.takeEvent s.cfg e.1).tailPending (un.dispatch s.cfg process e) = false := by
      rw [QcqUnit.tailPending, hmem1]
      exact hidle
    have hrun : Drains s.cfg process un s.sys 1 _ _ _ := .event hpend he (.idle (hpend1.trans hidle1))
    refine ⟨_, ?_, hmem2.trans hmem1, hreg2.trans hreg1, by rw [htrace2, htrace1, hmem1]⟩
    rw [exec_nqPoll hun hready hfits hrun (by rw [notifyFuel]; omega)]
    cases un.isNews s.cfg e.1 <;> rfl
  · obtain ⟨-, hbound, -⟩ := QcqUnit.notifyReady_iff.mp hready
    obtain ⟨htailLt, hcap⟩ := hinv.cq_inside hbound hcapMax
    obtain ⟨_, _, un2, y2, hle, hrun⟩ :=
      Sys.Quiet.exists_drains_cap (cfg := s.cfg) (process := process) hquiet htailLt hcap
    obtain ⟨count, news, rfl, rfl, hrest⟩ := hrun.of_pending hpend he
    refine ⟨_, y2, un2, news, count, hquiet1, hmem1, hreg1, htrace1, ?_, ?_⟩
    · have hfits1 := QcqUnit.cqFits_takeEvent htailLt hcap hfits e.1
      have hfuel : count < notifyFuel (un.takeEvent s.cfg e.1) (un.dispatch s.cfg process e) :=
        Nat.lt_of_lt_of_le hle (Nat.le_succ_of_le (Nat.le_add_left _ _))
      exact exec_nqPoll_of_setUnit (v := un.takeEvent s.cfg e.1) hun rfl hready hfits1 hrest hfuel
    · exact exec_nqPoll hun hready hfits hrun (by rw [notifyFuel]; omega)

/-- Settles O45: each of the three loops ends at its first test. -/
theorem emptyPollsReportNothing : Obligations.EmptyPollsReportNothing := by
  intro u i s un hun hfits hquiet hi hidle
  obtain ⟨hpend, -, hmem, hreg, htrace⟩ := Sys.Quiet.pending hquiet s.cfg un
  replace hpend := hpend.trans hidle
  refine ⟨(un.pending s.cfg s.sys).2, ?_, htrace, hmem, hreg⟩
  have hself := State.setUnit_self hun.1
  obtain ⟨⟨process, rfl⟩, hready⟩ | ⟨rfl, hready⟩ | ⟨rfl, hready⟩ := hi
  · rw [exec_nqPoll hun hready hfits (.idle hpend) (Nat.succ_pos _), hself]
    rfl
  · rw [exec_txPoll_of_idle hpend hun hready hfits, hself]
    rfl
  · rw [exec_rxPoll_of_idle hpend hun hready hfits, hself]
    rfl

/-- Settles O47: a run of the loop keeps the descriptor ring, and one that drains only records no pulse. -/
theorem drainingHasNoSideEffects : Obligations.DrainingHasNoSideEffects := by
  intro u process s t un un' hun hexec hun'
  exact execNqPoll_drainedFrom hun t hexec un' hun'

end

section
/-! PROOFS (family 45_txrx.md). What TX.XMIT answers (spec/45_txrx.md R231). -/

namespace Sys2Proof.Machine

/-- The descriptor that TX.XMIT posts: `A0` handle, `A1[15:0]` length, `A2[15:0]` flags, `A2[31:16]` vlan_tci. -/
def State.packetDesc (s : State) (un : QcqUnit) : List Byte :=
  txDesc s.cfg.txDesc un.q.descSize.toNat s.a0 (low16 s.a1) (low16 s.a2) (mid16 s.a2)

/-- The surroundings once the packet is in the slot at the head and the new head is announced. -/
def State.postPacket (s : State) (un : QcqUnit) : Sys :=
  (un.own s.a0).ring s.cfg (s.sys.memWrite s.cfg (un.qSlot un.q.head) (s.packetDesc un))

section
variable {u : UnitId} {s : State} {un : QcqUnit} (hun : ActsOn (.txXmit u) u s un) (hready : un.txReady s.cfg = true)
include hun hready

theorem exec_txXmit_of_full (hfull : un.space = 0) : exec (.txXmit u) s = s.raise .noSpace 0 := by
  refine (State.onUnit_require hun hready _).trans ?_
  rw [hfull]
  rfl

theorem exec_txXmit (hspace : un.space ≠ 0) (hfits : un.qFits s.cfg = true) :
    exec (.txXmit u) s =
      ((s.setUnit u (un.own s.a0)).withSys (s.postPacket un)).done (un.q.head.zeroExtend 64) := by
  refine (State.onUnit_require hun hready _).trans ?_
  rw [if_neg (by omega), hfits]
  rfl

end

theorem State.postPacket_trace (s : State) (un : QcqUnit) :
    (s.postPacket un).trace =
      .regWrite un.conf.dbAddr.toNat
        (leBytes 8 (doorbellValue s.cfg (nextIndex un.q.head un.cap) un.conf.ringSel un.conf.qid).toNat) :: .wmb ::
      .memWrite (un.qSlot un.q.head) (s.packetDesc un) :: s.sys.trace := by
  rw [postPacket, QcqUnit.ring_trace, Sys.memWrite_trace]
  rfl

/-- Under a silent device the descriptor stands in the slot at the head. -/
theorem State.Quiet.postPacket {s : State} (h : s.Quiet) (hmem : s.MemInv) (un : QcqUnit) {k : Nat}
    (hk : k < un.q.descSize.toNat) :
    (s.postPacket un).mem.get (un.qSlot un.q.head + k) = (s.packetDesc un).getD k 0 := by
  obtain ⟨hquiet, -, -, hwritten, -⟩ := Sys.Quiet.memWrite (cfg := s.cfg) (addr := un.qSlot un.q.head)
    (bs := s.packetDesc un) h hmem
  obtain ⟨hring, -⟩ := hquiet.ring s.cfg (un.own s.a0)
  rw [State.postPacket, hring]
  exact hwritten k (by simpa [packetDesc] using hk)

end Sys2Proof.Machine

open Sys2Proof Sys2Proof.Machine

/-- Settles O48: the two ends of the operation, by whether a slot is free; `own` writes the entry of the old head only. -/
theorem transmitPosts : Obligations.TransmitPosts := by
  intro u s un hun hready
  refine ⟨exec_txXmit_of_full hun hready, fun hspace hfits hwf h hh => ?_⟩
  subst hh
  exact ⟨s.postPacket un, (un.own s.a0).side, exec_txXmit hun hready hspace hfits, SideTable.get_set_self _ _ hwf,
    fun j hj => SideTable.get_set_other _ _ hj, s.postPacket_trace un, fun hquiet hmem k hk => hquiet.postPacket hmem un hk⟩

end

section
/-! PROOFS (family 45_txrx.md). Retiring slots from the tail on (spec/45_txrx.md R235, R245, R250): what it leaves of the
unit, and the loops that retire up to a slot. -/

namespace Sys2Proof.Machine

/-! ### Slots in ring order -/

theorem ringOrder_succ (i n C : Nat) : ringOrder i (n + 1) C = ringOrder i n C ++ [(i + n) % C] := by
  simp [ringOrder, List.range_succ]

/-- Within a revolution no slot comes twice. -/
theorem add_mod_notMem_ringOrder {i n C : Nat} (h : n < C) : (i + n) % C ∉ ringOrder i n C := by
  intro hmem
  obtain ⟨k, hk, heq⟩ := List.mem_map.mp hmem
  have hkn : k < n := List.mem_range.mp hk
  have hmod : k ≡ n [MOD C] := Nat.ModEq.add_left_cancel' i heq
  exact hkn.ne (hmod.eq_of_lt_of_lt (hkn.trans h) h)

theorem SideTable.get_invalidate {t : SideTable} (i : Nat) (h : t.wf = true) (j : Nat) :
    (t.invalidate i).get j = if j = i then ⟨false, (t.get j).handle⟩ else t.get j := by
  split
  · next heq => rw [heq]; exact SideTable.get_set_self _ _ h
  · next hne => exact SideTable.get_set_other _ _ hne

namespace QcqUnit

/-! ### Indices in order -/

/-- The indices of the Queue are in order (spec/10_state.md R31 (b)), and every slot has an index. -/
structure InRing (un : QcqUnit) : Prop where
  cap_le : un.cap ≤ 65536
  head_lt : un.q.head.toNat < un.cap
  tail_lt : un.q.tail.toNat < un.cap

theorem Inv.inRing {un : QcqUnit} {cfg : Config} (h : un.Inv cfg) (hv : un.q.valid = true) (hcapMax : cfg.capMax ≤ 65536) :
    un.InRing := by
  obtain ⟨hq, -, -⟩ := h
  obtain ⟨-, -, hmax, hhead, htail⟩ := hq hv
  exact ⟨hmax.trans hcapMax, hhead, htail⟩

theorem InRing.consume {un : QcqUnit} (h : un.InRing) : un.consume.InRing := ⟨h.cap_le, h.head_lt, h.tail_lt⟩

theorem InRing.retire {un : QcqUnit} (h : un.InRing) : un.retire.InRing :=
  ⟨h.cap_le, h.head_lt, nextIndex_lt h.tail_lt h.cap_le⟩

section
variable {un : QcqUnit} (h : un.InRing) {i : Word16} (hi : i.toNat < un.cap)
include h hi

/-- Retiring brings every slot but the tail one slot nearer: a slot in flight lies as far ahead as there would be slots in
flight if it were the head. -/
theorem InRing.ahead_retire (hne : un.q.tail ≠ i) : un.retire.ahead i.toNat + 1 = un.ahead i.toNat := by
  have hne' : un.q.tail.toNat ≠ i.toNat := fun heq => hne (BitVec.eq_of_toNat_eq heq)
  have hpos : 0 < un.ahead i.toNat := by
    have := h.tail_lt
    rw [ahead_eq hi h.tail_lt]
    split <;> omega
  exact inFlight_advTail (un := { un with q := { un.q with head := i } }) hi h.tail_lt h.cap_le hpos

theorem InRing.tail_add_ahead_mod : (un.q.tail.toNat + un.ahead i.toNat) % un.cap = i.toNat := by
  rw [ahead_eq hi h.tail_lt]
  split
  · rw [Nat.add_sub_cancel' ‹_›, Nat.mod_eq_of_lt hi]
  · rw [Nat.add_sub_cancel' (by have := h.tail_lt; omega), Nat.add_mod_right, Nat.mod_eq_of_lt hi]

end

theorem ahead_tail (un : QcqUnit) : un.ahead un.q.tail.toNat = 0 := by simp [ahead, modNat]

theorem inFlight_of_tail_eq_head {un : QcqUnit} (h : un.q.tail = un.q.head) : un.inFlight = 0 := by
  rw [← ahead_head, ← h, ahead_tail]

theorem InRing.inFlight_retire {un : QcqUnit} (h : un.InRing) (hne : un.q.tail ≠ un.q.head) :
    un.retire.inFlight + 1 = un.inFlight :=
  h.ahead_retire h.head_lt hne

/-! ### Retiring `n` slots -/

/-- Retiring writes the tail and the side table. -/
theorem iterate_retire_eq (un : QcqUnit) (n : Nat) :
    retire^[n] un =
      { un with q := { un.q with tail := (retire^[n] un).q.tail }, side := (retire^[n] un).side } := by
  induction n with
  | zero => rfl
  | succ n ih =>
    rw [Function.iterate_succ_apply', ih]
    rfl

@[simp] theorem cap_iterate_retire (un : QcqUnit) (n : Nat) : (retire^[n] un).cap = un.cap := by
  rw [iterate_retire_eq]
  rfl

theorem iterate_retire_side_wf {un : QcqUnit} (hwf : un.side.wf = true) (n : Nat) : (retire^[n] un).side.wf = true := by
  induction n generalizing un with
  | zero => exact hwf
  | succ n ih => exact ih (SideTable.invalidate_wf _ hwf)

/-- Every slot retired is in flight no more. -/
theorem InRing.inFlight_iterate_retire {un : QcqUnit} (h : un.InRing) {n : Nat} (hn : n ≤ un.inFlight) :
    (QcqUnit.retire^[n] un).InRing ∧ (QcqUnit.retire^[n] un).inFlight + n = un.inFlight := by
  induction n generalizing un with
  | zero => exact ⟨h, rfl⟩
  | succ n ih =>
    have hless := h.inFlight_retire fun heq => by have := inFlight_of_tail_eq_head heq; omega
    obtain ⟨hin, hrest⟩ := ih h.retire (by omega)
    exact ⟨hin, by rw [← hless, ← hrest]; rfl⟩

section
variable {un : QcqUnit} (h : un.InRing)
include h

theorem InRing.toNat_tail_iterate_retire (n : Nat) :
    (QcqUnit.retire^[n] un).q.tail.toNat = (un.q.tail.toNat + n) % un.cap := by
  induction n with
  | zero => exact (Nat.mod_eq_of_lt h.tail_lt).symm
  | succ n ih =>
    rw [Function.iterate_succ_apply', retire_tail, cap_iterate_retire,
      nextIndex_toNat_mod _ (Nat.zero_lt_of_lt h.tail_lt) h.cap_le, ih, Nat.mod_add_mod, Nat.add_assoc]

/-- The tail reaches slot `i` after as many slots as `i` lies ahead. -/
theorem InRing.tail_iterate_retire_ahead {i : Word16} (hi : i.toNat < un.cap) :
    (QcqUnit.retire^[un.ahead i.toNat] un).q.tail = i :=
  BitVec.eq_of_toNat_eq ((h.toNat_tail_iterate_retire _).trans (h.tail_add_ahead_mod hi))

theorem InRing.iterate_retire_ahead_succ {i : Word16} (hi : i.toNat < un.cap) :
    QcqUnit.retire^[un.ahead i.toNat + 1] un =
      { un with
        q := { un.q with tail := nextIndex i un.cap }, side := (QcqUnit.retire^[un.ahead i.toNat + 1] un).side } := by
  have htail : (QcqUnit.retire^[un.ahead i.toNat + 1] un).q.tail = nextIndex i un.cap := by
    rw [Function.iterate_succ_apply', retire_tail, cap_iterate_retire, h.tail_iterate_retire_ahead hi]
  rw [← htail]
  exact iterate_retire_eq un _

/-- With every slot in flight retired the tail stands at the head. -/
theorem InRing.iterate_retire_inFlight :
    QcqUnit.retire^[un.inFlight] un =
      { un with q := { un.q with tail := un.q.head }, side := (QcqUnit.retire^[un.inFlight] un).side } := by
  have htail : (QcqUnit.retire^[un.inFlight] un).q.tail = un.q.head := h.tail_iterate_retire_ahead h.head_lt
  rw [← htail]
  exact iterate_retire_eq un _

/-- The slots retired are no longer valid; they keep their handles, and no other entry changes. -/
theorem InRing.get_side_iterate_retire (hwf : un.side.wf = true) (n j : Nat) :
    (QcqUnit.retire^[n] un).side.get j =
      if j ∈ ringOrder un.q.tail.toNat n un.cap then ⟨false, (un.side.get j).handle⟩ else un.side.get j := by
  induction n with
  | zero => rfl
  | succ n ih =>
    rw [Function.iterate_succ_apply', retire_side, SideTable.get_invalidate _ (iterate_retire_side_wf hwf n),
      h.toNat_tail_iterate_retire, ih]
    by_cases hmem : j ∈ ringOrder un.q.tail.toNat n un.cap <;> simp [ringOrder_succ, hmem]

end

end QcqUnit

/-! ### Handing back what the slots hold -/

/-- Several port events are recorded, newest first. -/
def Sys.recordAll (y : Sys) (es : List PortEvent) : Sys := { y with trace := es ++ y.trace }

theorem Sys.recordAll_recordAll (y : Sys) (es es' : List PortEvent) :
    (y.recordAll es).recordAll es' = y.recordAll (es' ++ es) := by
  simp [recordAll]

theorem Sys.handBacks_recordAll (y : Sys) {es : List PortEvent} (h : ∀ ev ∈ es, ev.isHandBack = true) :
    (y.recordAll es).handBacks = es ++ y.handBacks := by
  rw [handBacks, recordAll, List.filter_append, List.filter_eq_self.mpr h]
  rfl

/-- One round of a loop that retires the slot at the tail: `call` is the call on the buffer manager that the entry there
asks for, in a unit of this role. -/
def Carry.retireBy (call : Role → SideEntry → Option PortEvent) (c : Carry) : Carry :=
  ⟨c.un.retire, c.count + 1, c.sys.recordAll (call c.un.conf.role (c.un.side.get c.un.q.tail.toNat)).toList⟩

section
variable (call : Role → SideEntry → Option PortEvent) (c : Carry)

theorem Carry.iterate_retireBy_un (n : Nat) : ((Carry.retireBy call)^[n] c).un = QcqUnit.retire^[n] c.un := by
  induction n generalizing c with
  | zero => rfl
  | succ n ih => exact ih (c.retireBy call)

/-- The calls are made in ring order, each for the entry as it was at first: no slot is retired twice. -/
theorem Carry.iterate_retireBy_eq {c : Carry} (h : c.un.InRing) (hwf : c.un.side.wf = true) {n : Nat} (hn : n ≤ c.un.cap) :
    (Carry.retireBy call)^[n] c =
      ⟨QcqUnit.retire^[n] c.un, c.count + n, c.sys.recordAll
        ((ringOrder c.un.q.tail.toNat n c.un.cap).filterMap fun j => call c.un.conf.role (c.un.side.get j)).reverse⟩ := by
  induction n with
  | zero => rfl
  | succ n ih =>
    have hrole : (QcqUnit.retire^[n] c.un).conf.role = c.un.conf.role := by rw [QcqUnit.iterate_retire_eq]
    have hentry : (QcqUnit.retire^[n] c.un).side.get ((c.un.q.tail.toNat + n) % c.un.cap) =
        c.un.side.get ((c.un.q.tail.toNat + n) % c.un.cap) := by
      rw [h.get_side_iterate_retire hwf, if_neg (add_mod_notMem_ringOrder hn)]
    rw [Function.iterate_succ_apply', Function.iterate_succ_apply', ih (Nat.le_of_succ_le hn), retireBy, hrole,
      h.toNat_tail_iterate_retire, hentry, ringOrder_succ, Sys.recordAll_recordAll, Nat.add_assoc]
    cases hcall : call c.un.conf.role (c.un.side.get ((c.un.q.tail.toNat + n) % c.un.cap)) <;>
      simp [List.filterMap_append, hcall]

end

/-! ### The inner loop of TX.POLL -/

/-- The call for a slot that a completion covers (R235). -/
def completedCall (_ : Role) (e : SideEntry) : Option PortEvent := some (.bufRetire e.handle)

/-- The loop retires up to the slot `ci`. -/
theorem retireUntil_eq {ci : Word16} {fuel : Nat} {c : Carry} (h : c.un.InRing) (hci : ci.toNat < c.un.cap)
    (hfuel : c.un.ahead ci.toNat < fuel) :
    retireUntil ci fuel c = some ((Carry.retireBy completedCall)^[c.un.ahead ci.toNat + 1] c) := by
  induction fuel generalizing c with
  | zero => cases hfuel
  | succ fuel ih =>
    rw [retireUntil]
    split
    · next heq => rw [← heq, QcqUnit.ahead_tail]; rfl
    · next hne =>
      have hnear := h.ahead_retire hci hne
      rw [← hnear]
      exact ih (c := c.retireBy completedCall) h.retire hci (by simp only [Carry.retireBy]; omega)

/-- The count is carried along. -/
theorem retireUntil_count {ci : Word16} {fuel m : Nat} {c c1 : Carry} (h : retireUntil ci fuel c = some c1) :
    retireUntil ci fuel ⟨c.un, m + c.count, c.sys⟩ = some ⟨c1.un, m + c1.count, c1.sys⟩ := by
  induction fuel generalizing c with
  | zero => cases h
  | succ fuel ih =>
    rw [retireUntil] at h ⊢
    split at h
    · next heq => cases h; exact if_pos heq
    · next hne => exact (if_neg hne).trans (ih h)

/-! ### QCQ.FLUSH -/

/-- The call for a slot that goes back without a completion (R250). -/
def flushedCall (role : Role) (e : SideEntry) : Option PortEvent :=
  if e.valid then some (if role = .tx then .bufCancel e.handle else .bufRelease e.handle) else none

theorem QcqUnit.flushBuffer_eq (un : QcqUnit) (y : Sys) :
    un.flushBuffer y = y.recordAll (flushedCall un.conf.role (un.side.get un.q.tail.toNat)).toList := by
  unfold flushBuffer flushedCall
  split_ifs <;> rfl

/-- The loop retires every slot in flight. -/
theorem flushLoop_eq {fuel : Nat} {c : Carry} (h : c.un.InRing) (hfuel : c.un.inFlight ≤ fuel) :
    flushLoop fuel c = some ((Carry.retireBy flushedCall)^[c.un.inFlight] c) := by
  induction fuel generalizing c with
  | zero =>
    rw [flushLoop]
    split
    · rw [Nat.le_zero.mp hfuel]; rfl
    · next hne => exact absurd (h.inFlight_retire hne) (by omega)
  | succ fuel ih =>
    rw [flushLoop]
    split
    · next heq => rw [QcqUnit.inFlight_of_tail_eq_head heq]; rfl
    · next hne =>
      have hnear := h.inFlight_retire hne
      rw [← hnear, QcqUnit.flushBuffer_eq]
      exact ih (c := c.retireBy flushedCall) h.retire (by simp only [Carry.retireBy]; omega)

/-- The buffers that go back are those of the valid entries. -/
theorem filterMap_flushedCall (role : Role) (t : SideTable) (slots : List Nat) :
    slots.filterMap (fun j => flushedCall role (t.get j)) =
      (slots.filter fun j => (t.get j).valid).map fun j =>
        if role = .tx then PortEvent.bufCancel (t.get j).handle else PortEvent.bufRelease (t.get j).handle := by
  rw [← List.filterMap_eq_map, List.filterMap_filter]
  rfl

theorem exec_qcqFlush {u : UnitId} {s : State} {un : QcqUnit} {c : Carry} (hun : ActsOn (.qcqFlush u) u s un)
    (hv : un.q.valid = true) (hloop : flushLoop un.cap ⟨un, 0, s.sys⟩ = some c) :
    exec (.qcqFlush u) s = ((s.setUnit u c.un).withSys c.sys).done (BitVec.ofNat 64 c.count) := by
  refine (State.onUnit_require hun (p := fun un => un.q.valid) hv _).trans ?_
  rw [hloop]

theorem isHandBack_of_flushedCall {role : Role} {e : SideEntry} {ev : PortEvent} (h : flushedCall role e = some ev) :
    ev.isHandBack = true := by
  unfold flushedCall at h
  split_ifs at h <;> cases h <;> rfl

end Sys2Proof.Machine

open Sys2Proof Sys2Proof.Machine

/-- Settles O55: the loop retires the slots in flight one by one, and the tail then stands at the head. -/
theorem flushReturnsEveryBuffer : Obligations.FlushReturnsEveryBuffer := by
  intro u s un hun hv hinv hcapMax
  have hring := hinv.inRing hv hcapMax
  obtain ⟨-, -, hwf⟩ := hinv
  have hlt : un.inFlight < un.cap := QcqUnit.inFlight_lt (Nat.zero_lt_of_lt hring.tail_lt)
  have hloop := flushLoop_eq (c := ⟨un, 0, s.sys⟩) hring hlt.le
  rw [Carry.iterate_retireBy_eq flushedCall hring hwf hlt.le, Nat.zero_add, hring.iterate_retire_inFlight] at hloop
  refine ⟨_, _, exec_qcqFlush hun hv hloop, hring.get_side_iterate_retire hwf _, ?_, rfl, rfl⟩
  rw [← filterMap_flushedCall]
  refine s.sys.handBacks_recordAll fun ev hev => ?_
  obtain ⟨j, -, hcall⟩ := List.mem_filterMap.mp (List.mem_reverse.mp hev)
  exact isHandBack_of_flushedCall hcall

end

section
/-! PROOFS (family 45_txrx.md). The loops of TX.POLL and RX.POLL (spec/45_txrx.md R235, R245): the rounds of both, what a
round retires, and the whole loop as a relation. -/

namespace Sys2Proof.Machine

/-! ### The two polls -/

/-- A poll of the fast path: its operation, precondition and loop, and what a round makes of the completion at the tail:
the report of one that matches nothing in flight (R238), and what any other one retires, counted from 0. -/
structure Polling where
  instr : UnitId → Instr
  ready : Config → QcqUnit → Bool
  loop : Config → Nat → Carry → Option PollEnd
  bad : Config → QcqUnit → List Byte → Option Word64
  take : Config → QcqUnit → List Byte × Sys → Option Carry

/-- TX.POLL (R235): a completion retires the descriptors it covers. -/
def Polling.tx : Polling where
  instr := .txPoll
  ready := QcqUnit.txReady
  loop := txPollLoop
  bad cfg un c := if un.badIndex (txIndex cfg.txComp c) then some ((txIndex cfg.txComp c).zeroExtend 64) else none
  take cfg un e := retireUntil (txIndex cfg.txComp e.1) un.cap ⟨un.consume, 0, e.2⟩

/-- RX.POLL (R245): a completion delivers the buffer of the Queue's tail. -/
def Polling.rx : Polling where
  instr := .rxPoll
  ready := QcqUnit.rxReady
  loop := rxPollLoop
  bad _ un _ := if un.inFlight = 0 then some 0 else none
  take cfg un e := some ⟨un.consume.retire, 1, e.2.bufDeliver un.tailHandle (rxLen cfg.rxComp e.1)
    (rxOk cfg (rxStatus cfg.rxComp e.1) (rxCsum cfg.rxComp e.1))⟩

/-- What the two polls have in common. -/
structure Polling.Lawful (p : Polling) : Prop where
  exec_eq (u : UnitId) (s : State) :
    exec (p.instr u) s = s.onUnit (p.instr u) u fun un =>
      s.require (p.ready s.cfg un) <| requireRing (un.cqFits s.cfg) <|
        s.endPoll u (p.loop s.cfg (un.inFlight + 1) ⟨un, 0, s.sys⟩)
  loop_of_idle {cfg : Config} {c : Carry} (fuel : Nat) (hpend : (c.un.pending cfg c.sys).1 = false) :
    p.loop cfg (fuel + 1) c = some ⟨c.un, .ok, BitVec.ofNat 64 c.count, (c.un.pending cfg c.sys).2⟩
  loop_of_bad {cfg : Config} {c : Carry} {e : List Byte × Sys} {v : Word64} (fuel : Nat)
    (hpend : (c.un.pending cfg c.sys).1 = true) (he : c.un.readEvent cfg c.sys = e) (hbad : p.bad cfg c.un e.1 = some v) :
    p.loop cfg (fuel + 1) c = some ⟨c.un.consume, .badCompletion, v, e.2⟩
  loop_of_take {cfg : Config} {c c1 : Carry} {e : List Byte × Sys} (fuel : Nat)
    (hpend : (c.un.pending cfg c.sys).1 = true) (he : c.un.readEvent cfg c.sys = e) (hbad : p.bad cfg c.un e.1 = none)
    (htake : p.take cfg c.un e = some c1) :
    p.loop cfg (fuel + 1) c = p.loop cfg fuel ⟨c1.un, c.count + c1.count, c1.sys⟩
  /-- A completion for something in flight retires something (R253). -/
  retires {cfg : Config} {un : QcqUnit} {e : List Byte × Sys} (hun : un.InRing) (hbad : p.bad cfg un e.1 = none) :
    ∃ c1, p.take cfg un e = some c1 ∧ c1.un.InRing ∧ c1.un.inFlight < un.inFlight

/-- A completion of a descriptor in flight retires the descriptors from the tail up to it, in ring order (R235). -/
theorem Polling.tx_take {cfg : Config} {un : QcqUnit} {e : List Byte × Sys} {ci : Word16} (h : un.InRing)
    (hci : ci = txIndex cfg.txComp e.1) (hlt : ci.toNat < un.cap) :
    Polling.tx.take cfg un e = some ((Carry.retireBy completedCall)^[un.ahead ci.toNat + 1] ⟨un.consume, 0, e.2⟩) := by
  subst hci
  exact retireUntil_eq (c := ⟨un.consume, 0, e.2⟩) h.consume hlt (modNat_lt (Nat.zero_lt_of_lt hlt))

/-- What that leaves (R235, R236): the tail is one past the descriptor named, and each buffer is retired once. -/
theorem Polling.tx_take_covers {cfg : Config} {un : QcqUnit} {e : List Byte × Sys} {ci : Word16} (h : un.InRing)
    (hwf : un.side.wf = true) (hci : ci = txIndex cfg.txComp e.1) (hlt : ci.toNat < un.cap) {slots : List Nat}
    (hslots : slots = ringOrder un.q.tail.toNat (un.ahead ci.toNat + 1) un.cap) :
    ∃ side : SideTable,
      Polling.tx.take cfg un e =
        some ⟨{ un.consume with q := { un.q with tail := nextIndex ci un.cap }, side := side }, un.ahead ci.toNat + 1,
          e.2.recordAll (slots.map fun j => PortEvent.bufRetire (un.side.get j).handle).reverse⟩ ∧
      ∀ j, side.get j = if j ∈ slots then ⟨false, (un.side.get j).handle⟩ else un.side.get j := by
  subst hslots
  have hahead : un.ahead ci.toNat + 1 ≤ un.cap := modNat_lt (Nat.zero_lt_of_lt hlt)
  refine ⟨_, ?_, h.consume.get_side_iterate_retire hwf (un.ahead ci.toNat + 1)⟩
  rw [tx_take h hci hlt, Carry.iterate_retireBy_eq completedCall h.consume hwf hahead, Nat.zero_add,
    ← List.filterMap_eq_map]
  exact congrArg (fun v => some (Carry.mk v _ _)) (h.consume.iterate_retire_ahead_succ hlt)

theorem Polling.tx_bad_eq_none {cfg : Config} {un : QcqUnit} {c : List Byte} :
    Polling.tx.bad cfg un c = none ↔ un.InFlightSlot (txIndex cfg.txComp c).toNat := by
  simp [tx, QcqUnit.badIndex, QcqUnit.InFlightSlot]

theorem Polling.rx_bad_eq_none {cfg : Config} {un : QcqUnit} {c : List Byte} :
    Polling.rx.bad cfg un c = none ↔ un.inFlight ≠ 0 := by
  simp [rx]

theorem Polling.tx_lawful : Polling.tx.Lawful where
  exec_eq _ _ := rfl
  loop_of_idle _ hpend := txPollLoop_of_idle hpend
  loop_of_bad {cfg c e v} fuel hpend he hbad := by
    subst he
    obtain ⟨hindex, hv⟩ := Option.ite_none_right_eq_some.mp hbad
    cases hv
    show txPollLoop cfg (fuel + 1) c = _
    rw [txPollLoop, hpend]
    exact if_pos hindex
  loop_of_take {cfg c c1 e} fuel hpend he hbad htake := by
    subst he
    have hindex : ¬ c.un.badIndex (txIndex cfg.txComp (c.un.readEvent cfg c.sys).1) = true := by
      intro h
      cases (if_pos h).symm.trans hbad
    have hretire : retireUntil (txIndex cfg.txComp (c.un.readEvent cfg c.sys).1) c.un.consume.cap
        ⟨c.un.consume, c.count, (c.un.readEvent cfg c.sys).2⟩ = some ⟨c1.un, c.count + c1.count, c1.sys⟩ :=
      retireUntil_count htake
    show txPollLoop cfg (fuel + 1) c = _
    rw [txPollLoop, hpend]
    refine (if_neg hindex).trans ?_
    rw [QcqUnit.readEvent] at hretire
    rw [hretire]
    rfl
  retires {cfg un e} h hbad := by
    obtain ⟨hlt, hahead⟩ := Polling.tx_bad_eq_none.mp hbad
    obtain ⟨hin, hless⟩ := h.consume.inFlight_iterate_retire (n := un.ahead (txIndex cfg.txComp e.1).toNat + 1) hahead
    have hun' := Carry.iterate_retireBy_un completedCall ⟨un.consume, 0, e.2⟩ (un.ahead (txIndex cfg.txComp e.1).toNat + 1)
    rw [← hun'] at hin hless
    rw [QcqUnit.inFlight_consume] at hless
    exact ⟨_, Polling.tx_take h rfl hlt, hin, by omega⟩

theorem Polling.rx_lawful : Polling.rx.Lawful where
  exec_eq _ _ := rfl
  loop_of_idle _ hpend := rxPollLoop_of_idle hpend
  loop_of_bad {cfg c e v} fuel hpend he hbad := by
    subst he
    obtain ⟨hempty, hv⟩ := Option.ite_none_right_eq_some.mp hbad
    cases hv
    show rxPollLoop cfg (fuel + 1) c = _
    rw [rxPollLoop, hpend]
    exact if_pos hempty
  loop_of_take {cfg c c1 e} fuel hpend he hbad htake := by
    subst he
    cases htake
    show rxPollLoop cfg (fuel + 1) c = _
    rw [rxPollLoop, hpend]
    exact if_neg (Polling.rx_bad_eq_none.mp hbad)
  retires {cfg un e} h hbad := by
    have hne : un.consume.q.tail ≠ un.consume.q.head :=
      fun heq => Polling.rx_bad_eq_none.mp hbad (QcqUnit.inFlight_of_tail_eq_head heq)
    have hless := h.consume.inFlight_retire hne
    rw [QcqUnit.inFlight_consume] at hless
    exact ⟨_, rfl, h.consume.retire, Nat.lt_of_succ_le hless.le⟩

/-! ### The whole loop -/

/-- The end of a loop that had already counted `n`: a success adds up, a report stays (R238). -/
def PollEnd.add (d : PollEnd) (n : Nat) : PollEnd :=
  { d with info := if d.code = .ok then d.info + BitVec.ofNat 64 n else d.info }

theorem PollEnd.add_zero (d : PollEnd) : d.add 0 = d :=
  congrArg (PollEnd.mk d.un d.code · d.sys) ((congrArg (ite _ · _) (BitVec.add_zero d.info)).trans (ite_self _))

theorem PollEnd.add_add (d : PollEnd) (m n : Nat) : (d.add m).add n = d.add (n + m) := by
  unfold add
  split_ifs
  · rw [BitVec.add_assoc, ← BitVec.ofNat_add, Nat.add_comm]
  · rfl

/-- The loop of `p`, started with the unit `un`, the surroundings `y` and nothing counted, ends in `d` after `n` completions
that retired something. -/
inductive Polls (p : Polling) (cfg : Config) : QcqUnit → Sys → Nat → PollEnd → Prop
  | idle {un : QcqUnit} {y : Sys} (hpend : (un.pending cfg y).1 = false) :
      Polls p cfg un y 0 ⟨un, .ok, 0, (un.pending cfg y).2⟩
  | bad {un : QcqUnit} {y : Sys} {e : List Byte × Sys} {v : Word64} (hpend : (un.pending cfg y).1 = true)
      (he : un.readEvent cfg y = e) (hbad : p.bad cfg un e.1 = some v) :
      Polls p cfg un y 0 ⟨un.consume, .badCompletion, v, e.2⟩
  | take {un : QcqUnit} {y : Sys} {e : List Byte × Sys} {c : Carry} {n : Nat} {d : PollEnd}
      (hpend : (un.pending cfg y).1 = true) (he : un.readEvent cfg y = e) (hbad : p.bad cfg un e.1 = none)
      (htake : p.take cfg un e = some c) (hrest : Polls p cfg c.un c.sys n d) :
      Polls p cfg un y (n + 1) (d.add c.count)

namespace Polls

variable {p : Polling} {cfg : Config} {un : QcqUnit} {y : Sys} {n : Nat} {d : PollEnd}

theorem code (h : Polls p cfg un y n d) : d.code = .ok ∨ d.code = .badCompletion := by
  induction h with
  | idle _ => exact .inl rfl
  | bad _ _ _ => exact .inr rfl
  | take _ _ _ _ _ ih => exact ih

/-- The loop needs one test more than there are completions that retire something. -/
theorem loop (h : Polls p cfg un y n d) (hp : p.Lawful) {fuel : Nat} (hfuel : n < fuel) (m : Nat) :
    p.loop cfg fuel ⟨un, m, y⟩ = some (d.add m) := by
  obtain ⟨fuel, rfl⟩ := Nat.exists_eq_add_of_le' (Nat.one_le_of_lt hfuel)
  induction h generalizing fuel m with
  | idle hpend =>
    rw [hp.loop_of_idle (c := ⟨_, m, _⟩) fuel hpend]
    exact congrArg (fun v => some (PollEnd.mk _ _ v _)) (BitVec.zero_add _).symm
  | bad hpend he hbad => exact hp.loop_of_bad (c := ⟨_, m, _⟩) fuel hpend he hbad
  | take hpend he hbad htake _ ih =>
    obtain ⟨fuel, rfl⟩ := Nat.exists_eq_add_of_le' (Nat.one_le_of_lt (Nat.lt_of_succ_lt_succ hfuel))
    rw [hp.loop_of_take (c := ⟨_, m, _⟩) _ hpend he hbad htake, ih _ _ (by omega), PollEnd.add_add]

/-- With the indices in order the descriptors in flight bound the loop, whatever the device does (R253). -/
theorem exists_of_inRing (hp : p.Lawful) (cfg : Config) {un : QcqUnit} (h : un.InRing) (y : Sys) :
    ∃ n d, n ≤ un.inFlight ∧ Polls p cfg un y n d := by
  induction hf : un.inFlight using Nat.strong_induction_on generalizing un y with
  | _ f ih =>
    subst hf
    cases hpend : (un.pending cfg y).1 with
    | false => exact ⟨0, _, Nat.zero_le _, .idle hpend⟩
    | true =>
      cases hbad : p.bad cfg un (un.readEvent cfg y).1 with
      | some v => exact ⟨0, _, Nat.zero_le _, .bad hpend rfl hbad⟩
      | none =>
        obtain ⟨c, htake, hc, hless⟩ := hp.retires h hbad
        obtain ⟨n, d, hle, hrest⟩ := ih _ hless hc c.sys rfl
        exact ⟨n + 1, _, Nat.lt_of_le_of_lt hle hless, .take hpend rfl hbad htake hrest⟩

end Polls

/-! ### The operations -/

/-- The state in which a poll of unit `u` ends as `d` says. -/
def State.endOf (s : State) (u : UnitId) (d : PollEnd) : State := ((s.setUnit u d.un).withSys d.sys).finish d.code d.info

section
variable {p : Polling} (hp : p.Lawful) {u : UnitId} {s : State} {un : QcqUnit} (hun : ActsOn (p.instr u) u s un)
include hp hun

theorem Polls.exec {n : Nat} {d : PollEnd} (h : Polls p s.cfg un s.sys n d) (hready : p.ready s.cfg un = true)
    (hfits : un.cqFits s.cfg = true) (hn : n ≤ un.inFlight) : exec (p.instr u) s = .next (s.endOf u d) := by
  rw [hp.exec_eq, State.onUnit_of_actsOn hun, hready, State.require_true, hfits, requireRing_true,
    h.loop hp (Nat.lt_succ_of_le hn), PollEnd.add_zero]
  rfl

/-- The poll from the state in which a unit `v` and surroundings `y` have taken the place of those of `s`. -/
theorem Polls.exec_of_setUnit {v : QcqUnit} {y : Sys} {n : Nat} {d : PollEnd} (h : Polls p s.cfg v y n d)
    (hconf : v.conf = un.conf) (hready : p.ready s.cfg v = true) (hfits : v.cqFits s.cfg = true) (hn : n ≤ v.inFlight) :
    Machine.exec (p.instr u) ((s.setUnit u v).withSys y) = .next (s.endOf u d) := by
  have hv : ActsOn (p.instr u) u ((s.setUnit u v).withSys y) v := State.actsOn_setUnit hun hconf
  rw [h.exec (s := (s.setUnit u v).withSys y) hp hv hready hfits hn, State.endOf, State.setUnit_setUnit]
  rfl

end

end Sys2Proof.Machine

open Sys2Proof Sys2Proof.Machine

/-- Settles O52: a unit that meets the preconditions has a valid Queue, whose indices the invariant keeps in order. -/
theorem pollsEnd : Obligations.PollsEnd := by
  intro u i s un hun hinv hcapMax hfits hi
  have hends : ∀ p : Polling, p.Lawful → i = p.instr u → p.ready s.cfg un = true → un.q.valid = true →
      ∃ t : State, exec i s = .next t ∧ (t.r0 = 0 ∨ t.r0 = 10) := by
    rintro p hp rfl hready hv
    obtain ⟨n, d, hn, hpolls⟩ := Polls.exists_of_inRing hp s.cfg (hinv.inRing hv hcapMax) s.sys
    exact ⟨_, hpolls.exec hp hun hready hfits hn, hpolls.code.imp (congrArg codeByte) (congrArg codeByte)⟩
  obtain ⟨hi, hready⟩ | ⟨hi, hready⟩ := hi
  · exact hends .tx Polling.tx_lawful hi hready (QcqUnit.valid_of_txReady hready)
  · exact hends .rx Polling.rx_lawful hi hready (QcqUnit.valid_of_rxReady hready)

end

section
/-! PROOFS (family 45_txrx.md). A round of TX.POLL and of RX.POLL under a silent device, access by access (spec/45_txrx.md
R235 to R238, R245, spec/41_completion_ring.md R165). -/

namespace Sys2Proof.Machine

theorem QcqUnit.bound_of_txReady {cfg : Config} {un : QcqUnit} (h : un.txReady cfg = true) : un.cq.bound = true := by
  simp only [txReady, Bool.and_eq_true] at h
  exact h.1.1.2

theorem QcqUnit.bound_of_rxReady {cfg : Config} {un : QcqUnit} (h : un.rxReady cfg = true) : un.cq.bound = true := by
  simp only [rxReady, Bool.and_eq_true] at h
  exact h.1.1.2

/-- The record of reading the completion `c` at the tail (R165). -/
def QcqUnit.readTrace (un : QcqUnit) (y : Sys) (c : List Byte) : List PortEvent :=
  .memRead (un.cqSlot un.cq.tail) c :: .rmb ::
    .memRead (un.colorAddr un.cq.tail) [y.mem.get (un.colorAddr un.cq.tail)] :: y.trace

/-- The pending tail slot under a silent device: its bytes are read behind a read barrier, and ring memory stays. -/
theorem Sys.Quiet.readEvent {y : Sys} (h : y.Quiet) (cfg : Config) {un : QcqUnit} (htail : un.tailPending y = true)
    {c : List Byte} (hc : c = y.mem.read (un.cqSlot un.cq.tail) un.cq.descSize.toNat) :
    (un.pending cfg y).1 = true ∧ ∃ z, un.readEvent cfg y = (c, z) ∧ z.Quiet ∧ z.mem = y.mem ∧
      z.trace = un.readTrace y c := by
  obtain ⟨hpend, -⟩ := h.pending cfg un
  obtain ⟨hbytes, hquiet, hmem, -, htrace⟩ := h.eventRound cfg false un hc rfl
  exact ⟨hpend.trans htail, (un.readEvent cfg y).2, Prod.ext hbytes rfl, hquiet, hmem, htrace⟩

/-- Reading a completion hands nothing back. -/
theorem Sys.handBacks_of_readTrace {un : QcqUnit} {y z : Sys} {c : List Byte} (h : z.trace = un.readTrace y c) :
    z.handBacks = y.handBacks :=
  (congrArg (List.filter PortEvent.isHandBack) h).trans rfl

/-! ### The ends of a poll that begins with a round -/

section
variable {p : Polling} (hp : p.Lawful) {u : UnitId} {s : State} {un : QcqUnit} (hun : ActsOn (p.instr u) u s un)
  (hready : p.ready s.cfg un = true) (hfits : un.cqFits s.cfg = true) {e : List Byte × Sys}
  (hpend : (un.pending s.cfg s.sys).1 = true) (he : un.readEvent s.cfg s.sys = e)
include hp hun hready hfits hpend he

/-- The completion matches nothing in flight: the poll ends (R238). -/
theorem Polling.Lawful.exec_of_bad {v : Word64} (hbad : p.bad s.cfg un e.1 = some v) :
    exec (p.instr u) s = .next (s.endOf u ⟨un.consume, .badCompletion, v, e.2⟩) :=
  (Polls.bad hpend he hbad).exec hp hun hready hfits (Nat.zero_le _)

variable {c : Carry} (hbad : p.bad s.cfg un e.1 = none) (htake : p.take s.cfg un e = some c)
include hbad htake

/-- Nothing else is pending: the poll ends with the one test more. -/
theorem Polling.Lawful.exec_of_one (hpos : un.inFlight ≠ 0) (hquiet : c.sys.Quiet) (hidle : c.un.tailPending c.sys = false) :
    ∃ y, exec (p.instr u) s = .next (s.endOf u ⟨c.un, .ok, BitVec.ofNat 64 c.count, y⟩) ∧ y.mem = c.sys.mem ∧
      y.trace = .memRead (c.un.colorAddr c.un.cq.tail) [c.sys.mem.get (c.un.colorAddr c.un.cq.tail)] :: c.sys.trace := by
  obtain ⟨hnone, -, hmem, -, htrace⟩ := hquiet.pending s.cfg c.un
  have hpolls := Polls.take hpend he hbad htake (.idle (hnone.trans hidle))
  refine ⟨_, (hpolls.exec hp hun hready hfits (Nat.one_le_iff_ne_zero.mpr hpos)).trans ?_, hmem, htrace⟩
  exact congrArg (fun v => Host.Outcome.next (s.endOf u ⟨c.un, .ok, v, _⟩)) (BitVec.zero_add _)

/-- Whatever else is pending: the poll does the round, and then what a poll does from the state after it (R238). -/
theorem Polling.Lawful.exec_of_round (hring : un.InRing) (hconf : c.un.conf = un.conf) (hready1 : p.ready s.cfg c.un = true)
    (hfits1 : c.un.cqFits s.cfg = true) :
    ∃ d : PollEnd, (d.code = .ok ∨ d.code = .badCompletion) ∧
      exec (p.instr u) ((s.setUnit u c.un).withSys c.sys) = .next (s.endOf u d) ∧
      exec (p.instr u) s = .next (s.endOf u (d.add c.count)) := by
  obtain ⟨_, htake', hring1, hless⟩ := hp.retires hring hbad
  cases htake.symm.trans htake'
  obtain ⟨n, d, hn, hrest⟩ := Polls.exists_of_inRing hp s.cfg hring1 c.sys
  exact ⟨d, hrest.code, hrest.exec_of_setUnit hp hun hconf hready1 hfits1 hn,
    (Polls.take hpend he hbad htake hrest).exec hp hun hready hfits (Nat.lt_of_le_of_lt hn hless)⟩

end

end Sys2Proof.Machine

open Sys2Proof Sys2Proof.Machine

/-- Settles O51: both polls end in their first round, which hands nothing back. -/
theorem badCompletionReported : Obligations.BadCompletionReported := by
  intro u s un hfits hquiet htail events hevents
  obtain ⟨hpend, y, he, -, hmem, htrace⟩ := Sys.Quiet.readEvent hquiet s.cfg htail rfl
  have hhand := Sys.handBacks_of_readTrace htrace
  subst hevents
  refine ⟨fun ci hun hready hci hindex => ⟨y, ?_, htrace, hhand, hmem⟩,
    fun hun hready hempty => ⟨y, ?_, htrace, hhand, hmem⟩⟩
  · have hbad : un.badIndex ci = true := by simpa [QcqUnit.badIndex] using hindex
    subst hci
    exact Polling.tx_lawful.exec_of_bad hun hready hfits hpend he (if_pos hbad)
  · exact Polling.rx_lawful.exec_of_bad hun hready hfits hpend he (if_pos hempty)

/-- Settles O54: the round delivers the buffer of the tail, and the poll goes on behind it. -/
theorem receiveDelivers : Obligations.ReceiveDelivers := by
  intro u s un hun hready hfits hwf hquiet htail hflight c ok events hc hok hevents
  obtain ⟨hpend, y, he, hquiet1, hmem, htrace⟩ := Sys.Quiet.readEvent hquiet s.cfg htail hc
  have hbad : Polling.rx.bad s.cfg un c = none := Polling.rx_bad_eq_none.mpr hflight
  have hokEq : rxOk s.cfg (rxStatus s.cfg.rxComp c) (rxCsum s.cfg.rxComp c) = ok := by
    rw [Bool.eq_iff_iff, hok]
    simp [rxOk]
  have htake : Polling.rx.take s.cfg un (c, y) =
      some ⟨un.consume.retire, 1, y.bufDeliver un.tailHandle (rxLen s.cfg.rxComp c) ok⟩ := by
    rw [← hokEq]
    rfl
  have htrace1 : (y.bufDeliver un.tailHandle (rxLen s.cfg.rxComp c) ok).trace = events := by
    rw [hevents]
    exact congrArg (_ :: ·) htrace
  refine ⟨un.consume.retire.side, un.consume.retire, y.bufDeliver un.tailHandle (rxLen s.cfg.rxComp c) ok, rfl,
    SideTable.get_invalidate _ hwf, hquiet1, hmem, htrace1, fun hidle => ?_, fun hinv hcapMax => ?_⟩
  · have hidle1 : un.consume.retire.tailPending y = false := by
      rw [QcqUnit.tailPending, hmem]
      exact hidle
    obtain ⟨y2, hexec, hmem2, htrace2⟩ :=
      Polling.rx_lawful.exec_of_one hun hready hfits hpend he hbad htake hflight hquiet1 hidle1
    exact ⟨y2, hexec, hmem2.trans hmem, by rw [htrace2, htrace1, ← hmem]; rfl⟩
  · have hv := QcqUnit.valid_of_rxReady hready
    obtain ⟨htailLt, hcap⟩ := hinv.cq_inside (QcqUnit.bound_of_rxReady hready) hcapMax
    obtain ⟨d, hcode, hexec1, hexec⟩ := Polling.rx_lawful.exec_of_round hun hready hfits hpend he hbad htake
      (hinv.inRing hv hcapMax) rfl hready (QcqUnit.cqFits_takeEvent htailLt hcap hfits [])
    exact ⟨d.un, d.sys, d.code, d.info, hcode, hexec1, hexec⟩

/-- Settles O50: the round retires the descriptors up to the one the completion names, and the poll goes on behind it. -/
theorem coalescedCompletionRetires : Obligations.CoalescedCompletionRetires := by
  intro u s un hun hready hfits hinv hcapMax hquiet htail c ci d events hc hci hd hlt hdlt hevents
  have hring := hinv.inRing (QcqUnit.valid_of_txReady hready) hcapMax
  obtain ⟨htailLt, hcap⟩ := hinv.cq_inside (QcqUnit.bound_of_txReady hready) hcapMax
  obtain ⟨-, -, hwf⟩ := hinv
  obtain ⟨hpend, y, he, hquiet1, hmem, htrace⟩ := Sys.Quiet.readEvent hquiet s.cfg htail hc
  obtain rfl : d = un.ahead ci.toNat := hd
  have hbad : Polling.tx.bad s.cfg un c = none := Polling.tx_bad_eq_none.mpr (hci ▸ ⟨hlt, hdlt⟩)
  obtain ⟨side, htake, hside⟩ := Polling.tx_take_covers (e := (c, y)) hring hwf hci hlt rfl
  have htrace1 := hevents.trans (congrArg (_ ++ ·) htrace.symm)
  refine ⟨{ un.consume with q := { un.q with tail := nextIndex ci un.cap }, side := side }, y.recordAll _, rfl, rfl, rfl, rfl,
    hside, hquiet1, hmem, htrace1.symm, fun hidle => ?_, ?_⟩
  · obtain ⟨y2, hexec, hmem2, htrace2⟩ := Polling.tx_lawful.exec_of_one hun hready hfits hpend he hbad htake
      (Nat.ne_zero_of_lt hdlt) hquiet1 (by rw [← hidle, QcqUnit.tailPending, QcqUnit.tailPending, ← hmem]; rfl)
    exact ⟨y2, hexec, hmem2.trans hmem, by rw [htrace2, htrace1, ← hmem]; rfl⟩
  · obtain ⟨d, hcode, hexec1, hexec⟩ := Polling.tx_lawful.exec_of_round hun hready hfits hpend he hbad htake hring
      rfl hready (QcqUnit.cqFits_takeEvent htailLt hcap hfits [])
    exact ⟨d.un, d.sys, d.code, d.info, hcode, hexec1, hexec⟩

end

section
/-! PROOFS (family 60_exceptions.md). The two checks an operation makes before its body, and what it answers when the second
one fails (spec/60_exceptions.md R285, R286). -/

namespace Sys2Proof.Machine

/-- A well-formed operation that reads a unit finds one of the right role (spec/30_encoding.md R105, R106). -/
theorem exists_actsOn_of_wf {i : Instr} {u : UnitId} {s : State} (hu : i.unit? = some u) (h : i.wf s.roles = true) :
    ∃ un, ActsOn i u s un := by
  simp only [Instr.wf, hu, State.roles, List.getElem?_map] at h
  cases hun : s.units[u.toNat]? with
  | none => simp [hun] at h
  | some un => exact ⟨un, hun, by simpa [hun] using h⟩

theorem State.unitCond_of_getElem? {s : State} {u : UnitId} {un : QcqUnit} (h : s.units[u.toNat]? = some un)
    (p : QcqUnit → Bool) : s.unitCond u p = p un := by
  rw [State.unitCond, h]

theorem State.require_of_false (s : State) {p : Bool} (h : p = false) (k : Result) : s.require p k = s.raise .badState 0 := by
  rw [h, State.require_false]

/-- An operation on a unit whose precondition is false answers BadState, whatever its body. -/
theorem State.onUnit_require_of_false {i : Instr} {u : UnitId} {s : State} (hu : i.unit? = some u)
    (hwf : i.wf s.roles = true) {p : QcqUnit → Bool} (hp : s.unitCond u p = false) (k : QcqUnit → Result) :
    s.onUnit i u (fun un => s.require (p un) (k un)) = s.raise .badState 0 := by
  obtain ⟨un, hun⟩ := exists_actsOn_of_wf hu hwf
  rw [State.onUnit_of_actsOn hun]
  exact s.require_of_false ((State.unitCond_of_getElem? hun.1 p).symm.trans hp) _

/-- Q.ADVTAIL makes its precondition in two tests, of the Queue and of what is in flight (spec/40_queue.md R145). -/
theorem exec_qAdvTail_eq (u : UnitId) (s : State) :
    exec (.qAdvTail u) s = s.onUnit (.qAdvTail u) u fun un =>
      s.require (un.q.valid && decide (0 < un.inFlight)) ((s.setUnit u un.advTail).done (un.q.tail.zeroExtend 64)) := by
  refine congrArg (s.onUnit (.qAdvTail u) u) (funext fun un => ?_)
  cases hv : un.q.valid with
  | false => rfl
  | true => by_cases hf : un.inFlight = 0 <;> simp [State.require, hf, Nat.pos_iff_ne_zero]

/-- The complete table of R286: every operation makes its precondition before anything else but the unit check. -/
theorem exec_of_precondition_false {i : Instr} {s : State} (hwf : i.wf s.roles = true) (h : precondition s i = false) :
    exec i s = s.raise .badState 0 := by
  cases i with
  | qAdvTail u => exact (exec_qAdvTail_eq u s).trans (State.onUnit_require_of_false rfl hwf h _)
  | dcPost | dcWait n | dcStatus | dcGo n => exact s.require_of_false h _
  | diCheck | reset => cases h
  | _ => exact State.onUnit_require_of_false rfl hwf h _

end Sys2Proof.Machine

open Sys2Proof Sys2Proof.Machine

/-- Settles O8: BadState with 0 writes `R0`, `R1` and `BUSY` alone. -/
theorem falsePreconditionIsBadState : Obligations.FalsePreconditionIsBadState :=
  fun _ _ hwf h => exec_of_precondition_false hwf h

end

section
/-! PROOFS (family 60_exceptions.md). The result codes of the operations (spec/60_exceptions.md R280, R282). -/

namespace Sys2Proof.Machine

/-- The state is one in which operation `i` can have ended: not busy, with a code of its row of the matrix in `R0`. -/
def State.EndedBy (i : Instr) (t : State) : Prop := t.busy = false ∧ ∃ X ∈ codesOf i, t.r0 = codeByte X

section
variable {i : Instr} {u : UnitId} {s : State}

theorem State.endedBy_finish {X : ResultCode} {v : Word64} (h : X ∈ codesOf i := by simp [codesOf]) :
    (s.finish X v).EndedBy i := ⟨rfl, X, h, rfl⟩

theorem ok_mem_codesOf (i : Instr) : .ok ∈ codesOf i := by
  cases i <;> exact List.mem_cons_self

/-- An operation that reads a unit can find it missing and its registers in the wrong state (R282). -/
theorem mem_codesOf_of_unit (hu : i.unit? = some u) : .badState ∈ codesOf i ∧ .illegalRequest ∈ codesOf i := by
  cases i with
  | dcPost | dcWait n | dcStatus | dcGo n | diCheck | reset => cases hu
  | _ => simp [codesOf]

theorem EndsIn.doneCode {v : Word64} : EndsIn (State.EndedBy i) (s.done v) := .done (State.endedBy_finish (ok_mem_codesOf i))

theorem EndsIn.raiseCode {X : ResultCode} {v : Word64} (h : X ∈ codesOf i := by simp [codesOf]) :
    EndsIn (State.EndedBy i) (s.raise X v) :=
  .raise (State.endedBy_finish h)

/-- An operation on a unit behind a precondition: only the codes of its body are left to show. -/
theorem EndsIn.onUnitCode {p : QcqUnit → Bool} {k : QcqUnit → Result} (hu : i.unit? = some u)
    (hk : ∀ un, EndsIn (State.EndedBy i) (k un)) :
    EndsIn (State.EndedBy i) (s.onUnit i u fun un => s.require (p un) (k un)) :=
  have ⟨hbad, hillegal⟩ := mem_codesOf_of_unit hu
  .onUnit (State.endedBy_finish hillegal) fun un _ => .require (State.endedBy_finish hbad) fun _ => hk un

theorem EndsIn.endPollCode {e : Option PollEnd} (h : ∀ d, e = some d → d.code ∈ codesOf i) :
    EndsIn (State.EndedBy i) (s.endPoll u e) :=
  .endPoll fun d hd => State.endedBy_finish (h d hd)

end

/-! ### The loops -/

theorem txPollLoop_code (u : UnitId) {cfg : Config} {fuel : Nat} {c : Carry} {d : PollEnd}
    (h : txPollLoop cfg fuel c = some d) : d.code ∈ codesOf (.txPoll u) := by
  induction fuel generalizing c with
  | zero => cases h
  | succ fuel ih =>
    simp only [txPollLoop] at h
    split at h
    · cases h
      simp [codesOf]
    · split at h
      · cases h
        simp [codesOf]
      · split at h
        · cases h
        · exact ih h

theorem rxPollLoop_code (u : UnitId) {cfg : Config} {fuel : Nat} {c : Carry} {d : PollEnd}
    (h : rxPollLoop cfg fuel c = some d) : d.code ∈ codesOf (.rxPoll u) := by
  induction fuel generalizing c with
  | zero => cases h
  | succ fuel ih =>
    simp only [rxPollLoop] at h
    split at h
    · cases h
      simp [codesOf]
    · split at h
      · cases h
        simp [codesOf]
      · exact ih h

/-- Every attempt of DC.GO ends it with a code of its row or leaves the end to the next attempt (spec/42_devcmd.md R187). -/
theorem goLoop_code (m : Word16) (cfg : Config) (cmd : List Byte) (limit more n : Nat) (comp : List Byte) (y : Sys) :
    (goLoop cfg cmd limit more n comp y).code ∈ codesOf (.dcGo m) := by
  cases hseen : (y.attempt cfg cmd limit).seen with
  | false =>
    rw [goLoop_of_timeout hseen]
    simp [codesOf]
  | true =>
    cases hclass : statusClass cfg ((y.attempt cfg cmd limit).sys.readStatus cfg).status with
    | success =>
      rw [goLoop_of_success hseen rfl hclass]
      simp [codesOf]
    | rejected =>
      rw [goLoop_of_rejected hseen rfl hclass]
      simp [codesOf]
    | initializing =>
      cases more with
      | zero =>
        rw [goLoop_of_spent hseen rfl hclass]
        simp [codesOf]
      | succ more =>
        rw [goLoop_of_retry hseen rfl hclass]
        exact goLoop_code m cfg cmd limit more _ _ _

/-! ### The operations -/

/-- An operation on a unit ends with a code of its row. -/
theorem exec_unit_endedBy (s : State) {i : Instr} {u : UnitId} (hu : i.unit? = some u) :
    EndsIn (State.EndedBy i) (exec i s) := by
  cases i with
  | qInit u => exact .onUnitCode rfl fun _ => .ite (fun _ => .doneCode) fun _ => .raiseCode
  | qSpace u | qHasSpace u n | qDbell u | cqInit u | cqBind u | cqNext u | qcqDown u =>
    exact .onUnitCode rfl fun _ => .doneCode
  | qAdvHead u | qAdvTail u => exact .onUnitCode rfl fun _ => .ite (fun _ => .raiseCode) fun _ => .doneCode
  | cqPend u => exact .onUnitCode rfl fun _ => .requireRing <| .ite (fun _ => .doneCode) fun _ => .doneCode
  | aqPostWait u =>
    exact .onUnitCode rfl fun _ => .ite (fun _ => .raiseCode) fun _ => .ite (fun _ => .raiseCode) fun _ =>
      .requireRing <| .ite (fun _ => .raiseCode) fun _ => .ite (fun _ => .raiseCode) fun _ => .doneCode
  | nqPoll u p =>
    refine .onUnitCode rfl fun _ => .requireRing ?_
    split
    · exact .fault _
    · exact .doneCode
  | txXmit u => exact .onUnitCode rfl fun _ => .ite (fun _ => .raiseCode) fun _ => .requireRing .doneCode
  | txPoll u => exact .onUnitCode rfl fun _ => .requireRing <| .endPollCode fun _ => txPollLoop_code u
  | rxFill u mtu => exact .onUnitCode rfl fun _ => .requireRing .doneCode
  | rxPoll u => exact .onUnitCode rfl fun _ => .requireRing <| .endPollCode fun _ => rxPollLoop_code u
  | qcqFlush u =>
    refine .onUnitCode rfl fun _ => ?_
    split
    · exact .fault _
    · exact .doneCode
  | _ => cases hu

/-- So does an operation without a unit. -/
theorem exec_noUnit_endedBy (s : State) {i : Instr} (hu : i.unit? = none) : EndsIn (State.EndedBy i) (exec i s) := by
  cases i with
  | dcPost | dcStatus => exact .require State.endedBy_finish fun _ => .doneCode
  | dcWait n => exact .require State.endedBy_finish fun _ => .ite (fun _ => .doneCode) fun _ => .raiseCode
  | dcGo n => exact .require State.endedBy_finish fun _ => .raiseCode (goLoop_code n ..)
  | diCheck => exact .ite (fun _ => .raiseCode) fun _ => .doneCode
  | reset => exact .doneCode
  | _ => cases hu

end Sys2Proof.Machine

open Sys2Proof Sys2Proof.Machine

/-- Settles O9: an operation completes only by its `raise` or `done`, each with a code of its row. -/
theorem resultCodeMatrix : Obligations.ResultCodeMatrix := by
  intro i s t hexec
  cases hu : i.unit? with
  | some u => exact exec_unit_endedBy s hu t hexec
  | none => exact exec_noUnit_endedBy s hu t hexec

end

section
/-! PROOFS (family other). What an operation can do, said once (`exec_worked`): it reaches the surroundings only through the
primitives of spec/00_scope.md R10, changes the registers of a unit only by the steps that the model names, and leaves its
inputs as they are. The invariants of spec/10_state.md follow from what one such step keeps. -/

namespace Sys2Proof.Machine

/-! ### The surroundings -/

/-- The surroundings that the primitives on the ports make of `y₀` (spec/20_memory.md R70 to R76). -/
inductive Sys.Served (cfg : Config) (y₀ : Sys) : Sys → Prop
  | start : Served cfg y₀ y₀
  | record {y : Sys} (h : Served cfg y₀ y) (e : PortEvent) : Served cfg y₀ (y.record e)
  | note {y : Sys} (h : Served cfg y₀ y) (un : QcqUnit) : Served cfg y₀ (y.note cfg un)
  | tick {y : Sys} (h : Served cfg y₀ y) : Served cfg y₀ (y.tick cfg)
  | memRead {y : Sys} (h : Served cfg y₀ y) (addr n : Nat) : Served cfg y₀ (y.memRead cfg addr n).2
  | memWrite {y : Sys} (h : Served cfg y₀ y) (addr : Nat) (bs : List Byte) : Served cfg y₀ (y.memWrite cfg addr bs)
  | regRead {y : Sys} (h : Served cfg y₀ y) (addr n : Nat) : Served cfg y₀ (y.regRead cfg addr n).2
  | regWrite {y : Sys} (h : Served cfg y₀ y) (addr : Nat) (bs : List Byte) : Served cfg y₀ (y.regWrite cfg addr bs)
  | bufAlloc {y : Sys} (h : Served cfg y₀ y) (len : Nat) : Served cfg y₀ (y.bufAlloc len).2

namespace Sys.Served

variable {cfg : Config} {y₀ y : Sys}

theorem pending (h : y₀.Served cfg y) (un : QcqUnit) : y₀.Served cfg (un.pending cfg y).2 := (h.note un).memRead _ _

theorem readEvent (h : y₀.Served cfg y) (un : QcqUnit) : y₀.Served cfg (un.readEvent cfg y).2 :=
  ((h.pending un).record _).memRead _ _

theorem ring (h : y₀.Served cfg y) (un : QcqUnit) : y₀.Served cfg (un.ring cfg y) := (h.record _).regWrite _ _

theorem waitPending (h : y₀.Served cfg y) (un : QcqUnit) (left ticks : Nat) :
    y₀.Served cfg (un.waitPending cfg left ticks y).sys := by
  induction left generalizing ticks y with
  | zero =>
    cases hpend : (un.pending cfg y).1 with
    | true => rw [QcqUnit.waitPending_of_pending hpend]; exact h.pending un
    | false => rw [QcqUnit.waitPending_zero hpend]; exact h.pending un
  | succ left ih =>
    cases hpend : (un.pending cfg y).1 with
    | true => rw [QcqUnit.waitPending_of_pending hpend]; exact h.pending un
    | false => rw [QcqUnit.waitPending_succ hpend]; exact ih (h.pending un).tick _

theorem post (h : y₀.Served cfg y) (cmd : List Byte) : y₀.Served cfg (y.post cfg cmd) :=
  post_keeps h fun _ _ _ hz => hz.regWrite _ _

theorem waitDone (h : y₀.Served cfg y) (left ticks : Nat) : y₀.Served cfg (y.waitDone cfg left ticks).sys :=
  waitDone_keeps h (fun _ hz => hz.regRead _ _) fun _ hz => hz.tick

theorem readStatus (h : y₀.Served cfg y) : y₀.Served cfg (y.readStatus cfg).sys :=
  readCompWords_keeps (h.regRead _ _) fun _ _ hz => hz.regRead _ _

theorem goLoop {y : Sys} (h : y₀.Served cfg y) (cmd : List Byte) (limit more n : Nat) (comp : List Byte) :
    y₀.Served cfg (Machine.goLoop cfg cmd limit more n comp y).sys := by
  have hattempt : y₀.Served cfg (y.attempt cfg cmd limit).sys := (h.post cmd).waitDone limit 0
  cases hseen : (y.attempt cfg cmd limit).seen with
  | false => rw [goLoop_of_timeout hseen]; exact hattempt
  | true =>
    cases hclass : statusClass cfg ((y.attempt cfg cmd limit).sys.readStatus cfg).status with
    | success => rw [goLoop_of_success hseen rfl hclass]; exact hattempt.readStatus
    | rejected => rw [goLoop_of_rejected hseen rfl hclass]; exact hattempt.readStatus
    | initializing =>
      cases more with
      | zero => rw [goLoop_of_spent hseen rfl hclass]; exact hattempt.readStatus
      | succ more =>
        rw [goLoop_of_retry hseen rfl hclass]
        exact goLoop hattempt.readStatus cmd limit more _ _

theorem flushBuffer (h : y₀.Served cfg y) (un : QcqUnit) : y₀.Served cfg (un.flushBuffer y) := by
  unfold QcqUnit.flushBuffer
  split_ifs
  · exact h.record _
  · exact h.record _
  · exact h

theorem dispatchEvent (h : y₀.Served cfg y) (process : Bool) (code : Word16) :
    y₀.Served cfg (y.dispatchEvent cfg process code) := by
  unfold Sys.dispatchEvent
  split_ifs
  · exact h.record _
  · exact h.record _
  · exact h
  · exact h

/-- Every access keeps the stores canonical. -/
theorem memOk (h : y₀.Served cfg y) (h₀ : y₀.MemOk) : y.MemOk := by
  induction h with
  | start => exact h₀
  | record _ e ih => exact ih.record e
  | note _ un ih => exact ih.note cfg un
  | tick _ ih => exact ih.tick
  | memRead _ addr n ih => exact ih.memRead
  | memWrite _ addr bs ih => exact ih.memWrite
  | regRead _ addr n ih => exact ih.regRead
  | regWrite _ addr bs ih => exact ih.regWrite
  | bufAlloc _ len ih => exact ih.bufAlloc

end Sys.Served

/-! ### The registers of a unit -/

/-- The units that the named steps on a unit's registers make of `un₀`, each under the test that the operations make before
it, where an invariant depends on the test. -/
inductive QcqUnit.Reworked (cfg : Config) (un₀ : QcqUnit) : QcqUnit → Prop
  | start : Reworked cfg un₀ un₀
  | advHead {un : QcqUnit} (h : Reworked cfg un₀ un) : Reworked cfg un₀ un.advHead
  | advTail {un : QcqUnit} (h : Reworked cfg un₀ un) : Reworked cfg un₀ un.advTail
  | own {un : QcqUnit} (h : Reworked cfg un₀ un) (b : Handle) : Reworked cfg un₀ (un.own b)
  | retire {un : QcqUnit} (h : Reworked cfg un₀ un) : Reworked cfg un₀ un.retire
  | consume {un : QcqUnit} (h : Reworked cfg un₀ un) (hb : un.cq.bound = true) : Reworked cfg un₀ un.consume
  | seen {un : QcqUnit} (h : Reworked cfg un₀ un) (id : Word16) : Reworked cfg un₀ { un with lastSeenId := id }
  | initQueue {un : QcqUnit} (h : Reworked cfg un₀ un) (hv : un.q.valid = false) {a0 : Word64}
      (ha : legalCapacity cfg a0 = true) (a1 a2 : Word64) : Reworked cfg un₀ (un.initQueue a0 a1 a2)
  | initComp {un : QcqUnit} (h : Reworked cfg un₀ un) (a0 : Word64) : Reworked cfg un₀ (un.initComp cfg a0)
  | bind {un : QcqUnit} (h : Reworked cfg un₀ un) (hready : (un.cq.valid && !un.cq.bound && un.q.valid) = true) :
      Reworked cfg un₀ un.bind
  | down {un : QcqUnit} (h : Reworked cfg un₀ un) : Reworked cfg un₀ un.down
  | reset {un : QcqUnit} (h : Reworked cfg un₀ un) : Reworked cfg un₀ (un.reset cfg)

namespace QcqUnit

variable {cfg : Config} {un un₀ : QcqUnit}

/-- No step writes the configuration of a unit (spec/10_state.md R27). -/
theorem Reworked.conf (h : un₀.Reworked cfg un) : un.conf = un₀.conf := by
  induction h with
  | start => rfl
  | _ => assumption

/-! ### What each step keeps of the invariants -/

theorem Inv.advHead (h : un.Inv cfg) (hcap : cfg.capMax ≤ 65536) : un.advHead.Inv cfg := by
  obtain ⟨hq, hcq, hwf⟩ := h
  refine ⟨fun hv => ?_, hcq, hwf⟩
  obtain ⟨hpow, hmin, hmax, hhead, htail⟩ := hq hv
  exact ⟨hpow, hmin, hmax, nextIndex_lt hhead (hmax.trans hcap), htail⟩

theorem Inv.advTail (h : un.Inv cfg) (hcap : cfg.capMax ≤ 65536) : un.advTail.Inv cfg := by
  obtain ⟨hq, hcq, hwf⟩ := h
  refine ⟨fun hv => ?_, hcq, hwf⟩
  obtain ⟨hpow, hmin, hmax, hhead, htail⟩ := hq hv
  exact ⟨hpow, hmin, hmax, hhead, nextIndex_lt htail (hmax.trans hcap)⟩

theorem Inv.withSide (h : un.Inv cfg) {t : SideTable} (ht : t.wf = true) : ({ un with side := t } : QcqUnit).Inv cfg := by
  obtain ⟨hq, hcq, -⟩ := h
  exact ⟨hq, hcq, ht⟩

theorem Inv.own (h : un.Inv cfg) (hcap : cfg.capMax ≤ 65536) (b : Handle) : (un.own b).Inv cfg := by
  obtain ⟨-, -, hwf⟩ := id h
  exact (h.withSide (SideTable.set_wf _ _ hwf)).advHead hcap

theorem Inv.retire (h : un.Inv cfg) (hcap : cfg.capMax ≤ 65536) : un.retire.Inv cfg := by
  obtain ⟨-, -, hwf⟩ := id h
  exact (h.withSide (SideTable.invalidate_wf _ hwf)).advTail hcap

theorem Inv.consume (h : un.Inv cfg) (hcap : cfg.capMax ≤ 65536) (hb : un.cq.bound = true) : un.consume.Inv cfg := by
  obtain ⟨htail, hle⟩ := h.cq_inside hb hcap
  obtain ⟨hq, ⟨hbound, -⟩, hwf⟩ := h
  obtain ⟨hcv, hv, -⟩ := hbound hb
  exact ⟨hq, ⟨fun _ => ⟨hcv, hv, nextIndex_lt htail hle⟩, fun _ hunbound => by cases hb.symm.trans hunbound⟩, hwf⟩

/-- A ring bound to a Queue keeps the Queue valid, so Q.INIT never acts beneath one. -/
theorem Inv.initQueue (h : un.Inv cfg) (hcap : cfg.capMax ≤ 65536) (hv : un.q.valid = false) {a0 : Word64}
    (ha : legalCapacity cfg a0 = true) (a1 a2 : Word64) : (un.initQueue a0 a1 a2).Inv cfg := by
  obtain ⟨-, ⟨hbound, hunbound⟩, hwf⟩ := h
  obtain ⟨⟨k, hk⟩, hmin, hmax⟩ := legalCapacity_iff.mp ha
  have hcapacity : (un.initQueue a0 a1 a2).q.capacity.toNat = a0.toNat := cap_initQueue un a1 a2 (hmax.trans hcap)
  have hpos : 0 < a0.toNat := hk ▸ Nat.two_pow_pos k
  refine ⟨fun _ => ?_, ⟨fun hb => ?_, hunbound⟩, SideTable.invalidateBelow_wf _ hwf⟩
  · rw [hcapacity]
    exact ⟨isPow2_iff.mpr ⟨k, hk⟩, hmin, hmax, hpos, hpos⟩
  · obtain ⟨-, hvalid, -⟩ := hbound hb
    cases hv.symm.trans hvalid

theorem Inv.initComp (h : un.Inv cfg) (a0 : Word64) : (un.initComp cfg a0).Inv cfg := by
  obtain ⟨hq, -, hwf⟩ := h
  exact ⟨hq, ⟨nofun, fun _ _ => rfl⟩, hwf⟩

theorem Inv.bind (h : un.Inv cfg) (hready : (un.cq.valid && !un.cq.bound && un.q.valid) = true) : un.bind.Inv cfg := by
  simp only [Bool.and_eq_true, Bool.not_eq_true'] at hready
  obtain ⟨⟨hcv, hb⟩, hv⟩ := hready
  obtain ⟨hq, ⟨-, hunbound⟩, hwf⟩ := h
  obtain ⟨-, -, -, hhead, -⟩ := hq hv
  have htail : un.bind.cq.tail.toNat < un.cap := by
    rw [bind_cq, hunbound hcv hb]
    exact Nat.zero_lt_of_lt hhead
  exact ⟨hq, ⟨fun _ => ⟨hcv, hv, htail⟩, nofun⟩, hwf⟩

theorem Inv.down (h : un.Inv cfg) : un.down.Inv cfg := by
  obtain ⟨-, -, hwf⟩ := h
  exact ⟨nofun, ⟨nofun, nofun⟩, hwf⟩

theorem Inv.reset (h : un.Inv cfg) : (un.reset cfg).Inv cfg := by
  obtain ⟨-, -, hwf⟩ := h
  exact ⟨nofun, ⟨nofun, nofun⟩, SideTable.invalidateAll_wf hwf⟩

theorem Reworked.inv (h : un₀.Reworked cfg un) (hcap : cfg.capMax ≤ 65536) (h₀ : un₀.Inv cfg) : un.Inv cfg := by
  induction h with
  | start => exact h₀
  | advHead _ ih => exact ih.advHead hcap
  | advTail _ ih => exact ih.advTail hcap
  | own _ b ih => exact ih.own hcap b
  | retire _ ih => exact ih.retire hcap
  | consume _ hb ih => exact ih.consume hcap hb
  | seen _ id ih => exact ih
  | initQueue _ hv ha a1 a2 ih => exact ih.initQueue hcap hv ha a1 a2
  | initComp _ a0 ih => exact ih.initComp a0
  | bind _ hready ih => exact ih.bind hready
  | down _ ih => exact ih.down
  | reset _ ih => exact ih.reset

end QcqUnit

/-! ### The loops -/

/-- An operation has made the unit `un` and the surroundings `y` of `un₀` and `y₀`. -/
structure Works (cfg : Config) (un₀ : QcqUnit) (y₀ : Sys) (un : QcqUnit) (y : Sys) : Prop where
  unit : un₀.Reworked cfg un
  sys : y₀.Served cfg y

namespace Works

variable {cfg : Config} {un₀ un : QcqUnit} {y₀ y : Sys} {c c1 : Carry} {fuel : Nat}

theorem start : Works cfg un₀ y₀ un₀ y₀ := ⟨.start, .start⟩

theorem pending (h : Works cfg un₀ y₀ un y) : Works cfg un₀ y₀ un (un.pending cfg y).2 := ⟨h.unit, h.sys.pending un⟩

/-- The completion at the tail is read and consumed. -/
theorem consumed (h : Works cfg un₀ y₀ un y) (hb : un.cq.bound = true) :
    Works cfg un₀ y₀ un.consume (un.readEvent cfg y).2 :=
  ⟨h.unit.consume hb, h.sys.readEvent un⟩

theorem retired (h : Works cfg un₀ y₀ un y) (e : PortEvent) : Works cfg un₀ y₀ un.retire (y.record e) :=
  ⟨h.unit.retire, h.sys.record e⟩

theorem fillLoop (h : Works cfg un₀ y₀ c.un c.sys) (mtu : Word16) (n : Nat) :
    Works cfg un₀ y₀ (Machine.fillLoop cfg mtu n c).un (Machine.fillLoop cfg mtu n c).sys := by
  induction n generalizing c with
  | zero => exact h
  | succ n ih =>
    obtain hf | ⟨b, hf⟩ := fillLoop_succ cfg mtu n c <;> rw [hf]
    · exact ⟨h.unit, h.sys.bufAlloc _⟩
    · exact ih (c := c.fill cfg mtu b) ⟨h.unit.own b, (h.sys.bufAlloc _).memWrite _ _⟩

theorem retireUntil (h : Works cfg un₀ y₀ c.un c.sys) {ci : Word16} (hr : Machine.retireUntil ci fuel c = some c1) :
    Works cfg un₀ y₀ c1.un c1.sys ∧ c1.un.cq = c.un.cq := by
  induction fuel generalizing c with
  | zero => cases hr
  | succ fuel ih =>
    rw [Machine.retireUntil] at hr
    split at hr
    · cases hr
      exact ⟨h.retired _, rfl⟩
    · exact ih (c := ⟨c.un.retire, c.count + 1, c.sys.bufRetire c.un.tailHandle⟩) (h.retired _) hr

theorem txPollLoop (h : Works cfg un₀ y₀ c.un c.sys) (hb : c.un.cq.bound = true) {d : PollEnd}
    (hr : Machine.txPollLoop cfg fuel c = some d) : Works cfg un₀ y₀ d.un d.sys := by
  induction fuel generalizing c with
  | zero => cases hr
  | succ fuel ih =>
    simp only [Machine.txPollLoop] at hr
    split at hr
    · cases hr
      exact h.pending
    · split at hr
      · cases hr
        exact h.consumed hb
      · split at hr
        · cases hr
        · next c1 hc1 =>
          obtain ⟨hc1, hcq⟩ := retireUntil (c := ⟨c.un.consume, c.count, _⟩) (h.consumed hb) hc1
          exact ih hc1 (hcq ▸ hb) hr

theorem rxPollLoop (h : Works cfg un₀ y₀ c.un c.sys) (hb : c.un.cq.bound = true) {d : PollEnd}
    (hr : Machine.rxPollLoop cfg fuel c = some d) : Works cfg un₀ y₀ d.un d.sys := by
  induction fuel generalizing c with
  | zero => cases hr
  | succ fuel ih =>
    simp only [Machine.rxPollLoop] at hr
    split at hr
    · cases hr
      exact h.pending
    · split at hr
      · cases hr
        exact h.consumed hb
      · exact ih (c := ⟨c.un.consume.retire, c.count + 1, _⟩) ((h.consumed hb).retired _) hb hr

theorem flushLoop (h : Works cfg un₀ y₀ c.un c.sys) (hr : Machine.flushLoop fuel c = some c1) :
    Works cfg un₀ y₀ c1.un c1.sys := by
  induction fuel generalizing c with
  | zero =>
    rw [Machine.flushLoop] at hr
    split at hr
    · cases hr
      exact h
    · cases hr
  | succ fuel ih =>
    rw [Machine.flushLoop] at hr
    split at hr
    · cases hr
      exact h
    · exact ih (c := ⟨c.un.retire, c.count + 1, c.un.flushBuffer c.sys⟩) ⟨h.unit.retire, h.sys.flushBuffer c.un⟩ hr

theorem drains {process : Bool} {count news : Nat} {un' : QcqUnit} {y' : Sys}
    (hr : Drains cfg process un y count news un' y') (h : Works cfg un₀ y₀ un y) (hb : un.cq.bound = true) :
    Works cfg un₀ y₀ un' y' := by
  induction hr with
  | idle _ => exact h.pending
  | event _ he _ ih =>
    subst he
    obtain ⟨hunit, hsys⟩ := h.consumed hb
    exact ih ⟨hunit.seen _, hsys.dispatchEvent _ _⟩ hb

end Works

/-! ### Every operation -/

theorem forall₂_set {α : Type} {R : α → α → Prop} (hrefl : ∀ a, R a a) {l : List α} {k : Nat} {a b : α}
    (ha : l[k]? = some a) (hab : R a b) : List.Forall₂ R l (l.set k b) := by
  induction l generalizing k with
  | nil => cases ha
  | cons x l ih =>
    cases k with
    | zero =>
      cases ha
      exact .cons hab (List.forall₂_same.mpr fun a _ => hrefl a)
    | succ k => exact .cons (hrefl x) (ih ha)

/-- What operation `i`, begun in state `s`, can make of it: the argument registers, `CTX.cmd`, the configuration, the
inbox and the book stay, `REQ` unless it is RESET, `CTX.comp` but for three operations (spec/10_state.md R22, R25, R27). -/
structure State.Worked (i : Instr) (s t : State) : Prop where
  frame : t = { s with
    req := t.req, busy := t.busy, r0 := t.r0, r1 := t.r1, ctxComp := t.ctxComp, units := t.units, dcState := t.dcState
    dcGate := t.dcGate, sys := t.sys }
  req : t.req = if i = .reset then 0 else s.req
  comp : t.ctxComp = s.ctxComp ∨ (∃ u, i = .aqPostWait u) ∨ i = .dcStatus ∨ ∃ n, i = .dcGo n
  units : List.Forall₂ (QcqUnit.Reworked s.cfg) s.units t.units
  sys : s.sys.Served s.cfg t.sys

namespace State.Worked

variable {i : Instr} {s t : State} {u : UnitId} {un un' : QcqUnit} {y : Sys}

theorem finish (h : s.Worked i t) (X : ResultCode) (v : Word64) : s.Worked i (t.finish X v) :=
  ⟨congrArg (State.finish · X v) h.frame, h.req, h.comp, h.units, h.sys⟩

theorem cfg (h : s.Worked i t) : t.cfg = s.cfg := by rw [h.frame]

theorem withComp (h : s.Worked i t) (hi : (∃ u, i = .aqPostWait u) ∨ i = .dcStatus ∨ ∃ n, i = .dcGo n) (c : List Byte) :
    s.Worked i { t with ctxComp := c } :=
  ⟨congrArg (fun t : State => { t with ctxComp := c }) h.frame, h.req, .inr hi, h.units, h.sys⟩

theorem withSys (hi : i ≠ .reset) (hy : s.sys.Served s.cfg y) : s.Worked i (s.withSys y) :=
  ⟨rfl, (if_neg hi).symm, .inl rfl, List.forall₂_same.mpr fun _ _ => .start, hy⟩

theorem ofUnit (hi : i ≠ .reset) (hun : ActsOn i u s un) (h : Works s.cfg un s.sys un' y) :
    s.Worked i ((s.setUnit u un').withSys y) :=
  ⟨rfl, (if_neg hi).symm, .inl rfl, forall₂_set (fun _ => .start) hun.1 h.unit, h.sys⟩

end State.Worked

section
variable {i : Instr} {s : State} {u : UnitId} {un : QcqUnit}

/-- An operation on a unit behind a precondition: only what its body does to the unit and the surroundings is left to
show. -/
theorem EndsIn.onUnitWorked {p : QcqUnit → Bool} {k : QcqUnit → Result} (hi : i ≠ .reset)
    (hk : ∀ un, ActsOn i u s un → p un = true → EndsIn (s.Worked i) (k un)) :
    EndsIn (s.Worked i) (s.onUnit i u fun un => s.require (p un) (k un)) :=
  have hsame : s.Worked i s := .withSys hi .start
  .onUnit (hsame.finish _ _) fun un hun => .require (hsame.finish _ _) (hk un hun)

/-- The body ends with unit `u` as it was and the surroundings `y`. -/
theorem EndsIn.served (hi : i ≠ .reset) {y : Sys} (hy : s.sys.Served s.cfg y) (X : ResultCode) (v : Word64) :
    EndsIn (s.Worked i) ((s.withSys y).raise X v) :=
  .raise ((State.Worked.withSys hi hy).finish X v)

/-- The body ends with the unit `un'` and the surroundings `y`. -/
theorem EndsIn.works (hi : i ≠ .reset) (hun : ActsOn i u s un) {un' : QcqUnit} {y : Sys}
    (h : Works s.cfg un s.sys un' y) (X : ResultCode) (v : Word64) :
    EndsIn (s.Worked i) (((s.setUnit u un').withSys y).raise X v) :=
  .raise ((State.Worked.ofUnit hi hun h).finish X v)

theorem execAqPostWait_worked (u : UnitId) (s : State) : EndsIn (s.Worked (.aqPostWait u)) (execAqPostWait u s) := by
  have hi : Instr.aqPostWait u ≠ .reset := nofun
  refine .onUnitWorked hi fun un hun hready => ?_
  obtain ⟨-, -, hb, -⟩ := QcqUnit.adminReady_iff.mp hready
  have hposted : Works s.cfg un s.sys un.advHead (un.postAndWait s.cfg s.ctxCmd s.sys).sys :=
    ⟨.advHead .start, ((Sys.Served.start.memWrite _ _).ring _).waitPending _ _ _⟩
  have hanswered : Works s.cfg un s.sys un.advHead.consume.advTail
      (un.advHead.readComp s.cfg (un.postAndWait s.cfg s.ctxCmd s.sys).sys).2 :=
    ⟨(hposted.unit.consume hb).advTail, (hposted.sys.record .rmb).memRead _ _⟩
  have hend : s.Worked (.aqPostWait u)
      (s.answerAdmin u un (un.advHead.readComp s.cfg (un.postAndWait s.cfg s.ctxCmd s.sys).sys)) :=
    (State.Worked.ofUnit hi hun hanswered).withComp (.inl ⟨u, rfl⟩) _
  exact .ite (fun _ => .served hi .start _ _) fun _ => .ite (fun _ => .served hi .start _ _) fun _ => .requireRing <|
    .ite (fun _ => .works hi hun hposted _ _) fun _ => .ite (fun _ => .raise (hend.finish _ _)) fun _ => .done (hend.finish _ _)

theorem exec_unit_worked (s : State) {i : Instr} {u : UnitId} (hu : i.unit? = some u) :
    EndsIn (s.Worked i) (exec i s) := by
  have hi : i ≠ .reset := by
    rintro rfl
    cases hu
  cases i with
  | qInit u =>
    exact .onUnitWorked hi fun un hun hv => .ite
      (fun ha => .works hi hun ⟨.initQueue .start (Bool.not_eq_true' _ ▸ hv) ha _ _, .start⟩ _ _) fun _ =>
        .served hi .start _ _
  | qSpace u | qHasSpace u n => exact .onUnitWorked hi fun un _ _ => .served hi .start _ _
  | qAdvHead u =>
    exact .onUnitWorked hi fun un hun _ => .ite (fun _ => .served hi .start _ _) fun _ =>
      .works hi hun ⟨.advHead .start, .start⟩ _ _
  | qAdvTail u =>
    exact .onUnitWorked hi fun un hun _ => .ite (fun _ => .served hi .start _ _) fun _ =>
      .works hi hun ⟨.advTail .start, .start⟩ _ _
  | qDbell u => exact .onUnitWorked hi fun un _ _ => .served hi (Sys.Served.start.ring un) _ _
  | cqInit u => exact .onUnitWorked hi fun un hun _ => .works hi hun ⟨.initComp .start _, .start⟩ _ _
  | cqBind u => exact .onUnitWorked hi fun un hun hready => .works hi hun ⟨.bind .start hready, .start⟩ _ _
  | cqPend u =>
    have hpend := fun un => Sys.Served.pending (cfg := s.cfg) (y₀ := s.sys) .start un
    exact .onUnitWorked hi fun un _ _ => .requireRing <|
      .ite (fun _ => .served hi ((hpend un).record .rmb) _ _) fun _ => .served hi (hpend un) _ _
  | cqNext u =>
    exact .onUnitWorked hi fun un hun hready =>
      .works hi hun ⟨.consume .start (QcqUnit.cqReady_iff.mp hready).2, .start⟩ _ _
  | qcqDown u => exact .onUnitWorked hi fun un hun _ => .works hi hun ⟨.down .start, .start⟩ _ _
  | aqPostWait u => exact execAqPostWait_worked u s
  | nqPoll u process =>
    refine .onUnitWorked hi fun un hun hready => .requireRing ?_
    obtain ⟨-, hb, -⟩ := QcqUnit.notifyReady_iff.mp hready
    split
    · exact .fault _
    · next d hd =>
      obtain ⟨_, _, hrun⟩ := drains_of_notifyLoop hd
      exact .works hi hun (Works.drains hrun .start hb) _ _
  | txXmit u =>
    exact .onUnitWorked hi fun un hun _ => .ite (fun _ => .served hi .start _ _) fun _ => .requireRing <|
      .works hi hun ⟨.own .start s.a0, (Sys.Served.start.memWrite _ (s.packetDesc un)).ring (un.own s.a0)⟩ _ _
  | txPoll u =>
    exact .onUnitWorked hi fun un hun hready => .requireRing <| .endPoll fun d hd =>
      (State.Worked.ofUnit hi hun <|
        Works.txPollLoop (c := ⟨un, 0, s.sys⟩) .start (QcqUnit.bound_of_txReady hready) hd).finish _ _
  | rxFill u mtu =>
    refine .onUnitWorked hi fun un hun _ => .requireRing ?_
    have hfill := Works.fillLoop (cfg := s.cfg) (c := ⟨un, 0, s.sys⟩) .start mtu un.space
    refine .works hi hun ⟨hfill.unit, ?_⟩ _ _
    split
    · exact hfill.sys.ring _
    · exact hfill.sys
  | rxPoll u =>
    exact .onUnitWorked hi fun un hun hready => .requireRing <| .endPoll fun d hd =>
      (State.Worked.ofUnit hi hun <|
        Works.rxPollLoop (c := ⟨un, 0, s.sys⟩) .start (QcqUnit.bound_of_rxReady hready) hd).finish _ _
  | qcqFlush u =>
    refine .onUnitWorked hi fun un hun _ => ?_
    split
    · exact .fault _
    · next c hc => exact .works hi hun (Works.flushLoop (c := ⟨un, 0, s.sys⟩) .start hc) _ _
  | _ => cases hu

theorem exec_noUnit_worked (s : State) {i : Instr} (hu : i.unit? = none) : EndsIn (s.Worked i) (exec i s) := by
  have hsame : List.Forall₂ (QcqUnit.Reworked s.cfg) s.units s.units := List.forall₂_same.mpr fun _ _ => .start
  have hstart : s.sys.Served s.cfg s.sys := .start
  have hbad : i ≠ .reset → EndsIn (s.Worked i) (s.raise .badState 0) := fun hi => .served hi .start _ _
  cases i with
  | dcPost =>
    exact .require (hbad nofun _ rfl) fun _ => .done ⟨rfl, rfl, .inl rfl, hsame, hstart.post _⟩
  | dcWait n =>
    exact .require (hbad nofun _ rfl) fun _ =>
      .ite (fun _ => .done ⟨rfl, rfl, .inl rfl, hsame, hstart.waitDone _ _⟩) fun _ =>
        .raise ⟨rfl, rfl, .inl rfl, hsame, hstart.waitDone _ _⟩
  | dcStatus =>
    exact .require (hbad nofun _ rfl) fun _ => .done ⟨rfl, rfl, .inr (.inr (.inl rfl)), hsame, hstart.readStatus⟩
  | dcGo n =>
    exact .require (hbad nofun _ rfl) fun _ =>
      .raise ⟨rfl, rfl, .inr (.inr (.inr ⟨n, rfl⟩)), hsame, hstart.goLoop _ _ _ _ _⟩
  | diCheck =>
    have hi : Instr.diCheck ≠ .reset := nofun
    exact .ite (fun _ => .served hi (hstart.regRead _ _) _ _) fun _ =>
      .served hi ((hstart.regRead _ _).regRead _ _) _ _
  | reset =>
    exact .done ⟨rfl, rfl, .inl rfl,
      List.forall₂_map_right_iff.mpr (List.forall₂_same.mpr fun _ _ => .reset .start), hstart⟩
  | _ => cases hu

/-- What operation `i` can make of the state. -/
theorem exec_worked {i : Instr} {s t : State} (h : exec i s = .next t) : s.Worked i t := by
  cases hu : i.unit? with
  | some u => exact exec_unit_worked s hu t h
  | none => exact exec_noUnit_worked s hu t h

end

end Sys2Proof.Machine
end

section
/-! PROOFS (family other). What a step is, and what it keeps (spec/10_state.md R20, R21, R24, R31, R34): an operation, of
which `exec_worked` says what it can do, or a move of the outside. -/

namespace Sys2Proof.Machine

variable {s t : State}

/-! ### The step -/

theorem step_of_goesOn (h : s.goesOn = true) : step s = if s.busy then s.runRequest else .next s.idle := by
  simp only [State.goesOn, Bool.and_eq_true, Option.isNone_iff_eq_none] at h
  obtain ⟨hcfg, hbreach⟩ := h
  rw [step, if_pos hcfg, State.proceed, hbreach]

/-- What a step answers that answers a next state: the operation requested, an illegal request, or a move of the outside. -/
theorem step_cases (h : step s = .next t) :
    s.goesOn = true ∧
    ((s.busy = true ∧
        ((∃ i, decode s.req = .ok i ∧ exec i s = .next t) ∨
          ∃ e, decode s.req = .error e ∧ t = s.finish .illegalRequest (s.req.zeroExtend 64))) ∨
      s.busy = false ∧ t = s.idle) := by
  have hon : s.goesOn = true := by
    rw [step, State.proceed] at h
    split at h
    · next hcfg =>
      split at h
      · cases h
      · next hbreach => rw [State.goesOn, hcfg, hbreach]; rfl
    · cases h
  refine ⟨hon, ?_⟩
  rw [step_of_goesOn hon] at h
  cases hbusy : s.busy with
  | false =>
    rw [hbusy] at h
    cases h
    exact .inr ⟨rfl, rfl⟩
  | true =>
    rw [hbusy, if_pos rfl, State.runRequest] at h
    cases hdec : decode s.req with
    | ok i => rw [hdec] at h; exact .inl ⟨rfl, .inl ⟨i, rfl, h⟩⟩
    | error e => rw [hdec] at h; exact .inl ⟨rfl, .inr ⟨e, rfl, State.raise_eq_next.mp h⟩⟩

/-- An invariant of the operations and of the moves of the outside is one of every step. -/
theorem step_keeps {P : State → Prop} (h : step s = .next t) (hs : P s) (hexec : ∀ i, exec i s = .next t → P t)
    (hfinish : ∀ X v, P (s.finish X v)) (hinbox : ∀ rest, P { s with inbox := rest })
    (hevent : ∀ (s' : State) (e : HostEvent), P s' → P (s'.hostEvent e)) : P t := by
  obtain ⟨-, ⟨-, ⟨i, -, hi⟩ | ⟨e, -, rfl⟩⟩ | ⟨-, rfl⟩⟩ := step_cases h
  · exact hexec i hi
  · exact hfinish _ _
  · unfold State.idle
    split
    · exact hs
    · exact hevent _ _ (hinbox _)

/-! ### Moves of the outside -/

theorem Sys.MemOk.tell {y : Sys} (h : y.MemOk) (u : Nat) : (y.tell u).MemOk := by
  rw [Sys.tell_eq]
  exact h

/-- The outside writes the stores byte by byte, or by device steps. -/
theorem State.MemInv.hostEvent (h : s.MemInv) (e : HostEvent) : (s.hostEvent e).MemInv := by
  obtain ⟨hmem, hreg⟩ := id h
  cases e with
  | setArg i v => fin_cases i <;> exact h
  | setCmd c | fwRunning b | deviceReset | bufAnswer a | resetInput => exact h
  | request w =>
    simp only [State.hostEvent, State.request]
    split
    · exact h
    · exact Sys.MemOk.sync h s.cfg s.units
  | memWrite addr bs =>
    simp only [State.hostEvent, State.requesterWrites]
    split
    · exact ⟨Memory.write_wf _ _ hmem, hreg⟩
    · exact h
  | dcData k b =>
    simp only [State.hostEvent]
    split
    · exact ⟨hmem, Memory.set_wf _ _ hreg⟩
    · exact h
  | deviceInfo k b =>
    simp only [State.hostEvent]
    split
    · exact ⟨hmem, Memory.set_wf _ _ hreg⟩
    · exact h
  | device a => exact (Sys.MemOk.sync h s.cfg s.units).devAct a
  | ringTold u => exact (Sys.MemOk.sync h s.cfg s.units).tell u

/-- The outside changes the registers of the units by the reset input only (R310). -/
theorem State.hostEvent_units (s : State) (e : HostEvent) :
    (s.hostEvent e).cfg = s.cfg ∧ List.Forall₂ (QcqUnit.Reworked s.cfg) s.units (s.hostEvent e).units := by
  have hsame : s.cfg = s.cfg ∧ List.Forall₂ (QcqUnit.Reworked s.cfg) s.units s.units :=
    ⟨rfl, List.forall₂_same.mpr fun _ _ => .start⟩
  cases e with
  | setArg i v => fin_cases i <;> exact hsame
  | setCmd c | fwRunning b | deviceReset | bufAnswer a | device a | ringTold u => exact hsame
  | resetInput =>
    exact ⟨rfl, List.forall₂_map_right_iff.mpr (List.forall₂_same.mpr fun _ _ => .reset .start)⟩
  | request w => simp only [State.hostEvent, State.request]; split <;> exact hsame
  | memWrite addr bs => simp only [State.hostEvent, State.requesterWrites]; split <;> exact hsame
  | dcData k b => simp only [State.hostEvent]; split <;> exact hsame
  | deviceInfo k b => simp only [State.hostEvent]; split <;> exact hsame

/-! ### The invariants -/

theorem State.capMax_le (h : s.configOk = true) : s.cfg.capMax ≤ 65536 := by
  simp only [State.configOk, Machine.configOk, Bool.and_eq_true] at h
  obtain ⟨⟨⟨⟨⟨⟨hnum, -⟩, -⟩, -⟩, -⟩, -⟩, -⟩ := h
  obtain ⟨-, -, -, hidx, hmax, -⟩ := of_decide_eq_true hnum
  exact hmax.trans (Nat.pow_le_pow_right (by decide) hidx)

section
variable {cfg : Config} {l l' : List QcqUnit} (h : List.Forall₂ (QcqUnit.Reworked cfg) l l')
include h

theorem inv_of_reworked (hcap : cfg.capMax ≤ 65536) (hl : ∀ un ∈ l, un.Inv cfg) : ∀ un ∈ l', un.Inv cfg := by
  induction h with
  | nil => exact hl
  | cons hun _ ih =>
    rw [List.forall_mem_cons] at hl ⊢
    exact ⟨hun.inv hcap hl.1, ih hl.2⟩

theorem conf_of_reworked : l'.map (fun un => un.conf) = l.map (fun un => un.conf) := by
  induction h with
  | nil => rfl
  | cons hun _ ih => rw [List.map_cons, List.map_cons, hun.conf, ih]

end

/-- The units are in order, under a configuration whose indices have room for them (spec/10_state.md R30). -/
def State.InOrder (s : State) : Prop := s.cfg.capMax ≤ 65536 ∧ s.RingInv

theorem State.InOrder.reworked (h : s.InOrder) (hcfg : t.cfg = s.cfg)
    (hunits : List.Forall₂ (QcqUnit.Reworked s.cfg) s.units t.units) : t.InOrder := by
  obtain ⟨hcap, hinv⟩ := h
  rw [State.InOrder, State.RingInv, hcfg]
  exact ⟨hcap, inv_of_reworked hunits hcap hinv⟩

end Sys2Proof.Machine

open Sys2Proof Sys2Proof.Machine

/-- Settles O57: every access of an operation and every move of the outside writes the stores by `Memory.set`. -/
theorem stepKeepsMemoryCanonical : Obligations.StepKeepsMemoryCanonical := by
  intro s t hs hstep
  exact step_keeps hstep hs (fun i hi => (exec_worked hi).sys.memOk hs) (fun _ _ => hs) (fun _ => hs)
    fun _ e hs' => hs'.hostEvent e

/-- Settles O58: each step on the registers of a unit keeps the unit in order (`QcqUnit.Reworked.inv`). -/
theorem stepKeepsRingsInOrder : Obligations.StepKeepsRingsInOrder := by
  intro s t hs hstep
  obtain ⟨hon, -⟩ := step_cases hstep
  have hin : s.InOrder := ⟨State.capMax_le (Bool.and_eq_true_iff.mp hon).1, hs⟩
  exact (step_keeps hstep hin (fun i hi => hin.reworked (exec_worked hi).cfg (exec_worked hi).units) (fun _ _ => hin)
    (fun _ => hin) fun s' e hs' => hs'.reworked (s'.hostEvent_units e).1 (s'.hostEvent_units e).2).2

/-- Settles O10: what an operation can do at all (`State.Worked`) leaves its inputs alone. -/
theorem inputsPersist : Obligations.InputsPersist := by
  intro i s t hexec
  obtain ⟨hframe, hreq, hcomp, hunits, -⟩ := exec_worked hexec
  have hconf := conf_of_reworked hunits
  rw [hframe]
  exact ⟨rfl, rfl, rfl, rfl, rfl, rfl, hreq, rfl, hconf, hcomp⟩

end

section
/-! PROOFS (family other). The request port: which request runs, what an illegal one answers, and what the writes of the
requester change (spec/10_state.md R21, R22, R24, R25, spec/20_memory.md R87, spec/60_exceptions.md R287). -/

namespace Sys2Proof.Machine

variable {s : State} {w : Word32} {i : Instr} {u : UnitId} {un : QcqUnit}

/-! ### Requests that run, and illegal ones -/

theorem step_of_busy (hon : s.goesOn = true) (hbusy : s.busy = true) : step s = s.runRequest :=
  (step_of_goesOn hon).trans (if_pos hbusy)

theorem step_of_idle (hon : s.goesOn = true) (hidle : s.busy = false) : step s = .next s.idle :=
  (step_of_goesOn hon).trans (if_neg (Bool.eq_false_iff.mp hidle))

theorem State.runRequest_of_ok (h : decode s.req = .ok i) : s.runRequest = exec i s := by
  rw [State.runRequest, h]

theorem State.runRequest_of_error {e : DecodeError} (h : decode s.req = .error e) : s.runRequest = s.illegal := by
  rw [State.runRequest, h]

/-- An operation that is not well formed reads a unit that is missing or has another role, and is illegal. -/
theorem exec_of_not_wf (h : i.wf s.roles = false) : exec i s = s.illegal := by
  cases i with
  | dcPost | dcWait n | dcStatus | dcGo n | diCheck | reset => cases h
  | _ => exact State.onUnit_of_not_wf _ rfl h

/-! ### The write of the request register -/

theorem State.request_of_busy (h : s.busy = true) (w : Word32) : s.request w = s := if_pos h

theorem State.request_of_idle (h : s.busy = false) (w : Word32) :
    s.request w = { s.sync with req := w, busy := true, duties := s.requestDuties w } :=
  if_neg (Bool.eq_false_iff.mp h)

theorem State.request_duties (h : s.busy = false) (w : Word32) : (s.hostEvent (.request w)).duties = s.requestDuties w :=
  congrArg State.duties (s.request_of_idle h w)

theorem State.requestDuties_of_unit (hdec : decode w = .ok i) (hu : i.unit? = some u) (hun : s.units[u.toNat]? = some un) :
    s.requestDuties w = s.duties.onRequest s.cfg s.a0 i u un := by
  simp only [State.requestDuties, hdec, hu, hun]

/-- A request changes the book only where it names an operation on a unit that exists. -/
theorem State.requestDuties_cases (s : State) (w : Word32) :
    s.requestDuties w = s.duties ∨
    ∃ i u un, decode w = .ok i ∧ i.unit? = some u ∧ s.units[u.toNat]? = some un ∧
      s.requestDuties w = s.duties.onRequest s.cfg s.a0 i u un := by
  cases hdec : decode w with
  | error e => simp [State.requestDuties, hdec]
  | ok i =>
    cases hu : i.unit? with
    | none => simp [State.requestDuties, hdec, hu]
    | some u =>
      cases hun : s.units[u.toNat]? with
      | none => simp [State.requestDuties, hdec, hu, hun]
      | some un => exact .inr ⟨i, u, un, rfl, hu, hun, State.requestDuties_of_unit hdec hu hun⟩

/-! ### The requester's book -/

section
variable (cfg : Config) (a0 : Word64) (d : Duties)

theorem Duties.onRequest_qAdvHead (hv : un.q.valid = true) (hspace : un.space ≠ 0) :
    d.onRequest cfg a0 (.qAdvHead u) u un = d.post ⟨u, un.qSlot un.q.head, un.q.descSize.toNat⟩ :=
  if_pos ⟨rfl, hv, hspace⟩

theorem Duties.onRequest_qDbell (hv : un.q.valid = true) : d.onRequest cfg a0 (.qDbell u) u un = d.announce u :=
  (if_neg fun h => nomatch h.1).trans (if_pos ⟨rfl, hv⟩)

/-- Only a Q.DBELL that will complete announces anything: any other request leaves what is written and what is broken. -/
theorem Duties.onRequest_frame (h : i = .qDbell u → un.q.valid = false) :
    (d.onRequest cfg a0 i u un).broken = d.broken ∧ (d.onRequest cfg a0 i u un).written = d.written := by
  unfold Duties.onRequest
  split
  · exact ⟨rfl, rfl⟩
  · split
    · next hbell =>
      obtain ⟨hi, hv⟩ := hbell
      cases (h hi).symm.trans hv
    · split <;> exact ⟨rfl, rfl⟩

end

/-- A slot is wholly written when each of its bytes is. -/
theorem HandSlot.addrs_all (h : HandSlot) (p : Nat → Bool) : h.addrs.all p = true ↔ ∀ k < h.size, p (h.base + k) = true := by
  simp [HandSlot.addrs]

theorem HandSlot.mem_addrs {h : HandSlot} {k : Nat} (hk : k < h.size) : h.base + k ∈ h.addrs :=
  List.mem_map.mpr ⟨k, List.mem_range.mpr hk, rfl⟩

theorem Duties.owed_eq_nil {d : Duties} :
    d.owed u = [] ↔ ∀ h ∈ d.posted, h.unit = u → ∀ k < h.size, h.base + k ∈ d.written := by
  simp only [Duties.owed, List.filter_eq_nil_iff, Bool.and_eq_true, beq_iff_eq, Bool.not_eq_true', Bool.not_eq_false,
    not_and, HandSlot.addrs_all, List.contains_iff_mem]

/-- Announcing breaks the duty exactly when something is owed. -/
theorem Duties.announce_broken {d : Duties} :
    (d.announce u).broken = d.broken ↔ ∀ h ∈ d.posted, h.unit = u → ∀ k < h.size, h.base + k ∈ d.written :=
  List.append_left_eq_self.trans Duties.owed_eq_nil

/-- What has been announced has to be written anew. -/
theorem Duties.announce_written {d : Duties} {h : HandSlot} (hh : h ∈ d.posted) (hu : h.unit = u) {k : Nat}
    (hk : k < h.size) : h.base + k ∉ (d.announce u).written := by
  intro hmem
  obtain ⟨-, hnone⟩ := List.mem_filter.mp hmem
  have hany : d.posted.any (fun g => g.unit == u && g.addrs.contains (h.base + k)) = true :=
    List.any_eq_true.mpr ⟨h, hh, by simp [hu, HandSlot.mem_addrs hk]⟩
  rw [hany] at hnone
  cases hnone

theorem Duties.announce_posted {d : Duties} {h : HandSlot} (hh : h ∈ (d.announce u).posted) : h.unit ≠ u := by
  obtain ⟨-, hne⟩ := List.mem_filter.mp hh
  exact of_decide_eq_true hne

theorem Duties.mem_wrote {d : Duties} {a n x : Nat} : x ∈ (d.wrote a n).written ↔ (a ≤ x ∧ x < a + n) ∨ x ∈ d.written := by
  have haddrs : x ∈ HandSlot.addrs ⟨0, a, n⟩ ↔ a ≤ x ∧ x < a + n := by
    simp only [HandSlot.addrs, List.mem_map, List.mem_range]
    exact ⟨by rintro ⟨k, hk, rfl⟩; omega, fun ⟨hle, hlt⟩ => ⟨x - a, by omega, by omega⟩⟩
  rw [Duties.wrote, List.mem_append, haddrs]

end Sys2Proof.Machine

open Sys2Proof Sys2Proof.Machine

/-- Settles O5: the cases of `step` and of the request it runs. -/
theorem stepRunsTheRequestedOperation : Obligations.StepRunsTheRequestedOperation := by
  have hruns : ∀ (s : State) (i : Instr), s.goesOn = true → s.busy = true → decode s.req = .ok i → step s = exec i s := by
    intro s i hon hbusy hdec
    rw [step_of_busy hon hbusy, State.runRequest_of_ok hdec]
  refine ⟨hruns, fun s w i hon hdec hw => ?_, fun s hcfg => if_neg (Bool.eq_false_iff.mp hcfg), fun s b hcfg hbreach => ?_⟩
  · refine hruns (s.withFetchWord 32 w) i hon rfl ?_
    rw [State.withFetchWord, Nat.mod_eq_of_lt hw]
    exact hdec
  · rw [step, if_pos hcfg, State.proceed, hbreach]

/-- Settles O7: each illegal request ends by `State.illegal`, and a busy block ignores the write of `REQ`. -/
theorem illegalRequestChangesNothing : Obligations.IllegalRequestChangesNothing := by
  refine ⟨fun s e hon hbusy hdec => ?_, fun _ _ hwf => exec_of_not_wf hwf, fun _ w hbusy => State.request_of_busy hbusy w⟩
  rw [step_of_busy hon hbusy, State.runRequest_of_error hdec]
  rfl

/-- Settles O6: the write of `REQ` brings the device's view up to date and keeps the book; the book is that of the three
operations on it (`Duties.post`, `Duties.announce`, `Duties.forget`). -/
theorem requestPort : Obligations.RequestPort := by
  refine ⟨fun s w hidle => ?_, fun s w hbusy => State.request_of_busy hbusy w, fun _ _ _ => rfl, fun s hon hidle hinbox => ?_,
    fun s e rest hon hidle hinbox => ?_, fun s w u un hidle hun hv => ⟨fun hdec hspace => ?_, fun hdec => ?_⟩,
    fun s w hno => ?_, fun s addr bs hfits a => ?_, fun _ _ => ⟨rfl, rfl, rfl, rfl⟩, fun s c => ?_⟩
  · refine ⟨(s.sys.sync s.cfg s.units).dev.rings, (s.sys.sync s.cfg s.units).dev.offers, ?_⟩
    rw [State.hostEvent, State.request_of_idle hidle, State.sync_eq, ← Sys.sync_eq]
  · rw [step_of_idle hon hidle, State.idle, hinbox]
  · rw [step_of_idle hon hidle, State.idle, hinbox]
  · rw [State.request_duties hidle, State.requestDuties_of_unit hdec rfl hun, Duties.onRequest_qAdvHead _ _ _ hv hspace]
    rfl
  · rw [State.request_duties hidle, State.requestDuties_of_unit hdec rfl hun, Duties.onRequest_qDbell _ _ _ hv]
    exact ⟨Duties.announce_broken, fun h hh hu k hk => Duties.announce_written hh hu hk, fun h hh => Duties.announce_posted hh⟩
  · cases hbusy : s.busy with
    | true =>
      rw [State.hostEvent, State.request_of_busy hbusy]
      exact ⟨rfl, rfl⟩
    | false =>
      rw [State.request_duties hbusy]
      obtain h | ⟨i, u, un, hdec, hu, hun, h⟩ := s.requestDuties_cases w <;> rw [h]
      · exact ⟨rfl, rfl⟩
      · exact Duties.onRequest_frame _ _ _ fun hi => hno u (hi ▸ hdec) un hun
  · rw [State.hostEvent, State.requesterWrites, if_pos hfits]
    exact Duties.mem_wrote
  · exact ⟨firstBytes s.cfg.dcCmdBytes c, rfl, length_firstBytes _ _, fun k hk => getD_firstBytes c hk⟩

end

section
/-! PROOFS (family other). Reset (spec/10_state.md R60, spec/70_reset_and_hazards.md R310, R311) and CQ.INIT
(spec/41_completion_ring.md R161). -/

namespace Sys2Proof.Machine

/-- A store holds at a key what an unlisted key holds, or what it lists there. -/
theorem storeGet_eq_or_mem {β : Type} (d : β) (m : List (Nat × β)) (a : Nat) :
    storeGet d m a = d ∨ (a, storeGet d m a) ∈ m := by
  induction m with
  | nil => exact .inl rfl
  | cons c m ih =>
    obtain ⟨k, v⟩ := c
    rw [storeGet]
    split
    · next hk => exact .inr (hk ▸ List.mem_cons_self)
    · exact ih.imp_right (List.mem_cons_of_mem _)

/-- No entry is valid once all are forgotten, in whatever form the table was. -/
theorem SideTable.valid_get_invalidateAll (t : SideTable) (i : Nat) : (t.invalidateAll.get i).valid = false := by
  obtain h | h := storeGet_eq_or_mem SideTable.unlisted t.invalidateAll i
  · exact congrArg SideEntry.valid h
  · obtain ⟨hlisted, -⟩ := List.mem_filter.mp h
    obtain ⟨c, -, hc⟩ := List.mem_map.mp hlisted
    exact congrArg (fun c : Nat × SideEntry => c.2.valid) hc.symm

theorem QcqUnit.initial_inv (cfg : Config) (c : UnitConfig) : (QcqUnit.initial cfg c).Inv cfg :=
  ⟨nofun, ⟨nofun, nofun⟩, rfl⟩

theorem exec_cqInit {u : UnitId} {s : State} {un : QcqUnit} (hun : s.units[u.toNat]? = some un) (hv : un.cq.valid = false) :
    exec (.cqInit u) s = (s.setUnit u (un.initComp s.cfg s.a0)).done 0 :=
  State.onUnit_require ⟨hun, rfl⟩ (p := fun un => !un.cq.valid) (by rw [hv]; rfl) _

end Sys2Proof.Machine

open Sys2Proof Sys2Proof.Machine

/-- Settles O17: both resets put `QcqUnit.reset` of every unit in its place. -/
theorem resetOperation : Obligations.ResetOperation := by
  intro s
  refine ⟨s.units.map (QcqUnit.reset s.cfg), rfl, rfl, List.length_map _, fun k un un' hun hun' => ?_⟩
  rw [List.getElem?_map, hun] at hun'
  cases hun'
  exact ⟨rfl, rfl, rfl, rfl, un.side.valid_get_invalidateAll⟩

/-- Settles O26: the body is `QcqUnit.initComp`. -/
theorem cqInitInstallsTheRing : Obligations.CqInitInstallsTheRing :=
  fun _ _ _ hun hv => exec_cqInit hun hv

/-- Settles O60: every unit of State.reset is `QcqUnit.initial` of its configuration, and both stores are empty. -/
theorem invariantsHoldAtReset : Obligations.InvariantsHoldAtReset := by
  refine ⟨by decide, ⟨rfl, rfl⟩, fun un hun => ?_, rfl⟩
  obtain ⟨c, -, rfl⟩ : ∃ c ∈ UnitConfig.defaults, QcqUnit.initial Config.default c = un := List.mem_map.mp hun
  exact QcqUnit.initial_inv _ c

end

section
/-! PROOFS (family other). The end of NQ.POLL whatever the device does (spec/44_notifyq.md R221): each test uses up a slot of
the schedule while there is one, and after that the device is silent. -/

namespace Sys2Proof.Machine

theorem QcqUnit.pending_sched (cfg : Config) (un : QcqUnit) (y : Sys) : (un.pending cfg y).2.sched = y.sched.tail := by
  rw [pending_eq]
  exact (Sys.turn_sched cfg _).1

theorem Sys.dispatchEvent_sched (cfg : Config) (process : Bool) (code : Word16) (y : Sys) :
    (y.dispatchEvent cfg process code).sched = y.sched := by
  unfold Sys.dispatchEvent
  split_ifs <;> rfl

/-- A round takes no slot of the schedule back that its test used up. -/
theorem QcqUnit.dispatch_sched_le (cfg : Config) (process : Bool) (un : QcqUnit) (y : Sys) :
    (un.dispatch cfg process (un.readEvent cfg y)).sched.length ≤ y.sched.length - 1 := by
  rw [dispatch, Sys.dispatchEvent_sched, ← List.length_tail, ← un.pending_sched cfg y]
  exact Sys.memRead_sched_le cfg _ _ (un.pending cfg y).2.rmb

/-- The slots scheduled and one revolution bound what the loop drains. -/
theorem QcqUnit.exists_drains {cfg : Config} {process : Bool} {un : QcqUnit} {y : Sys} {n : Nat}
    (htail : un.cq.tail.toNat < un.cap) (hcap : un.cap ≤ 65536) (hn : y.sched.length ≤ n) :
    ∃ count news un' y', count ≤ n + un.cap ∧ Drains cfg process un y count news un' y' := by
  induction n generalizing un y with
  | zero =>
    have hsched : y.sched = [] := List.length_eq_zero_iff.mp (Nat.le_zero.mp hn)
    have hquiet : y.Quiet := by
      rw [Sys.Quiet, hsched]
      nofun
    rw [Nat.zero_add]
    exact hquiet.exists_drains_cap htail hcap
  | succ n ih =>
    cases hpend : (un.pending cfg y).1 with
    | false => exact ⟨0, 0, un, _, Nat.zero_le _, .idle hpend⟩
    | true =>
      have hle := un.dispatch_sched_le cfg process y
      obtain ⟨count, news, un', y', hcount, hrest⟩ := ih (un := un.takeEvent cfg (un.readEvent cfg y).1)
        (y := un.dispatch cfg process (un.readEvent cfg y)) (nextIndex_lt htail hcap) hcap (by omega)
      have hround : count + 1 ≤ n + 1 + un.cap := by
        rw [Nat.add_right_comm]
        exact Nat.succ_le_succ hcount
      exact ⟨count + 1, _, un', y', hround, .event hpend rfl hrest⟩

end Sys2Proof.Machine

open Sys2Proof Sys2Proof.Machine

/-- Settles O46: the loop's bound is one test more than it can need (`QcqUnit.exists_drains`). -/
theorem notifyDrainEnds : Obligations.NotifyDrainEnds := by
  intro u process s un hun hinv hcapMax hready hfits
  obtain ⟨-, hbound, -⟩ := QcqUnit.notifyReady_iff.mp hready
  obtain ⟨htail, hcap⟩ := hinv.cq_inside hbound hcapMax
  obtain ⟨count, news, un', y', hle, hrun⟩ := QcqUnit.exists_drains (cfg := s.cfg) (process := process) htail hcap le_rfl
  exact ⟨_, exec_nqPoll hun hready hfits hrun (Nat.lt_succ_of_le hle), rfl⟩

end

section
/-! PROOFS (family other). The device's side of the command channel and of a full notify ring, device step by device step
(spec/46_device_contract.md R266 to R268). -/

namespace Sys2Proof.Machine

/-- In the canonical form, writing what a key holds changes nothing. -/
theorem storeSet_storeGet_self {β : Type} [DecidableEq β] {d : β} {m : List (Nat × β)} (h : storeWf d m = true) (a : Nat) :
    storeSet d m a (storeGet d m a) = m := by
  induction m with
  | nil => exact if_pos rfl
  | cons c m ih =>
    obtain ⟨k, w⟩ := c
    obtain ⟨hw, habove, hm⟩ := storeWf_cons.mp h
    rcases lt_trichotomy a k with hlt | rfl | hgt
    · simp [storeSet, storeGet, hlt, hlt.ne, storeGet_of_keysAbove habove hlt.le]
    · simp [storeSet, storeGet, hw]
    · simp [storeSet, storeGet, hgt.not_gt, hgt.ne', ih hm]

theorem Memory.set_get_self {m : Memory} (h : m.wf = true) (a : Nat) : m.set a (m.get a) = m := storeSet_storeGet_self h a

theorem Sys.mayAnswer_iff {cfg : Config} {y : Sys} {c : DcCommand} :
    y.mayAnswer cfg c = true ↔ c.cmd.isSome = true ∧ y.dev.answered = false ∧ y.doneBit cfg = false := by
  simp [mayAnswer, and_assoc]

@[simp] theorem Device.answer_answered (d : Device) (i : Nat) : (d.answer i).answered = true := by
  unfold answer
  split <;> rfl

@[simp] theorem Device.answer_cmds (d : Device) (i : Nat) : (d.answer i).cmds = d.cmds.eraseIdx i := by
  unfold answer
  split <;> rfl

/-- Address `k` is in `DC_COMP` or in `DC_DATA` (spec/10_state.md R43). -/
def InAnswer (cfg : Config) (k : Nat) : Prop :=
  (∃ j < cfg.dcCompBytes, k = dcCompAddr cfg + j) ∨ ∃ j < cfg.dcDataBytes, k = dcDataAddr cfg + j

/-- The device step writes, for a command it may still answer, one byte of the answer (R267, R268). -/
def Sys.Answers (cfg : Config) (y z : Sys) : Prop :=
  (∃ (i : Nat) (c : DcCommand), y.dev.cmds[i]? = some c ∧ y.mayAnswer cfg c = true) ∧
  ∃ k b, InAnswer cfg k ∧ z.reg = y.reg.set k b

/-- The device step sets the done bit for the `i`-th command, which is answered whole (R267). -/
def Sys.Finishes (cfg : Config) (y z : Sys) (i : Nat) : Prop :=
  (∃ c : DcCommand, y.dev.cmds[i]? = some c ∧ c.cmd.isSome = true ∧ c.compLeft = []) ∧
  z = { y with reg := y.reg.set (dcDoneAddr cfg) (y.reg.get (dcDoneAddr cfg) ||| 1), dev := y.dev.answer i }

/-- What a device step can do to the registers, and under which of the contract's conditions. -/
theorem Sys.devAct_reg_cases (cfg : Config) (y : Sys) (a : DevAct) :
    (y.devAct cfg a).reg = y.reg ∨ y.Answers cfg (y.devAct cfg a) ∨
    ∃ i, a = .dcDone i ∧ y.Finishes cfg (y.devAct cfg a) i := by
  cases a with
  | learn c u => rw [devAct, devLearn_eq]; exact .inl rfl
  | fetch u => simp only [devAct, devFetch]; split <;> (try split) <;> exact .inl rfl
  | compByte u k b => simp only [devAct, devCompByte]; split <;> (try split) <;> (try split) <;> exact .inl rfl
  | compColor u low => simp only [devAct, devCompColor]; split <;> (try split) <;> (try split) <;> exact .inl rfl
  | dcCmd i => simp only [devAct, devDcCmd]; split <;> (try split) <;> exact .inl rfl
  | dcComp i k b =>
    simp only [devAct, devDcComp]
    split
    · exact .inl rfl
    · next c hc =>
      split
      · next h =>
        obtain ⟨hmay, hk⟩ := Bool.and_eq_true_iff.mp h
        exact .inr (.inl ⟨⟨i, c, hc, hmay⟩, _, _, .inl ⟨k, of_decide_eq_true hk, rfl⟩, rfl⟩)
      · exact .inl rfl
  | dcData i k b =>
    simp only [devAct, devDcData]
    split
    · exact .inl rfl
    · next c hc =>
      split
      · next h =>
        obtain ⟨hmay, hk⟩ := Bool.and_eq_true_iff.mp h
        exact .inr (.inl ⟨⟨i, c, hc, hmay⟩, _, _, .inr ⟨k, of_decide_eq_true hk, rfl⟩, rfl⟩)
      · exact .inl rfl
  | dcDone i =>
    simp only [devAct, devDcDone]
    split
    · exact .inl rfl
    · next c hc =>
      split
      · next h =>
        obtain ⟨hread, hwhole⟩ := Bool.and_eq_true_iff.mp h
        exact .inr (.inr ⟨i, rfl, ⟨c, hc, hread, List.isEmpty_iff.mp hwhole⟩, rfl⟩)
      · exact .inl rfl

/-- The done register lies apart from the answer. -/
theorem State.done_notInAnswer {s : State} (h : s.configOk = true) : ¬ InAnswer s.cfg (dcDoneAddr s.cfg) := by
  have hcomp := (State.channelOk h).done_comp
  simp only [State.configOk, Machine.configOk, Bool.and_eq_true] at h
  obtain ⟨⟨⟨-, hapart⟩, -⟩, -⟩ := h
  simp only [registersApart, registerRanges, List.cons_append, Bool.and_eq_true, decide_eq_true_eq, List.pairwise_cons,
    List.forall_mem_cons, rangesApart, Bool.or_eq_true] at hapart
  obtain ⟨-, -, ⟨-, -, hdata, -⟩, -⟩ := hapart
  rintro (⟨j, hj, heq⟩ | ⟨j, hj, heq⟩) <;> omega

theorem getLsbD_or_one (b : Byte) : (b ||| 1).getLsbD 0 = true := by simp

theorem or_one_of_getLsbD {b : Byte} (h : b.getLsbD 0 = true) : b ||| 1 = b := by
  refine BitVec.eq_of_getLsbD_eq fun k hk => ?_
  cases k with
  | zero => rw [getLsbD_or_one, h]
  | succ k => simp [BitVec.getLsbD_one]

/-! ### A full notify ring -/

/-- An event for a full ring is not written: the run leaves the spec (R266, U10). -/
theorem Sys.devAct_of_overflow {cfg : Config} {y : Sys} {a : DevAct} {u : Nat} {r : DevRing} (hr : y.dev.rings[u]? = some r)
    (hfull : r.overflows = true) (ha : (∃ k b, a = .compByte u k b) ∨ ∃ low, a = .compColor u low) :
    y.devAct cfg a = y.breaks .notifyOverflow := by
  obtain ⟨k, b, rfl⟩ | ⟨low, rfl⟩ := ha
  · simp only [devAct, devCompByte, hr, hfull, if_true]
  · simp only [devAct, devCompColor, hr, hfull, if_true]

end Sys2Proof.Machine

open Sys2Proof Sys2Proof.Machine

/-- Settles O56: a step leaves the registers, or writes a byte of an answer, or sets the done bit
(`Sys.devAct_reg_cases`). -/
theorem deviceKeepsTheDoneBit : Obligations.DeviceKeepsTheDoneBit := by
  intro s a hcfg hmem
  obtain ⟨-, hwf⟩ := hmem
  have hnot := State.done_notInAnswer hcfg
  have hcases := s.sys.devAct_reg_cases s.cfg a
  refine ⟨fun hdone => ?_, fun hnone => ?_, fun hdone => ?_, fun hanswered k hk => ?_, fun hclear hset => ?_,
    fun u r hr htold hrole hfull ha => ?_⟩
  · obtain hreg | ⟨⟨i, c, -, hmay⟩, -⟩ | ⟨i, -, -, hz⟩ := hcases
    · rw [Sys.doneBit, hreg]
      exact hdone
    · cases hdone.symm.trans (Sys.mayAnswer_iff.mp hmay).2.2
    · rw [hz, Sys.doneBit, Memory.get_set_self _ _ hwf]
      exact getLsbD_or_one _
  · have hcmds : s.sys.dev.cmds = [] := List.length_eq_zero_iff.mp hnone
    obtain hreg | ⟨⟨i, c, hc, -⟩, -⟩ | ⟨i, -, ⟨c, hc, -⟩, -⟩ := hcases
    · exact hreg
    · cases (hcmds ▸ hc : ([] : List DcCommand)[i]? = some c)
    · cases (hcmds ▸ hc : ([] : List DcCommand)[i]? = some c)
  · obtain hreg | ⟨⟨i, c, -, hmay⟩, -⟩ | ⟨i, -, -, hz⟩ := hcases
    · exact hreg
    · cases hdone.symm.trans (Sys.mayAnswer_iff.mp hmay).2.2
    · rw [hz, or_one_of_getLsbD hdone]
      exact Memory.set_get_self hwf _
  · obtain hreg | ⟨⟨i, c, -, hmay⟩, -⟩ | ⟨i, -, -, hz⟩ := hcases
    · rw [hreg]
    · cases hanswered.symm.trans (Sys.mayAnswer_iff.mp hmay).2.1
    · rw [hz]
      exact Memory.get_set_other _ _ hk
  · obtain hreg | ⟨-, k, b, hk, hreg⟩ | ⟨i, rfl, ⟨c, hc, hread, hwhole⟩, hz⟩ := hcases
    · rw [Sys.doneBit, hreg] at hset
      cases hclear.symm.trans hset
    · have hne : dcDoneAddr s.cfg ≠ k := fun heq => hnot (heq ▸ hk)
      rw [Sys.doneBit, hreg, Memory.get_set_other _ _ hne] at hset
      cases hclear.symm.trans hset
    · refine ⟨i, c, rfl, hc, hread, hwhole, ?_⟩
      rw [hz]
      exact ⟨Device.answer_answered _ _, Device.answer_cmds _ _⟩
  · have hover : r.overflows = true := by simp [DevRing.overflows, DevRing.full, htold, hrole, hfull]
    rw [Sys.devAct_of_overflow hr hover ha]
    exact ⟨rfl, rfl⟩

end

section
/-! PROOFS (family other). Telling the device of a ring (spec/46_device_contract.md R265): what changes of its view of every
ring, and that a ring taken stays taken. -/

namespace Sys2Proof.Machine

variable {y y₀ z : Sys} {u : Nat}

theorem Sys.sameRing.trans {v : Nat} (h : y.sameRing y₀ v) (h' : y₀.sameRing z v) : y.sameRing z v := Eq.trans h' h

theorem Sys.TellsOnly.refl (y : Sys) (u : Nat) : y.TellsOnly y u := ⟨rfl, fun _ _ => ⟨rfl, rfl⟩, .inl ⟨rfl, rfl⟩⟩

theorem Sys.TellsOnly.tell (y : Sys) (u : Nat) : y.TellsOnly (y.tell u) u := by
  obtain h | ⟨r, hoffer, h⟩ := y.tell_cases u <;> rw [h]
  · exact .refl y u
  · obtain ⟨hlt, -⟩ := List.getElem?_eq_some_iff.mp hoffer
    refine ⟨rfl, fun v hv => ⟨List.getElem?_set_ne hv.symm, ?_⟩, .inr ⟨r, hoffer, List.getElem?_set_self hlt, ?_⟩⟩
    · exact congrArg (Option.map _) (List.getElem?_set_ne hv.symm)
    · exact List.getElem?_set.trans (if_pos rfl)

/-- The commands noted as having created a queue do not matter to what the device is then told of. -/
theorem Sys.TellsOnly.of_same (h : y₀.TellsOnly z u)
    (hframe : y₀ = { y with dev := { y.dev with rings := y₀.dev.rings, cmds := y₀.dev.cmds } })
    (hlen : y₀.dev.rings.length = y.dev.rings.length) (hring : ∀ v, y.sameRing y₀ v) : y.TellsOnly z u := by
  obtain ⟨hz, hother, hself⟩ := h
  have hoffers : y₀.dev.offers = y.dev.offers := by rw [hframe]
  rw [hoffers] at hself
  rw [hlen] at hself
  refine ⟨?_, fun v hv => ?_, hself.imp_left fun ⟨hoffer, hsame⟩ => ⟨hoffer, (hring u).trans hsame⟩⟩
  · rw [hframe] at hz
    exact hz
  · obtain ⟨hoffer, hsame⟩ := hother v hv
    exact ⟨hoffers ▸ hoffer, (hring v).trans hsame⟩

/-- A creation command is noted, and tells the device of one ring at most. -/
theorem Sys.TellsOnly.devLearn (y : Sys) (c : Creator) (u : Nat) : y.TellsOnly (y.devLearn c u) u := by
  cases c with
  | device i =>
    simp only [Sys.devLearn]
    split
    · exact .refl y u
    · split
      · exact (TellsOnly.tell _ u).of_same rfl rfl fun _ => rfl
      · exact .refl y u
  | admin v =>
    simp only [Sys.devLearn]
    split
    · exact .refl y u
    · next r hr =>
      split
      · refine (TellsOnly.tell _ u).of_same rfl (List.length_set ..) fun v' => ?_
        rw [Sys.sameRing, Sys.setRing]
        by_cases hv : v = v'
        · subst hv
          obtain ⟨hlt, -⟩ := List.getElem?_eq_some_iff.mp hr
          rw [List.getElem?_set_self hlt, hr]
          rfl
        · rw [List.getElem?_set_ne hv]
      · exact .refl y u

/-- A ring is on offer no more once the device has been told of what was. -/
theorem Sys.tell_offers_ne_new (y : Sys) (u : Nat) (r : DevRing) : (y.tell u).dev.offers[u]? ≠ some (.new r) := by
  unfold Sys.tell
  split
  · next hoffer =>
    obtain ⟨hlt, -⟩ := List.getElem?_eq_some_iff.mp hoffer
    rw [List.getElem?_set_self hlt]
    nofun
  · next hoffer => rw [hoffer]; nofun
  · next hoffer => rw [hoffer]; nofun
  · next hoffer => rw [hoffer]; nofun

/-! ### The view brought up to date -/

theorem Sys.foldl_note_offers (cfg : Config) (units : List QcqUnit) (y : Sys) :
    (units.foldl (fun z un => z.note cfg un) y).dev.offers = y.dev.offers := by
  induction units generalizing y with
  | nil => rfl
  | cons un units ih => exact ih (y.note cfg un)

theorem Sys.sync_offers (cfg : Config) (units : List QcqUnit) (y : Sys) :
    (y.sync cfg units).dev.offers = List.zipWith (fun un o => Offer.renew cfg units un o) units y.dev.offers := by
  rw [← foldl_note_offers cfg units y]
  rfl

theorem Offer.renew_taken {un : QcqUnit} (h : un.stands = true) (cfg : Config) (units : List QcqUnit) :
    Offer.renew cfg units un .taken = .taken := by
  rw [Offer.renew, if_pos h, if_pos rfl]

theorem Sys.sync_offers_taken {cfg : Config} {units : List QcqUnit} {un : QcqUnit} (hun : units[u]? = some un)
    (hstands : un.stands = true) (htaken : y.dev.offers[u]? = some .taken) :
    (y.sync cfg units).dev.offers[u]? = some .taken := by
  rw [sync_offers, List.getElem?_zipWith, hun, htaken]
  exact congrArg some (Offer.renew_taken hstands cfg units)

end Sys2Proof.Machine
end

section
/-! PROOFS (family other). The colour protocol as a whole (spec/41_completion_ring.md R169, R170): the completions that have
filled a slot, what a device step can do to a completion ring, and what the block has consumed. -/

namespace Sys2Proof.Machine

/-! ### Fillings of a slot -/

/-- The slot of completion `m` holds that of the revolution before until completion `m` is produced. -/
theorem fillsOf_mod {m p C : Nat} (hpos : 0 < C) (hle : m ≤ p) (hp : p ≤ m + C) :
    fillsOf p C (m % C) = m / C + if m < p then 1 else 0 := by
  have hlt := Nat.mod_lt m hpos
  have hsplit := Nat.mod_add_div m C
  have hsum : p + C - 1 - m % C = (p - m + (C - 1)) + C * (m / C) := by omega
  rw [fillsOf, hsum, Nat.add_mul_div_left _ _ hpos, Nat.add_comm]
  congr 1
  split
  · exact Nat.div_eq_of_lt_le (by omega) (by omega)
  · exact Nat.div_eq_of_lt (by omega)

/-- A completion fills its own slot only. -/
theorem fillsOf_succ_other {p C i : Nat} (hi : i < C) (hne : i ≠ p % C) : fillsOf (p + 1) C i = fillsOf p C i := by
  have hpos : 0 < C := Nat.zero_lt_of_lt hi
  have hlt := Nat.mod_lt p hpos
  have hsplit := Nat.mod_add_div p C
  have hsum : p + C - 1 - i = (p % C + (C - 1 - i)) + C * (p / C) := by omega
  have hsum' : p + 1 + C - 1 - i = (p % C + 1 + (C - 1 - i)) + C * (p / C) := by omega
  rw [fillsOf, fillsOf, hsum, hsum', Nat.add_mul_div_left _ _ hpos, Nat.add_mul_div_left _ _ hpos]
  congr 1
  obtain hless | hmore := Nat.lt_or_gt_of_ne hne
  · rw [Nat.div_eq_of_lt_le (k := 1) (by omega) (by omega), Nat.div_eq_of_lt_le (k := 1) (by omega) (by omega)]
  · rw [Nat.div_eq_of_lt (by omega), Nat.div_eq_of_lt (by omega)]

/-! ### Addresses in a completion ring -/

theorem slotByte_lt {i k C S : Nat} (hi : i < C) (hk : k < S) : i * S + k < C * S :=
  calc i * S + k < i * S + S := Nat.add_lt_add_left hk _
    _ = (i + 1) * S := (Nat.succ_mul i S).symm
    _ ≤ C * S := Nat.mul_le_mul_right S hi

/-- Bytes of a ring with one address are one byte of one slot. -/
theorem slotByte_inj {i i' k k' S : Nat} (hk : k < S) (hk' : k' < S) (h : i * S + k = i' * S + k') : i = i' ∧ k = k' := by
  have hdiv := congrArg (· / S) h
  have hmod := congrArg (· % S) h
  have hpos : 0 < S := Nat.zero_lt_of_lt hk
  simp only [Nat.mul_comm _ S, Nat.mul_add_div hpos, Nat.mul_add_mod, Nat.div_eq_of_lt hk, Nat.div_eq_of_lt hk',
    Nat.mod_eq_of_lt hk, Nat.mod_eq_of_lt hk', Nat.add_zero] at hdiv hmod
  exact ⟨hdiv, hmod⟩

namespace DevRing

variable {cfg : Config} {mem : Memory} {r r' w : DevRing} {un : QcqUnit}

/-- A byte of the slot that another ring is at is no colour byte of this ring. -/
theorem apart.colorAddr_ne (h : r.apart w) (hsize : 1 ≤ r.cqSize) {i k : Nat} (hi : i < r.cap) (hk : k < w.cqSize) :
    r.colorAddr i ≠ w.compSlot + k := by
  obtain ⟨hcap, hranges⟩ := h
  have hr := slotByte_lt hi (Nat.sub_lt hsize Nat.one_pos)
  have hw := slotByte_lt (Nat.mod_lt w.produced hcap) hk
  simp only [rangesApart, Bool.or_eq_true, decide_eq_true_eq] at hranges
  rw [DevRing.colorAddr, DevRing.compSlot]
  omega

theorem colorAddr_eq_iff (hsize : 1 ≤ r.cqSize) {i k : Nat} (hk : k < r.cqSize) :
    r.colorAddr i = r.compSlot + k ↔ i = r.produced % r.cap ∧ k = r.cqSize - 1 := by
  rw [DevRing.colorAddr, DevRing.compSlot]
  refine ⟨fun h => ?_, by rintro ⟨rfl, rfl⟩; rfl⟩
  obtain ⟨hi, hk'⟩ := slotByte_inj (Nat.sub_lt hsize Nat.one_pos) hk (Nat.add_left_cancel ((Nat.add_assoc ..).symm.trans
    (h.trans (Nat.add_assoc ..))))
  exact ⟨hi, hk'.symm⟩

/-! ### A ring shown -/

/-- The views differ at most in what the device has fetched and in the commands noted as having created a queue. -/
def SameCompletions (r r' : DevRing) : Prop :=
  ({ r' with fetched := 0, created := 0 } : DevRing) = { r with fetched := 0, created := 0 }

theorem SameCompletions.shown (h : r.SameCompletions r') (hshown : r.Shown cfg mem) : r'.Shown cfg mem := by
  have hshown₀ : Shown cfg mem { r with fetched := 0, created := 0 } := hshown
  rw [← h] at hshown₀
  exact hshown₀

theorem SameCompletions.fields (h : r.SameCompletions r') :
    r'.produced = r.produced ∧ r'.consumed = r.consumed ∧ r'.cap = r.cap := by
  unfold SameCompletions at h
  have hproduced := congrArg produced h
  have hconsumed := congrArg consumed h
  have hcap := congrArg cap h
  exact ⟨hproduced, hconsumed, hcap⟩

/-- A write apart from the colour bytes keeps a ring shown. -/
theorem Shown.set (h : r.Shown cfg mem) {a : Nat} (b : Byte) (ha : ∀ i < r.cap, r.colorAddr i ≠ a) :
    r.Shown cfg (mem.set a b) := by
  intro i hi
  rw [Memory.get_set_other _ _ (ha i hi)]
  exact h i hi

theorem advance_eq (cfg : Config) (r : DevRing) (c : List Byte) :
    r.advance cfg c = { r with
      produced := r.produced + 1, reported := (r.advance cfg c).reported, events := (r.advance cfg c).events
      lastId := (r.advance cfg c).lastId } := by
  unfold advance
  split
  · rfl
  · rfl
  · rfl
  · split <;> rfl

theorem getLsbD_colorByte (color : Bool) (low : BitVec 7) : (colorByte color low).getLsbD 7 = color := by
  refine (BitVec.getLsbD_append (x := BitVec.ofBool color) (y := low)).trans ?_
  cases color <;> rfl

/-- Completion `produced` shows its colour in its slot (R263, R265). -/
theorem Shown.advance (h : r.Shown cfg mem) (hmem : mem.wf = true) (hsize : 1 ≤ r.cqSize) (c : List Byte) (low : BitVec 7) :
    (r.advance cfg c).Shown cfg (mem.set (r.compSlot + (r.cqSize - 1)) (colorByte (r.color cfg) low)) := by
  have hlast : r.cqSize - 1 < r.cqSize := Nat.sub_lt hsize Nat.one_pos
  rw [advance_eq]
  intro i (hi : i < r.cap)
  show (Memory.get _ (r.colorAddr i)).getLsbD 7 = (cfg.initDoneColor ^^ (fillsOf (r.produced + 1) r.cap i % 2 == 0))
  by_cases hslot : i = r.produced % r.cap
  · rw [(colorAddr_eq_iff hsize hlast).mpr ⟨hslot, rfl⟩, Memory.get_set_self _ _ hmem, getLsbD_colorByte, color, hslot,
      fillsOf_mod (Nat.zero_lt_of_lt hi) (Nat.le_succ _) (by omega), if_pos (Nat.lt_succ_self _)]
    congr 1
    rw [Bool.eq_iff_iff, beq_iff_eq, beq_iff_eq]
    omega
  · rw [Memory.get_set_other _ _ fun heq => hslot ((colorAddr_eq_iff hsize hlast).mp heq).1, fillsOf_succ_other hi hslot]
    exact h i hi

/-! ### What the block has consumed -/

theorem isRingOf.colorAddr (h : r.isRingOf un) (i : Word16) : un.colorAddr i = r.colorAddr i.toNat := by
  obtain ⟨hbase, hsize, -, -, hpos⟩ := h
  rw [QcqUnit.colorAddr, QcqUnit.cqSlot, slotAddr, DevRing.colorAddr, ← hbase, ← hsize, Nat.add_sub_assoc hpos]

/-- The tail slot is pending exactly when its next completion has been produced (R170). -/
theorem Shown.tailPending_iff {y : Sys} {m : Nat} (h : r.Shown cfg y.mem) (hring : r.isRingOf un)
    (hcons : un.hasConsumed cfg m) (hle : m ≤ r.produced) (hahead : r.produced ≤ m + r.cap) :
    un.tailPending y = true ↔ m < r.produced := by
  obtain ⟨htail, hcolor⟩ := hcons
  obtain ⟨-, -, hcap, hpos, -⟩ := id hring
  rw [← hcap] at htail hcolor
  have hbit := h (m % r.cap) (Nat.mod_lt m hpos)
  rw [fillsOf_mod hpos hle hahead] at hbit
  rw [QcqUnit.tailPending, hring.colorAddr, htail, hbit, hcolor, beq_iff_eq, Bool.xor_right_inj, Bool.eq_iff_iff, beq_iff_eq,
    beq_iff_eq]
  split <;> omega

end DevRing

/-- Over two revolutions the block's place is the number of its consumptions. -/
theorem QcqUnit.hasConsumed.consumerPos_eq {cfg : Config} {un : QcqUnit} {m : Nat} (h : un.hasConsumed cfg m) :
    un.consumerPos cfg = m % (2 * un.cap) := by
  obtain ⟨htail, hcolor⟩ := h
  rw [QcqUnit.consumerPos, htail, hcolor, Nat.mul_comm, Nat.mod_mul]
  obtain heven | hodd := Nat.mod_two_eq_zero_or_one (m / un.cap)
  · simp [heven]
  · simp [hodd]

theorem DevRing.note_eq {cfg : Config} {un : QcqUnit} {r : DevRing} {m : Nat} (hring : r.isRingOf un) (htold : r.told = true)
    (hv : un.cq.valid = true) (hb : un.cq.bound = true) (hcons : un.hasConsumed cfg m) (hle : r.consumed ≤ m)
    (hlt : m < r.consumed + 2 * r.cap) : r.note cfg un = { r with consumed := m } := by
  obtain ⟨hbase, -, hcap, -, -⟩ := hring
  have hdiff : modNat ((un.consumerPos cfg : Int) - (r.consumed : Int)) (2 * r.cap) = m - r.consumed := by
    rw [hcons.consumerPos_eq, ← hcap, modNat, Int.natCast_mod, Int.emod_sub_emod, Int.emod_eq_of_lt (by omega) (by omega)]
    omega
  rw [DevRing.note, if_pos (by simp [htold, hbase, hv, hb]), hdiff, Nat.add_sub_cancel' hle]

/-! ### Device steps -/

theorem Sys.sameRing.sameCompletions {y z : Sys} {u : Nat} {r r' : DevRing} (h : y.sameRing z u)
    (hr : y.dev.rings[u]? = some r) (hr' : z.dev.rings[u]? = some r') : r.SameCompletions r' := by
  rw [Sys.sameRing, hr, hr'] at h
  exact congrArg (fun q : DevRing => { q with fetched := 0 }) (Option.some.inj h)

/-- After one ring is replaced, a ring is the new one or as it was. -/
theorem Sys.setRing_cases {y : Sys} {u v : Nat} {r r' w : DevRing} (hr : y.dev.rings[u]? = some r)
    (hr' : (y.setRing v w).dev.rings[u]? = some r') : v = u ∧ r' = w ∨ v ≠ u ∧ r' = r := by
  replace hr' : (y.dev.rings.set v w)[u]? = some r' := hr'
  by_cases hv : v = u
  · subst hv
    obtain ⟨hlt, -⟩ := List.getElem?_eq_some_iff.mp hr
    rw [List.getElem?_set_self hlt] at hr'
    cases hr'
    exact .inl ⟨rfl, rfl⟩
  · rw [List.getElem?_set_ne hv, hr] at hr'
    cases hr'
    exact .inr ⟨hv, rfl⟩

/-- The device writes byte `k`, not the last, of the slot that some ring is at (R264). -/
def Sys.WritesByte (y z : Sys) : Prop :=
  ∃ (v : Nat) (w : DevRing) (k : Nat) (b : Byte), y.dev.rings[v]? = some w ∧ w.told = true ∧ k + 1 < w.cqSize ∧
    z = { y with mem := y.mem.set (w.compSlot + k) b }

/-- The device writes the last byte, which holds the colour, of the slot that ring `v` is at (R263 to R265). -/
def Sys.Completes (cfg : Config) (y z : Sys) (v : Nat) : Prop :=
  ∃ (w : DevRing) (low : BitVec 7) (c : List Byte), y.dev.rings[v]? = some w ∧ w.told = true ∧ 1 ≤ w.cqSize ∧
    w.full = false ∧
    z = { y with mem := y.mem.set (w.compSlot + (w.cqSize - 1)) (colorByte (w.color cfg) low) }.setRing v (w.advance cfg c)

theorem DevRing.told_of_mayProduce {r : DevRing} (h : r.mayProduce = true) : r.told = true :=
  (Bool.and_eq_true_iff.mp h).1

theorem DevRing.full_eq_false {r : DevRing} (htold : r.told = true) (h : ¬ r.overflows = true) : r.full = false := by
  rw [DevRing.overflows, htold, Bool.true_and] at h
  exact Bool.eq_false_iff.mpr h

section
variable (cfg : Config) (y : Sys) (v : Nat)

theorem Sys.devFetch_cases :
    y.devFetch v = y ∨
    ∃ w, y.dev.rings[v]? = some w ∧ y.devFetch v = y.setRing v { w with fetched := w.fetched + 1 } := by
  unfold devFetch
  split
  · exact .inl rfl
  · next w hw =>
    split
    · exact .inr ⟨w, hw, rfl⟩
    · exact .inl rfl

theorem Sys.devCompByte_cases (k : Nat) (b : Byte) :
    y.devCompByte v k b = y ∨ y.devCompByte v k b = y.breaks .notifyOverflow ∨ y.WritesByte (y.devCompByte v k b) := by
  unfold devCompByte
  split
  · exact .inl rfl
  · next w hw =>
    split
    · exact .inr (.inl rfl)
    · split
      · next h =>
        obtain ⟨hmay, hk⟩ := Bool.and_eq_true_iff.mp h
        exact .inr (.inr ⟨v, w, k, b, hw, DevRing.told_of_mayProduce hmay, of_decide_eq_true hk, rfl⟩)
      · exact .inl rfl

theorem Sys.devCompColor_cases (low : BitVec 7) :
    y.devCompColor cfg v low = y ∨ y.devCompColor cfg v low = y.breaks .notifyOverflow ∨
    y.Completes cfg (y.devCompColor cfg v low) v := by
  unfold devCompColor
  split
  · exact .inl rfl
  · next w hw =>
    dsimp only
    split
    · exact .inr (.inl rfl)
    · next hover =>
      split
      · next h =>
        obtain ⟨hmay, -⟩ := Bool.and_eq_true_iff.mp h
        obtain ⟨hmay, hsize⟩ := Bool.and_eq_true_iff.mp hmay
        have htold := DevRing.told_of_mayProduce hmay
        exact .inr (.inr ⟨w, low, _, hw, htold, of_decide_eq_true hsize, DevRing.full_eq_false htold hover, rfl⟩)
      · exact .inl rfl

/-- The steps of the command channel touch no ring and no ring memory. -/
theorem Sys.devAct_channel {a : DevAct}
    (ha : (∃ i, a = .dcCmd i) ∨ (∃ i k b, a = .dcComp i k b) ∨ (∃ i k b, a = .dcData i k b) ∨ ∃ i, a = .dcDone i) :
    (y.devAct cfg a).dev.rings = y.dev.rings ∧ (y.devAct cfg a).mem = y.mem := by
  obtain ⟨i, rfl⟩ | ⟨i, k, b, rfl⟩ | ⟨i, k, b, rfl⟩ | ⟨i, rfl⟩ := ha
  · simp only [devAct, devDcCmd]
    split <;> (try split) <;> exact ⟨rfl, rfl⟩
  · simp only [devAct, devDcComp]
    split <;> (try split) <;> exact ⟨rfl, rfl⟩
  · simp only [devAct, devDcData]
    split <;> (try split) <;> exact ⟨rfl, rfl⟩
  · simp only [devAct, devDcDone, Device.answer]
    split <;> (try split) <;> (try split) <;> exact ⟨rfl, rfl⟩

end

/-- What a device step that does not begin ring `u` anew can do to the ring and to ring memory: nothing but a fetch or the
note of a creation; a byte of some slot before its last; or the last byte of a slot, whose ring goes on to the next. -/
theorem Sys.devAct_ring_cases {cfg : Config} {y : Sys} {a : DevAct} {u : Nat} {r r' : DevRing}
    (hr : y.dev.rings[u]? = some r) (hr' : (y.devAct cfg a).dev.rings[u]? = some r') (ha : ∀ c, a ≠ .learn c u) :
    (r.SameCompletions r' ∧ (y.devAct cfg a).mem = y.mem) ∨ y.WritesByte (y.devAct cfg a) ∨
    ∃ v, y.Completes cfg (y.devAct cfg a) v := by
  have hsame : (y.devAct cfg a).dev.rings = y.dev.rings ∧ (y.devAct cfg a).mem = y.mem →
      r.SameCompletions r' ∧ (y.devAct cfg a).mem = y.mem := by
    rintro ⟨hrings, hmem⟩
    rw [hrings, hr] at hr'
    cases hr'
    exact ⟨rfl, hmem⟩
  cases a with
  | learn c v =>
    have hv : u ≠ v := fun heq => ha c (heq ▸ rfl)
    obtain ⟨-, hother, -⟩ := TellsOnly.devLearn y c v
    exact .inl ⟨(hother u hv).2.sameCompletions hr hr', by rw [devAct, devLearn_eq]⟩
  | fetch v =>
    refine .inl ?_
    rw [devAct] at hr' hsame ⊢
    obtain h | ⟨w, hw, h⟩ := y.devFetch_cases v <;> rw [h] at hr' hsame ⊢
    · exact hsame ⟨rfl, rfl⟩
    · obtain ⟨rfl, rfl⟩ | ⟨-, rfl⟩ := setRing_cases hr hr'
      · cases hr.symm.trans hw
        exact ⟨rfl, rfl⟩
      · exact ⟨rfl, rfl⟩
  | compByte v k b =>
    rw [devAct] at hsame ⊢
    obtain h | h | h := y.devCompByte_cases v k b
    · exact .inl (hsame (by rw [h]; exact ⟨rfl, rfl⟩))
    · exact .inl (hsame (by rw [h]; exact ⟨rfl, rfl⟩))
    · exact .inr (.inl h)
  | compColor v low =>
    rw [devAct] at hsame ⊢
    obtain h | h | h := y.devCompColor_cases cfg v low
    · exact .inl (hsame (by rw [h]; exact ⟨rfl, rfl⟩))
    · exact .inl (hsame (by rw [h]; exact ⟨rfl, rfl⟩))
    · exact .inr (.inr ⟨v, h⟩)
  | dcCmd i => exact .inl (hsame (y.devAct_channel cfg (.inl ⟨i, rfl⟩)))
  | dcComp i k b => exact .inl (hsame (y.devAct_channel cfg (.inr (.inl ⟨i, k, b, rfl⟩))))
  | dcData i k b => exact .inl (hsame (y.devAct_channel cfg (.inr (.inr (.inl ⟨i, k, b, rfl⟩)))))
  | dcDone i => exact .inl (hsame (y.devAct_channel cfg (.inr (.inr (.inr ⟨i, rfl⟩)))))

/-- What one device step leaves of a ring of which the device has been told (R170): the ring stays shown, goes on by one
completion at most, shown in its slot, and a notify ring is not overrun. -/
def DevRing.GoesOn (cfg : Config) (r r' : DevRing) (mem mem' : Memory) : Prop :=
  (r.Shown cfg mem → r'.Shown cfg mem') ∧
  (r'.produced = r.produced ∨
    r'.produced = r.produced + 1 ∧
      (mem'.get (r.colorAddr (r.produced % r.cap))).getLsbD 7 = (cfg.initDoneColor ^^ (r.produced / r.cap % 2 == 1))) ∧
  (r.role = .notify → r.produced ≤ r.consumed + r.cap → r'.produced ≤ r'.consumed + r'.cap)

section
variable {cfg : Config} {r r' : DevRing} {mem mem' : Memory}

theorem DevRing.SameCompletions.goesOn (h : r.SameCompletions r') (hshown : r'.Shown cfg mem → r'.Shown cfg mem') :
    r.GoesOn cfg r' mem mem' := by
  obtain ⟨hproduced, hconsumed, hcap⟩ := h.fields
  refine ⟨fun hs => hshown (h.shown hs), .inl hproduced, fun _ hle => ?_⟩
  rw [hproduced, hconsumed, hcap]
  exact hle

theorem DevRing.goesOn_advance (hmem : mem.wf = true) (hsize : 1 ≤ r.cqSize) (hfull : r.full = false) (c : List Byte)
    (low : BitVec 7) :
    r.GoesOn cfg (r.advance cfg c) mem (mem.set (r.compSlot + (r.cqSize - 1)) (colorByte (r.color cfg) low)) := by
  refine ⟨fun hs => hs.advance hmem hsize c low, .inr ⟨by rw [advance_eq], ?_⟩, fun hrole _ => ?_⟩
  · exact (congrArg (BitVec.getLsbD · 7) (Memory.get_set_self _ _ hmem)).trans (getLsbD_colorByte _ _)
  · rw [DevRing.full, hrole] at hfull
    have hroom : ¬ r.consumed + r.cap ≤ r.produced := of_decide_eq_false hfull
    rw [advance_eq]
    show r.produced + 1 ≤ r.consumed + r.cap
    omega

end

theorem Sys.devAct_goesOn {cfg : Config} {y : Sys} {a : DevAct} {u : Nat} {r r' : DevRing} (hmem : y.mem.wf = true)
    (hr : y.dev.rings[u]? = some r) (hr' : (y.devAct cfg a).dev.rings[u]? = some r') (ha : ∀ c, a ≠ .learn c u)
    (hsize : 1 ≤ r.cqSize)
    (hapart : ∀ (v : Nat) (w : DevRing), v ≠ u → y.dev.rings[v]? = some w → w.told = true → r.apart w) :
    r.GoesOn cfg r' y.mem (y.devAct cfg a).mem := by
  obtain ⟨hsame, hz⟩ | ⟨v, w, k, b, hw, htold, hk, hz⟩ | ⟨v, w, low, c, hw, htold, hsizew, hfull, hz⟩ :=
    devAct_ring_cases hr hr' ha
  · rw [hz]
    exact hsame.goesOn id
  · rw [hz] at hr' ⊢
    cases hr.symm.trans hr'
    refine DevRing.SameCompletions.goesOn rfl fun hs => hs.set b fun i hi => ?_
    by_cases hv : v = u
    · subst hv
      cases hr.symm.trans hw
      intro heq
      obtain ⟨-, hlast⟩ := (DevRing.colorAddr_eq_iff hsize (Nat.lt_of_succ_lt hk)).mp heq
      omega
    · exact (hapart v w hv hw htold).colorAddr_ne hsize hi (Nat.lt_of_succ_lt hk)
  · rw [hz] at hr' ⊢
    obtain ⟨rfl, rfl⟩ | ⟨hv, rfl⟩ := setRing_cases (y := { y with mem := _ }) hr hr'
    · cases hr.symm.trans hw
      exact DevRing.goesOn_advance hmem hsize hfull c low
    · exact DevRing.SameCompletions.goesOn rfl fun hs => hs.set _ fun i hi =>
        (hapart v w hv hw htold).colorAddr_ne hsize hi (Nat.sub_lt hsizew Nat.one_pos)

end Sys2Proof.Machine

open Sys2Proof Sys2Proof.Machine

/-- Settles O31: the block's side by `hasConsumed`, the device's step by step (`Sys.devAct_goesOn`), the telling by
`Sys.TellsOnly`. -/
theorem colorFlipsOncePerRevolution : Obligations.ColorFlipsOncePerRevolution := by
  refine ⟨fun un n hpos hcap htail => ?_, fun cfg y un r m hring hshown hcons hle hahead =>
      hshown.tailPending_iff hring hcons hle hahead,
    fun cfg y a u r r' hmem hr hr' ha _ _ hsize hapart => Sys.devAct_goesOn hmem hr hr' ha hsize hapart,
    fun cfg un r m hring htold hv hb hcons hle hlt => DevRing.note_eq hring htold hv hb hcons hle hlt,
    fun cfg y c u => Sys.TellsOnly.devLearn y c u,
    fun s u => ⟨Sys.TellsOnly.tell s.sync.sys u, s.sync.sys.tell_offers_ne_new u⟩,
    fun s => ⟨rfl, s.sys.dev.nicReset_told⟩,
    fun cfg units y u un hun hstands htaken => Sys.sync_offers_taken hun hstands htaken⟩
  have hstart : un.hasConsumed { Config.default with initDoneColor := un.cq.doneColor } 0 := by
    simp [QcqUnit.hasConsumed, htail]
  have hend := hstart.iterate_consume hpos hcap n
  have hq : (QcqUnit.consume^[n] un).q = un.q := by rw [QcqUnit.iterate_consume_eq]
  rw [Nat.zero_add, QcqUnit.hasConsumed, QcqUnit.cap, hq] at hend
  obtain ⟨htail', hcolor⟩ := hend
  exact ⟨htail', hcolor, hq⟩

end
